-- ==== Sys2Proof/Word.lean ====
section
/-! DEFINITION. The word types of the block: a bus byte, a register address, the level of a discrete line. -/

namespace Sys2Proof

/-- A bus byte, a register value or a command byte: `DATA_WIDTH = 8` (spec/00_scope.md R6). -/
abbrev Byte := BitVec 8

/-- A Register Address: `REG_ADDR_BITS = 5` (R6, spec/20_memory.md R51). -/
abbrev RegAddr := BitVec 5

/-- The level of a discrete line (spec/00_scope.md R10): `low` is 0, `high` is 1. -/
inductive Level where
  | low
  | high
  deriving DecidableEq, Repr

end Sys2Proof
end

