-- ==== Sys2Proof/Config.lean ====
section
/-! DEFINITION. The parameters the spec fixes, the parameters it leaves open (opaque: nothing in Lean can evaluate
them), and the sources of free values. -/

namespace Sys2Proof

/-- `REG_ADDR_MAX = 0x1F`: the largest legal register address (spec/00_scope.md R6). -/
abbrev Config.regAddrMax : Byte := 0x1F

/-- `MAX_PAYLOAD = 32`: the largest payload length in bytes (R6). -/
abbrev Config.maxPayload : Nat := 32

/-- `SPI_CLK_HZ`: the bus clock (R6, spec/70_reset_and_hazards.md R220). Timing only: no definition of the model reads it. -/
def Config.spiClkHz : Nat := 500000

/-- The default of `FILL_BYTE` (spec/00_scope.md R8, D6). -/
def Config.fillByteDefault : Byte := 0xFF

/-- `EN_AA_VAL`, open (R7, D12). -/
opaque Config.enAaVal : Byte

/-- `EN_RXADDR_VAL`, open (R7, D12). -/
opaque Config.enRxaddrVal : Byte

/-- `SETUP_RETR_VAL`, open (R7, D12). -/
opaque Config.setupRetrVal : Byte

/-- `RF_SETUP_VAL`, open (R7, D12). -/
opaque Config.rfSetupVal : Byte

/-- `RF_CH_VAL`, open (R7, D12). -/
opaque Config.rfChVal : Byte

/-- `RX_POP_ON_READ`, open, reference peer only (R7, U17). -/
opaque Config.rxPopOnRead : Bool

/-- `FIFO_DEPTH - 1`, open, reference peer only: `FIFO_DEPTH` is a natural of at least 1 (R7, U5). -/
opaque Config.fifoDepthLessOne : Nat

/-- `PEER_RESET`, open, reference peer only (R7, U18). Its value at address 0 is not used: the spec fixes that one at 0. -/
opaque Config.peerReset : Nat → Byte

/-- The free bytes: the `k`-th draw of a byte the spec leaves unconstrained. They are a `miso` byte of the reference peer
(spec/20_memory.md R57, U1, U4) or an unspecified `rbyte` (spec/10_state.md R22, U8). Notes log entry 6. -/
opaque Config.freeByte : Nat → Byte

/-- How many nanoseconds beyond its minimum the `k`-th drawn dwell lasts (spec/60_exceptions.md R184, U16).
Notes log entry 7. -/
opaque Config.dwellBeyond : Nat → Nat

end Sys2Proof
end

