-- ==== Sys2Proof/Syntax.lean ====
section
/-! DEFINITION. The instructions: one constructor per row of spec/opcode_table.json (8 wire commands, 11 host
operations), the wire command of a command byte, and what is offered to the machine from outside. -/

namespace Sys2Proof

/-- The instructions. A constructor that begins with `cmd` is a wire row: one whole transaction as the radio sees it
(spec/30_encoding.md R81, R84). The others are the host operations of R95. -/
inductive Instr where
  /-- `R_REGISTER A` (spec/40_register_access.md R114), format WRR. -/
  | cmdRRegister (a : RegAddr)
  /-- `W_REGISTER A` (R113), format WRW, with its one data byte. -/
  | cmdWRegister (a : RegAddr) (value : Byte)
  /-- `R_RX_PAYLOAD` (spec/41_payload_transfer.md R131), format WPR, with its number of data slots. -/
  | cmdRRxPayload (n : Nat)
  /-- `W_TX_PAYLOAD` (R133), format WPW, with its data bytes. -/
  | cmdWTxPayload (bytes : List Byte)
  /-- `FLUSH_TX` (R138), format W0. -/
  | cmdFlushTx
  /-- `FLUSH_RX` (R137), format W0. -/
  | cmdFlushRx
  /-- `REUSE_TX_PL` (R136), format W0. -/
  | cmdReuseTxPl
  /-- `NOP` (R139), format W0. -/
  | cmdNop
  /-- `init()` (spec/42_mode_configuration.md R150). -/
  | init
  /-- `configure_receive_mode()` (R152). -/
  | configureReceiveMode
  /-- `configure_transmit_mode()` (R153). -/
  | configureTransmitMode
  /-- `read_rx_payload(len)` (spec/41_payload_transfer.md R130). -/
  | readRxPayload (len : Byte)
  /-- `write_tx_payload(bytes)` (R132). -/
  | writeTxPayload (bytes : List Byte)
  /-- `transmit_one(payload)` (spec/42_mode_configuration.md R154). -/
  | transmitOne (bytes : List Byte)
  /-- `write_register(addr, value)` (spec/40_register_access.md R110). -/
  | writeRegister (addr value : Byte)
  /-- `read_register(addr)` (R111). -/
  | readRegister (addr : Byte)
  /-- `flush_rx()` (spec/41_payload_transfer.md R134). -/
  | flushRx
  /-- `flush_tx()` (R135). -/
  | flushTx
  /-- `write_register_verified(addr, value)` (spec/40_register_access.md R112). -/
  | writeRegisterVerified (addr value : Byte)
  deriving DecidableEq, Repr

/-- The eight commands of the opcode map (spec/30_encoding.md R84), as a command byte alone tells them. -/
inductive WireCmd where
  | rRegister (a : RegAddr)
  | wRegister (a : RegAddr)
  | rRxPayload
  | wTxPayload
  | flushTx
  | flushRx
  | reuseTxPl
  | nop
  deriving DecidableEq, Repr

/-- The host command port (spec/10_state.md R21): one offered operation with its fields. -/
structure Request where
  op    : BitVec 4
  addr  : Byte
  value : Byte
  len   : Byte
  data  : List Byte
  deriving DecidableEq, Repr

/-- What an instruction is encoded as: an operation on the host command port, or the bytes shifted out in one whole
transaction. The host offers only the first (spec/00_scope.md R17); where the second stands is notes log entry 2. -/
inductive Offer where
  | host (r : Request)
  | wire (frame : List Byte)
  deriving DecidableEq, Repr

end Sys2Proof
end

