-- ==== Sys2Proof/WellFormed.lean ====
section
/-! DEFINITION. Which instructions have an encoding. An operand the block itself refuses with a status (a register
address above 0x1F, a payload above 32 bytes) is well formed: it can be offered on the host port. -/

namespace Sys2Proof

/-- `HOST_LEN_BITS = 8` (spec/00_scope.md R8): the longest payload the host port can carry. -/
abbrev hostPayloadMax : Nat := 255

/-- The well-formed instructions. A payload transaction has 0 to 32 data slots (spec/30_encoding.md R81), and a host
payload has a length that the 8-bit `len` field holds (spec/10_state.md R21). -/
def Instr.wellFormed : Instr → Bool
  | .cmdRRegister _ => true
  | .cmdWRegister _ _ => true
  | .cmdRRxPayload n => decide (n ≤ Config.maxPayload)
  | .cmdWTxPayload bytes => decide (bytes.length ≤ Config.maxPayload)
  | .cmdFlushTx => true
  | .cmdFlushRx => true
  | .cmdReuseTxPl => true
  | .cmdNop => true
  | .init => true
  | .configureReceiveMode => true
  | .configureTransmitMode => true
  | .readRxPayload _ => true
  | .writeTxPayload bytes => decide (bytes.length ≤ hostPayloadMax)
  | .transmitOne bytes => decide (bytes.length ≤ hostPayloadMax)
  | .writeRegister _ _ => true
  | .readRegister _ => true
  | .flushRx => true
  | .flushTx => true
  | .writeRegisterVerified _ _ => true

/-- The host operations of spec/30_encoding.md R95, as against the wire rows of R84. -/
def Instr.isHost : Instr → Bool
  | .cmdRRegister _ => false
  | .cmdWRegister _ _ => false
  | .cmdRRxPayload _ => false
  | .cmdWTxPayload _ => false
  | .cmdFlushTx => false
  | .cmdFlushRx => false
  | .cmdReuseTxPl => false
  | .cmdNop => false
  | .init => true
  | .configureReceiveMode => true
  | .configureTransmitMode => true
  | .readRxPayload _ => true
  | .writeTxPayload _ => true
  | .transmitOne _ => true
  | .writeRegister _ _ => true
  | .readRegister _ => true
  | .flushRx => true
  | .flushTx => true
  | .writeRegisterVerified _ _ => true

end Sys2Proof
end

