-- ==== Sys2Proof/Decode.lean ====
section
/-! DEFINITION. The decoder (total, rejecting by name) and the encoder, both from the encoding tables of
spec/30_encoding.md. -/

namespace Sys2Proof

/-- Why an offer is no instruction. -/
inductive Reject where
  /-- A transaction with no byte: its command byte is missing (R80). -/
  | emptyFrame
  /-- One of the 186 reserved command bytes (R90). -/
  | reservedCommand (b : Byte)
  /-- A number of data slots that the format of the command does not have (R81). -/
  | wrongSlots (b : Byte) (slots : Nat)
  /-- An operation code 11 to 15 (R96). -/
  | illegalOp (op : BitVec 4)
  /-- A payload whose length is not its `len` field: no such offer exists (spec/10_state.md R21). -/
  | lengthMismatch (len : Byte) (given : Nat)
  deriving DecidableEq, Repr

/-- The encoder of a command byte (R85): the only operand, the register address, goes to bits 4:0 unchanged (R86). -/
def encodeCmd : WireCmd → Byte
  | .rRegister a => 0x00 ||| a.setWidth 8
  | .wRegister a => 0x20 ||| a.setWidth 8
  | .rRxPayload => 0x61
  | .wTxPayload => 0xA0
  | .flushTx => 0xE1
  | .flushRx => 0xE2
  | .reuseTxPl => 0xE3
  | .nop => 0xFF

/-- The decoder of a command byte (R88). `none` is the spec's `Reserved b`. -/
def decodeCmd (b : Byte) : Option WireCmd :=
  if b &&& 0xE0 = 0x00 then some (.rRegister ((b &&& 0x1F).setWidth 5))
  else if b &&& 0xE0 = 0x20 then some (.wRegister ((b &&& 0x1F).setWidth 5))
  else if b = 0x61 then some .rRxPayload
  else if b = 0xA0 then some .wTxPayload
  else if b = 0xE1 then some .flushTx
  else if b = 0xE2 then some .flushRx
  else if b = 0xE3 then some .reuseTxPl
  else if b = 0xFF then some .nop
  else none

/-- The instruction of a transaction's command and the bytes in its data slots, by its format (R81). The byte shifted
out in an in slot carries nothing (R80), so any is read the same. -/
def decodeSlots (b : Byte) (slots : List Byte) : WireCmd → Except Reject Instr
  | .rRegister a => if slots.length = 1 then .ok (.cmdRRegister a) else .error (.wrongSlots b slots.length)
  | .wRegister a =>
    match slots with
    | [v] => .ok (.cmdWRegister a v)
    | _ => .error (.wrongSlots b slots.length)
  | .rRxPayload =>
    if slots.length ≤ Config.maxPayload then .ok (.cmdRRxPayload slots.length) else .error (.wrongSlots b slots.length)
  | .wTxPayload =>
    if slots.length ≤ Config.maxPayload then .ok (.cmdWTxPayload slots) else .error (.wrongSlots b slots.length)
  | .flushTx => if slots.length = 0 then .ok .cmdFlushTx else .error (.wrongSlots b slots.length)
  | .flushRx => if slots.length = 0 then .ok .cmdFlushRx else .error (.wrongSlots b slots.length)
  | .reuseTxPl => if slots.length = 0 then .ok .cmdReuseTxPl else .error (.wrongSlots b slots.length)
  | .nop => if slots.length = 0 then .ok .cmdNop else .error (.wrongSlots b slots.length)

/-- The decoder of a whole transaction. Its end is told by the chip-select rise, so the list of bytes is the whole
transaction (R87). -/
def decodeFrame : List Byte → Except Reject Instr
  | [] => .error .emptyFrame
  | b :: slots =>
    match decodeCmd b with
    | none => .error (.reservedCommand b)
    | some c => decodeSlots b slots c

/-- A payload operand of the host port: `len = len(data)` by construction (spec/10_state.md R21). -/
def decodePayload (r : Request) (mk : List Byte → Instr) : Except Reject Instr :=
  if r.data.length = r.len.toNat then .ok (mk r.data) else .error (.lengthMismatch r.len r.data.length)

/-- The decoder of the host command port (R95). A field an operation does not use is ignored (spec/10_state.md R21). -/
def decodeRequest (r : Request) : Except Reject Instr :=
  match r.op.toNat with
  | 0 => .ok .init
  | 1 => .ok .configureReceiveMode
  | 2 => .ok .configureTransmitMode
  | 3 => .ok (.readRxPayload r.len)
  | 4 => decodePayload r .writeTxPayload
  | 5 => decodePayload r .transmitOne
  | 6 => .ok (.writeRegister r.addr r.value)
  | 7 => .ok (.readRegister r.addr)
  | 8 => .ok .flushRx
  | 9 => .ok .flushTx
  | 10 => .ok (.writeRegisterVerified r.addr r.value)
  | _ => .error (.illegalOp r.op)

/-- The decoder. The two levels have places of their own, so an offer says which level it is. -/
def decode : Offer → Except Reject Instr
  | .host r => decodeRequest r
  | .wire frame => decodeFrame frame

/-- A request that uses only some fields: the others are 0. -/
def requestOf (op : BitVec 4) (addr value len : Byte) (data : List Byte) : Request :=
  { op := op, addr := addr, value := value, len := len, data := data }

/-- The encoder of an instruction (R84, R85, R95). An in slot carries `FILL_BYTE` (R80), here its default. -/
def encode : Instr → Offer
  | .cmdRRegister a => .wire [encodeCmd (.rRegister a), Config.fillByteDefault]
  | .cmdWRegister a v => .wire [encodeCmd (.wRegister a), v]
  | .cmdRRxPayload n => .wire (encodeCmd .rRxPayload :: List.replicate n Config.fillByteDefault)
  | .cmdWTxPayload bytes => .wire (encodeCmd .wTxPayload :: bytes)
  | .cmdFlushTx => .wire [encodeCmd .flushTx]
  | .cmdFlushRx => .wire [encodeCmd .flushRx]
  | .cmdReuseTxPl => .wire [encodeCmd .reuseTxPl]
  | .cmdNop => .wire [encodeCmd .nop]
  | .init => .host (requestOf 0 0 0 0 [])
  | .configureReceiveMode => .host (requestOf 1 0 0 0 [])
  | .configureTransmitMode => .host (requestOf 2 0 0 0 [])
  | .readRxPayload len => .host (requestOf 3 0 0 len [])
  | .writeTxPayload bytes => .host (requestOf 4 0 0 (BitVec.ofNat 8 bytes.length) bytes)
  | .transmitOne bytes => .host (requestOf 5 0 0 (BitVec.ofNat 8 bytes.length) bytes)
  | .writeRegister addr value => .host (requestOf 6 addr value 0 [])
  | .readRegister addr => .host (requestOf 7 addr 0 0 [])
  | .flushRx => .host (requestOf 8 0 0 0 [])
  | .flushTx => .host (requestOf 9 0 0 0 [])
  | .writeRegisterVerified addr value => .host (requestOf 10 addr value 0 [])

/-- The number of data slots the format of a command byte has at least (R81). -/
def leastSlots (b : Byte) : Nat :=
  match decodeCmd b with
  | some (.rRegister _) => 1
  | some (.wRegister _) => 1
  | _ => 0

/-- The bytes of a transaction whose bits are `w`, the first byte in bits 7:0, with no fewer slots than its format has. -/
def tableFrame (nbits w : Nat) : List Byte :=
  let bytes := (List.range ((nbits + 7) / 8)).map fun k => BitVec.ofNat 8 (w / 256 ^ k)
  match bytes with
  | [] => []
  | b :: slots => b :: slots ++ List.replicate (leastSlots b - slots.length) 0

/-- The offer of a word of spec/opcode_table.json. The table numbers two levels alike: a host row's word is its 4-bit
operation code, a wire row's word is its command byte. A word below 11 is read as an operation code (notes log entry 3). -/
def tableOffer (nbits w : Nat) : Offer :=
  if nbits ≤ 4 ∨ w < 11 then .host (requestOf (BitVec.ofNat 4 w) 0 0 0 []) else .wire (tableFrame nbits w)

/-- What the decoder reads from a word of the opcode table. -/
def decodeTableWord (nbits w : Nat) : Option Instr :=
  match decode (tableOffer nbits w) with
  | .ok i => some i
  | .error _ => none

end Sys2Proof
end

