-- ==== Sys2Proof/Machine/State.lean ====
section
/-! DEFINITION. The state of the machine: the block, its ports, the reference peer behind the bus, and the trace; the
faults and refusals; the state after reset. -/

namespace Sys2Proof.Machine

/-- The Radio Mode (spec/10_state.md R23). -/
inductive Mode where
  | powerDown
  | standby
  | receiveMode
  | transmitMode
  deriving DecidableEq, Repr

/-- The status codes (spec/60_exceptions.md R170). -/
inductive Status where
  | ok
  | invalidArgument
  | busTransportFailure
  | unconfirmedRadioState
  | wrongMode
  deriving DecidableEq, Repr

/-- The host response port (spec/10_state.md R22). -/
structure Response where
  status : Status
  rbyte  : Byte
  rdata  : List Byte
  deriving DecidableEq, Repr

/-- The events of the trace (spec/00_scope.md R13). The time of a dwell is in nanoseconds (notes log entry 7). -/
inductive Event where
  | csn (l : Level)
  | ce (l : Level)
  | xfer (mosi miso : Byte)
  | xferFail (mosi : Byte)
  | dwell (ns : Nat)
  deriving DecidableEq, Repr

/-- What the bus side does with one `SpiXfer` (spec/20_memory.md R68, spec/00_scope.md R11). -/
inductive Answer where
  /-- The byte shifted in is the reference peer's (R57). -/
  | peer
  /-- The byte shifted in is this one, whatever the reference peer would shift out. -/
  | byte (m : Byte)
  /-- The transport says it failed. -/
  | fail
  /-- The transfer never returns (spec/70_reset_and_hazards.md R214). -/
  | never
  deriving DecidableEq, Repr

/-- What a micro-op does to `mode` when it has completed (spec/42_mode_configuration.md R155). -/
inductive ModeAct where
  | keep
  /-- `if mode ∈ {ReceiveMode, TransmitMode} then mode <- Standby` -/
  | activeToStandby
  /-- `if mode = PowerDown then mode <- Standby` -/
  | wakeToStandby
  /-- `mode <- m` -/
  | become (m : Mode)
  deriving DecidableEq, Repr

/-- A micro-op: one primitive of spec/00_scope.md R11. The fill byte of `recv` is the parameter `FILL_BYTE`. -/
inductive Micro where
  /-- `CSN <- 0` -/
  | csnLow
  /-- `CSN <- 1` -/
  | csnHigh (act : ModeAct)
  /-- `CE <- l` -/
  | ce (l : Level) (act : ModeAct)
  /-- `Out(b)` -/
  | out (b : Byte)
  /-- `In()` -/
  | recv
  /-- `Dwell(CE_PULSE_MIN)` -/
  | dwell
  deriving DecidableEq, Repr

/-- The parameters of an implementation that stay open (spec/00_scope.md R7), with `FILL_BYTE` (R8). They are constants
of an implementation, held beside the state so that one model stands for all of them: no step changes them
(notes log entry 4). -/
structure Params where
  enAaVal      : Byte
  enRxaddrVal  : Byte
  setupRetrVal : Byte
  rfSetupVal   : Byte
  rfChVal      : Byte
  fillByte     : Byte
  rxPopOnRead  : Bool
  fifoDepth    : Nat
  peerReset    : Vector Byte 32
  deriving DecidableEq, Repr

/-- The reference peer's transaction in progress (spec/20_memory.md R56): the command decoded from the command byte
(none before it, or where it is reserved), the bytes seen, the TX entry being built. -/
structure Frame where
  cmd   : Option WireCmd
  pos   : Nat
  build : List Byte
  deriving DecidableEq, Repr

/-- The reference peer (spec/20_memory.md R56). `regs` is the register space as a list of cells in one canonical form
(Machine/Memory.lean), `air` the entries of the `RadioTx` events. -/
structure Peer where
  regs   : List Host.Cell
  rxFifo : List (List Byte)
  txFifo : List (List Byte)
  air    : List (List Byte)
  frame  : Option Frame
  deriving DecidableEq, Repr

/-- The state. The first eight fields are the block's (spec/10_state.md R23 to R29), the next four its ports, then the
trace (spec/00_scope.md R13), the reference peer (spec/20_memory.md R56) and the parameters. The last three are the model's
own. -/
structure State where
  mode      : Mode
  csn       : Level
  ce        : Level
  busy      : Bool
  cur       : Instr
  upc       : BitVec 6
  rxbuf     : List Byte
  busFault  : Bool
  /-- What the host offers and the block has not yet taken, the first to be taken first (spec/10_state.md R21). -/
  offers    : List Request
  /-- The response port: none until an operation has ended, and while one is in progress. -/
  resp      : Option Response
  /-- The level of the interrupt line, an input. -/
  irq       : Level
  /-- What the bus side does with the transfers to come, the next one first. Beyond its end the reference peer answers. -/
  answers   : List Answer
  trace     : List Event
  peer      : Peer
  params    : Params
  /-- How many free values have been drawn. -/
  draws     : Nat
  /-- Transactions to be played into the reference peer with the block out of the way, the next one first (notes log
  entry 2). No agent of spec/00_scope.md R9 has this move: it is empty at reset and no step puts anything there. -/
  bench     : List (List Byte)
  /-- The bytes (`mosi`, `miso`) of the last wire row executed. -/
  exchanged : List (Byte × Byte)
  deriving DecidableEq, Repr

/-- Faults. The spec gives the block no trap and no stop: a failed transfer ends an operation with a status
(spec/60_exceptions.md R176) and a transfer that never returns leaves the block stuck, which is a next state
(spec/70_reset_and_hazards.md R214). So there is no constructor, and no step can fault. -/
inductive Fault where
  deriving DecidableEq, Repr

/-- Refusals. -/
inductive Refusal where
  /-- An instruction without a meaning, raised by an arm of `exec`. No arm raises it. Safe. -/
  | notModelled (mnemonic : String)
  /-- A transaction with no byte stood on the bench; raised by `step`. The formats of spec/30_encoding.md R81
  have none. Safe. -/
  | emptyFrame
  /-- A transaction with a reserved command byte stood on the bench; raised by `step`. The treatment is
  `refuse` (spec/93_implementation_defined.md U2). Safe. -/
  | reservedCommand (b : Byte)
  /-- A transaction with a number of data slots outside the format of its command (spec/30_encoding.md R81) stood on the
  bench; raised by `step`. Safe. -/
  | wrongSlots (b : Byte) (slots : Nat)
  /-- A payload was offered on the host port with a `len` that is not its length; raised by `step`. The spec rules such
  an offer out by construction (spec/10_state.md R21). Safe. -/
  | lengthMismatch (len : Byte) (given : Nat)
  deriving DecidableEq, Repr

/-- The parameters of the implementation that runs from reset: every open one is an opaque constant of Config. -/
def Params.atReset : Params where
  enAaVal      := Config.enAaVal
  enRxaddrVal  := Config.enRxaddrVal
  setupRetrVal := Config.setupRetrVal
  rfSetupVal   := Config.rfSetupVal
  rfChVal      := Config.rfChVal
  fillByte     := Config.fillByteDefault
  rxPopOnRead  := Config.rxPopOnRead
  fifoDepth    := Config.fifoDepthLessOne + 1
  peerReset    := Vector.mk ((List.range 32).map Config.peerReset).toArray (by simp)

/-- The reference peer at reset (spec/10_state.md R39, spec/20_memory.md R56): no register listed, so each reads as
`PEER_RESET` has it, the FIFOs and `air` empty, no transaction open. -/
def Peer.atReset : Peer where
  regs   := []
  rxFifo := []
  txFifo := []
  air    := []
  frame  := none

/-- The machine right after a cold start of the block and the radio (spec/10_state.md R39, spec/70_reset_and_hazards.md
R200). A reset of the block alone is `State.resetBlock` in Machine/Ops.lean. `cur` is unspecified there
(notes log entry 8), and so is the level of the interrupt line (notes log entry 9). -/
def State.reset : State where
  mode      := .powerDown
  csn       := .high
  ce        := .low
  busy      := false
  cur       := .init
  upc       := 0
  rxbuf     := []
  busFault  := false
  offers    := []
  resp      := none
  irq       := .low
  answers   := []
  trace     := []
  peer      := Peer.atReset
  params    := Params.atReset
  draws     := 0
  bench     := []
  exchanged := []

end Sys2Proof.Machine
end

