-- ==== Sys2Proof/Machine/Operands.lean ====
section
/-! DEFINITION. Operand forms: register names, the constants the sequences write, the check of an operand's range, the
command byte of a register operand, and the two addressing modes (spec/40_register_access.md R117). -/

namespace Sys2Proof.Machine

/-- The register addresses the spec names (spec/20_memory.md R61). -/
def regCONFIG : RegAddr := 0x00
def regEN_AA : RegAddr := 0x01
def regEN_RXADDR : RegAddr := 0x02
def regSETUP_RETR : RegAddr := 0x04
def regRF_CH : RegAddr := 0x05
def regRF_SETUP : RegAddr := 0x06
def regSTATUS : RegAddr := 0x07

/-- `CONFIG_RX_VAL` (spec/00_scope.md R6). -/
def configRxVal : Byte := 0b00001011

/-- `CONFIG_TX_VAL` (R6). -/
def configTxVal : Byte := 0b00001010

/-- `CE_PULSE_MIN`, 10 microseconds, in nanoseconds (R6). -/
def cePulseMinNs : Nat := 10000

/-- `addr ≤ 0x1F` (spec/60_exceptions.md R171). -/
def addrLegal (addr : Byte) : Bool := decide (addr ≤ Config.regAddrMax)

/-- `len ≤ 32` (R171). -/
def lenLegal (len : Nat) : Bool := decide (len ≤ Config.maxPayload)

/-- The register address of a checked host operand: its low five bits (spec/30_encoding.md R86). -/
def regOf (addr : Byte) : RegAddr := addr.setWidth 5

/-- The command byte of a register write, `0x20 | addr` (spec/40_register_access.md R110). -/
def writeCmd (addr : Byte) : Byte := encodeCmd (.wRegister (regOf addr))

/-- The command byte of a register read, `0x00 | addr` (R111). -/
def readCmd (addr : Byte) : Byte := encodeCmd (.rRegister (regOf addr))

end Sys2Proof.Machine
end

