-- ==== Sys2Proof/Machine/Flags.lean ====
section
/-! DEFINITION. The status-like items (spec/10_state.md R31): the status codes, which status the acceptance checks give,
and what the response port delivers at the end of an operation. -/

namespace Sys2Proof.Machine

/-- The 3-bit code of a status (spec/60_exceptions.md R170). -/
def Status.code : Status → BitVec 3
  | .ok => 0
  | .invalidArgument => 1
  | .busTransportFailure => 2
  | .unconfirmedRadioState => 3
  | .wrongMode => 4

/-- The 2-bit code of the mode (spec/10_state.md R23). -/
def Mode.code : Mode → BitVec 2
  | .powerDown => 0
  | .standby => 1
  | .receiveMode => 2
  | .transmitMode => 3

/-- The check of a register address (spec/60_exceptions.md R171 (a)). -/
def checkAddr (addr : Byte) : Option Status := if addrLegal addr then none else some .invalidArgument

/-- The check of a payload length (R171 (b)). -/
def checkLen (len : Nat) : Option Status := if lenLegal len then none else some .invalidArgument

/-- The checks of `transmit_one` in their order: the length, then the mode (R172, R175). -/
def checkTransmit (len : Nat) (m : Mode) : Option Status :=
  if lenLegal len then (if m = .transmitMode then none else some .wrongMode) else some .invalidArgument

/-- The status an operation is refused with at acceptance, if it is (R175 (2) and (3)). A wire row has no check. -/
def acceptCheck (i : Instr) (m : Mode) : Option Status :=
  match i with
  | .readRxPayload len => checkLen len.toNat
  | .writeTxPayload bytes => checkLen bytes.length
  | .transmitOne bytes => checkTransmit bytes.length m
  | .writeRegister addr _ => checkAddr addr
  | .readRegister addr => checkAddr addr
  | .writeRegisterVerified addr _ => checkAddr addr
  | .cmdRRegister _ => none
  | .cmdWRegister _ _ => none
  | .cmdRRxPayload _ => none
  | .cmdWTxPayload _ => none
  | .cmdFlushTx => none
  | .cmdFlushRx => none
  | .cmdReuseTxPl => none
  | .cmdNop => none
  | .init => none
  | .configureReceiveMode => none
  | .configureTransmitMode => none
  | .flushRx => none
  | .flushTx => none

/-- The status of `write_register_verified` after its last micro-op (R174): the byte read back against the value. -/
def verifyStatus (value r : Byte) : Status := if r = value then .ok else .unconfirmedRadioState

/-- The status of an operation that ran to its end (R170), with the byte its `In()` received, if any. -/
def endStatus (i : Instr) (r : Byte) : Status :=
  match i with
  | .writeRegisterVerified _ value => verifyStatus value r
  | .cmdRRegister _ => .ok
  | .cmdWRegister _ _ => .ok
  | .cmdRRxPayload _ => .ok
  | .cmdWTxPayload _ => .ok
  | .cmdFlushTx => .ok
  | .cmdFlushRx => .ok
  | .cmdReuseTxPl => .ok
  | .cmdNop => .ok
  | .init => .ok
  | .configureReceiveMode => .ok
  | .configureTransmitMode => .ok
  | .readRxPayload _ => .ok
  | .writeTxPayload _ => .ok
  | .transmitOne _ => .ok
  | .writeRegister _ _ => .ok
  | .readRegister _ => .ok
  | .flushRx => .ok
  | .flushTx => .ok

/-- Whether an operation that ran to its end defines `rbyte` (spec/10_state.md R22). -/
def definesRbyte : Instr → Bool
  | .readRegister _ => true
  | .writeRegisterVerified _ _ => true
  | .cmdRRegister _ => false
  | .cmdWRegister _ _ => false
  | .cmdRRxPayload _ => false
  | .cmdWTxPayload _ => false
  | .cmdFlushTx => false
  | .cmdFlushRx => false
  | .cmdReuseTxPl => false
  | .cmdNop => false
  | .init => false
  | .configureReceiveMode => false
  | .configureTransmitMode => false
  | .readRxPayload _ => false
  | .writeTxPayload _ => false
  | .transmitOne _ => false
  | .writeRegister _ _ => false
  | .flushRx => false
  | .flushTx => false

/-- `rdata` at the end of an operation: the payload of `read_rx_payload`, empty for every other (R22). -/
def endRdata (i : Instr) (rxbuf : List Byte) : List Byte :=
  match i with
  | .readRxPayload _ => rxbuf
  | .cmdRRegister _ => []
  | .cmdWRegister _ _ => []
  | .cmdRRxPayload _ => []
  | .cmdWTxPayload _ => []
  | .cmdFlushTx => []
  | .cmdFlushRx => []
  | .cmdReuseTxPl => []
  | .cmdNop => []
  | .init => []
  | .configureReceiveMode => []
  | .configureTransmitMode => []
  | .writeTxPayload _ => []
  | .transmitOne _ => []
  | .writeRegister _ _ => []
  | .readRegister _ => []
  | .flushRx => []
  | .flushTx => []
  | .writeRegisterVerified _ _ => []

/-- What a completed micro-op does to `mode` (spec/42_mode_configuration.md R155). -/
def ModeAct.apply (act : ModeAct) (m : Mode) : Mode :=
  match act with
  | .keep => m
  | .activeToStandby => if m = .receiveMode ∨ m = .transmitMode then .standby else m
  | .wakeToStandby => if m = .powerDown then .standby else m
  | .become m' => m'

end Sys2Proof.Machine
end

