-- ==== Sys2Proof/Machine/Memory.lean ====
section
/-! DEFINITION. The register space of the reference peer (spec/20_memory.md R50, R51, R56): 32 addresses, one byte each,
held as a list of cells in one canonical form. -/

namespace Sys2Proof.Machine

/-- The register space as data: cells of strictly rising address, none equal to what an unlisted address reads as. -/
abbrev Memory := List Host.Cell

/-- What an unlisted address reads as: the register's value at the peer's reset, `PEER_RESET(a)`, with
`PEER_RESET(0x00) = 0x00` (spec/00_scope.md R7, spec/10_state.md R39). -/
def Memory.unlisted (p : Params) (a : RegAddr) : Byte :=
  if a = 0 then 0x00 else p.peerReset[a.toNat]'a.isLt

/-- The byte a cell list gives an address, if it lists it. -/
def Memory.lookup : Memory → Nat → Option Byte
  | [], _ => none
  | (k, b) :: m, a => if k = a then some b else Memory.lookup m a

/-- `reg[a]` (R56). -/
def Memory.read (p : Params) (m : Memory) (a : RegAddr) : Byte :=
  match Memory.lookup m a.toNat with
  | some b => b
  | none => Memory.unlisted p a

/-- The cell list without an address. -/
def Memory.erase (a : Nat) : Memory → Memory
  | [] => []
  | (k, b) :: m => if k = a then Memory.erase a m else (k, b) :: Memory.erase a m

/-- The cell list with an address at a byte, in its place. -/
def Memory.insert (a : Nat) (b : Byte) : Memory → Memory
  | [] => [(a, b)]
  | (k, c) :: m =>
    if a < k then (a, b) :: (k, c) :: m
    else if a = k then (a, b) :: m
    else (k, c) :: Memory.insert a b m

/-- `reg[a] <- v` (R56). Writing what the address reads as unlisted removes its cell. -/
def Memory.write (p : Params) (m : Memory) (a : RegAddr) (v : Byte) : Memory :=
  if v = Memory.unlisted p a then Memory.erase a.toNat m else Memory.insert a.toNat v m

/-- Every cell lies above `lo` and addresses rise strictly. -/
def Memory.risingFrom : Nat → Memory → Bool
  | _, [] => true
  | lo, (k, _) :: m => decide (lo ≤ k) && Memory.risingFrom (k + 1) m

/-- A cell is a register of the space at a value that an unlisted address would not give. -/
def Memory.cellOk (p : Params) (c : Host.Cell) : Bool :=
  decide (c.1 < 32) && decide (c.2 ≠ Memory.unlisted p (BitVec.ofNat 5 c.1))

/-- The canonical form. -/
def Memory.wf (p : Params) (m : Memory) : Bool :=
  Memory.risingFrom 0 m && m.all (Memory.cellOk p)

end Sys2Proof.Machine
end

