-- ==== Sys2Proof/Machine/Peer.lean ====
section
/-! DEFINITION. The reference peer: how the radio side reacts to each event of the trace (spec/20_memory.md R57). -/

namespace Sys2Proof.Machine

/-- `PWR_UP`, bit 1 of CONFIG (spec/10_state.md R36). -/
def pwrUp (config : Byte) : Bool := config.getLsbD 1

/-- `PRIM_RX`, bit 0 of CONFIG (R36). -/
def primRx (config : Byte) : Bool := config.getLsbD 0

/-- The `miso` byte the peer is bound to, if it is bound to one: the register in data slot 1 of `R_REGISTER`, the byte
of the RX FIFO's top entry in a data slot of `R_RX_PAYLOAD`. Every other one is unconstrained. -/
def Peer.miso (p : Params) (r : Peer) : Option Byte :=
  match r.frame with
  | some { cmd := some (.rRegister a), pos := 1, .. } => some (Memory.read p r.regs a)
  | some { cmd := some .rRxPayload, pos := k + 1, .. } => r.rxFifo.head?.bind fun entry => entry[k]?
  | _ => none

/-- `on Csn(0)`. -/
def Peer.onCsnLow (r : Peer) : Peer :=
  { r with frame := some { cmd := none, pos := 0, build := [] } }

/-- `on Csn(1)`: a TX entry is queued if there is room, a read RX entry is removed if `RX_POP_ON_READ`. -/
def Peer.onCsnHigh (p : Params) (r : Peer) : Peer :=
  match r.frame with
  | none => r
  | some f =>
    match f.cmd with
    | some .wTxPayload =>
      { r with txFifo := if r.txFifo.length < p.fifoDepth then r.txFifo ++ [f.build] else r.txFifo, frame := none }
    | some .rRxPayload =>
      { r with rxFifo := if 2 ≤ f.pos ∧ p.rxPopOnRead = true then r.rxFifo.tail else r.rxFifo, frame := none }
    | _ => { r with frame := none }

/-- `on Xfer` of the command byte. -/
def Peer.onCommand (mosi : Byte) (r : Peer) : Peer :=
  let c := decodeCmd mosi
  { r with
    rxFifo := if c = some .flushRx then [] else r.rxFifo
    txFifo := if c = some .flushTx then [] else r.txFifo
    frame := some { cmd := c, pos := 1, build := [] } }

/-- `on Xfer` of a data byte. -/
def Peer.onData (p : Params) (mosi : Byte) (f : Frame) (r : Peer) : Peer :=
  match f.cmd with
  | some (.wRegister a) =>
    { r with
      regs := if f.pos = 1 then Memory.write p r.regs a mosi else r.regs
      frame := some { f with pos := f.pos + 1 } }
  | some .wTxPayload => { r with frame := some { f with pos := f.pos + 1, build := f.build ++ [mosi] } }
  | _ => { r with frame := some { f with pos := f.pos + 1 } }

/-- `on Xfer(mosi, miso)`. Outside a transaction the peer has nothing to react with. -/
def Peer.onXfer (p : Params) (mosi : Byte) (r : Peer) : Peer :=
  match r.frame with
  | none => r
  | some f => if f.pos = 0 then r.onCommand mosi else r.onData p mosi f

/-- `on Ce(1) with CE previously 0`: a transmitter with a queued entry sends its oldest one and keeps it. -/
def Peer.onCeRise (p : Params) (r : Peer) : Peer :=
  match r.txFifo with
  | [] => r
  | entry :: _ =>
    if pwrUp (Memory.read p r.regs 0) = true ∧ primRx (Memory.read p r.regs 0) = false
    then { r with air := r.air ++ [entry] }
    else r

end Sys2Proof.Machine
end

