-- ==== Sys2Proof/Machine/Ops.lean ====
section
/-! DEFINITION. The named operations: the primitives of spec/00_scope.md R11, the response and abort rules
(spec/60_exceptions.md R176), acceptance, one transaction at the wire level, and taking an offer. -/

namespace Sys2Proof.Machine

/-- Appends an event to the trace (spec/00_scope.md R13). -/
def State.emit (e : Event) (s : State) : State := { s with trace := s.trace ++ [e] }

/-- A free byte and the state that has drawn it (notes log entry 6). -/
def State.freeByte (s : State) : Byte := Config.freeByte s.draws

/-- Counts a drawn free value. -/
def State.drawn (s : State) : State := { s with draws := s.draws + 1 }

/-- `CSN <- 0` (R11). -/
def State.csnFall (s : State) : State :=
  { s with csn := .low, peer := s.peer.onCsnLow, trace := s.trace ++ [.csn .low] }

/-- `CSN <- 1` (R11). -/
def State.csnRise (s : State) : State :=
  { s with csn := .high, peer := s.peer.onCsnHigh s.params, trace := s.trace ++ [.csn .high] }

/-- `CE <- l` (R11). The peer reacts to a rise only (spec/20_memory.md R57). -/
def State.driveCe (l : Level) (s : State) : State :=
  { s with
    ce := l
    peer := if s.ce = .low ∧ l = .high then s.peer.onCeRise s.params else s.peer
    trace := s.trace ++ [.ce l] }

/-- `Dwell(CE_PULSE_MIN)` (R11): at least the minimum passes, how much more is free (spec/60_exceptions.md R184). -/
def State.dwell (s : State) : State :=
  { s with trace := s.trace ++ [.dwell (cePulseMinNs + Config.dwellBeyond s.draws)], draws := s.draws + 1 }

/-- The outcome of one `SpiXfer` (R11). -/
inductive XferResult where
  | ok (m : Byte) (s : State)
  | fail (s : State)
  | never
  deriving DecidableEq, Repr

/-- A transfer that shifted byte `m` in: the event, and the peer's reaction to it. -/
def State.shifted (b m : Byte) (s : State) : State :=
  { s with peer := s.peer.onXfer s.params b, trace := s.trace ++ [.xfer b m] }

/-- A transfer that the reference peer answers: the byte it is bound to, or else a free one. -/
def State.peerXfer (b : Byte) (s : State) : XferResult :=
  match s.peer.miso s.params with
  | some m => .ok m (s.shifted b m)
  | none => .ok s.freeByte (s.drawn.shifted b s.freeByte)

/-- `SpiXfer(b)` (R11, spec/20_memory.md R68). -/
def State.spiXfer (b : Byte) (s : State) : XferResult :=
  match s.answers with
  | [] => s.peerXfer b
  | .peer :: rest => { s with answers := rest }.peerXfer b
  | .byte m :: rest => .ok m ({ s with answers := rest }.shifted b m)
  | .fail :: rest => .fail { s with answers := rest }
  | .never :: _ => .never

/-- The response port with a status and no defined result: `rbyte` unspecified, `rdata` empty (spec/10_state.md R22). -/
def State.respond (st : Status) (s : State) : State :=
  { s with resp := some { status := st, rbyte := s.freeByte, rdata := [] }, draws := s.draws + 1 }

/-- The end of an operation: `busy <- 0`, `upc <- 0`, and the receive buffer is not kept (spec/10_state.md R26 to R28). -/
def State.rest (s : State) : State := { s with busy := false, upc := 0, rxbuf := [] }

/-- TAKING A FAILURE at acceptance (spec/60_exceptions.md R176): `status <- S`, `busy <- 0`, `upc <- 0`, nothing else. -/
def State.refuseWith (st : Status) (s : State) : State := { s with busy := false, upc := 0 }.respond st

/-- TAKING A FAILURE of `SpiXfer(b)` (R176): the failed transfer is recorded, the sticky fault bit is set, an open frame
is closed, the received bytes are dropped and the operation ends. Nothing is saved and control goes nowhere (R177). -/
def State.abort (b : Byte) (s : State) : State :=
  let s1 := { s with busFault := true }.emit (.xferFail b)
  let s2 := if s1.csn = .low then s1.csnRise else s1
  s2.rest.respond .busTransportFailure

/-- The end of an operation that ran all its micro-ops: the response of spec/10_state.md R22. -/
def State.finish (s : State) : State :=
  let r := s.rxbuf.head?.getD s.freeByte
  if definesRbyte s.cur then
    { s.rest with resp := some { status := endStatus s.cur r, rbyte := r, rdata := endRdata s.cur s.rxbuf } }
  else
    { s.rest with
      resp := some { status := endStatus s.cur r, rbyte := s.freeByte, rdata := endRdata s.cur s.rxbuf }
      draws := s.draws + 1 }

/-- Acceptance of an operation (spec/10_state.md R26 to R28). -/
def State.accept (i : Instr) (s : State) : State :=
  { s with busy := true, cur := i, upc := 0, rxbuf := [], resp := none }

/-- A completed micro-op: what it does to `mode`, and `upc <- upc + 1` (R27). -/
def State.completed (act : ModeAct) (s : State) : State := { s with mode := act.apply s.mode, upc := s.upc + 1 }

/-- The outcome of one micro-op. -/
inductive MicroResult where
  /-- It completed. -/
  | done (s : State)
  /-- Its transfer failed: the operation has ended (R176). -/
  | aborted (s : State)
  /-- Its transfer never returns (spec/70_reset_and_hazards.md R214). -/
  | stuck
  deriving DecidableEq, Repr

/-- `Out(b)`: the byte shifted in is discarded. -/
def State.outByte (b : Byte) (s : State) : MicroResult :=
  match s.spiXfer b with
  | .ok _ t => .done (t.completed .keep)
  | .fail t => .aborted (t.abort b)
  | .never => .stuck

/-- `In()`: `FILL_BYTE` is shifted out and the byte shifted in is kept (R28). -/
def State.inByte (s : State) : MicroResult :=
  match s.spiXfer s.params.fillByte with
  | .ok m t => .done ({ t with rxbuf := t.rxbuf ++ [m] }.completed .keep)
  | .fail t => .aborted (t.abort s.params.fillByte)
  | .never => .stuck

/-- One micro-op (spec/00_scope.md R11). -/
def State.micro (m : Micro) (s : State) : MicroResult :=
  match m with
  | .csnLow => .done (s.csnFall.completed .keep)
  | .csnHigh act => .done (s.csnRise.completed act)
  | .ce l act => .done ((s.driveCe l).completed act)
  | .out b => s.outByte b
  | .recv => s.inByte
  | .dwell => .done (s.dwell.completed .keep)

/-- Runs micro-ops in order to the end of the operation: all of them, or up to a failed transfer, or up to one that
never returns, where the block stays (spec/42_mode_configuration.md R160, spec/70_reset_and_hazards.md R214). -/
def State.runMicros : List Micro → State → State
  | [], s => s.finish
  | m :: ms, s =>
    match s.micro m with
    | .done t => State.runMicros ms t
    | .aborted t => t
    | .stuck => s

/-- A reset of the block (spec/70_reset_and_hazards.md R200, R201): every piece of its state at the value of
spec/10_state.md R39, no response, and the trace empty. It sends nothing to the radio, whose state is whatever it was, and
what stands outside the block stays. No step takes it: a run begins at a reset and has no later one (D26). -/
def State.resetBlock (s : State) : State :=
  { s with
    mode := .powerDown
    csn := .high
    ce := .low
    busy := false
    cur := .init
    upc := 0
    rxbuf := []
    busFault := false
    resp := none
    trace := [] }

/-- Puts an offer before those that wait: an operation at the host port, a transaction on the bench. -/
def State.offer (o : Offer) (s : State) : State :=
  { s with
    offers := match o with
      | .host r => r :: s.offers
      | .wire _ => s.offers
    bench := match o with
      | .host _ => s.bench
      | .wire frame => frame :: s.bench }

/-- An instruction that cannot be taken while an operation is in progress waits, neither lost nor failed
(spec/10_state.md R26). -/
def State.wait (i : Instr) (s : State) : State := s.offer (encode i)

/-- One slot of a transaction at the radio's port: the byte the peer is bound to, or else a free one. -/
def State.slot (b : Byte) (s : State) : State :=
  match s.peer.miso s.params with
  | some m => { s with peer := s.peer.onXfer s.params b, exchanged := s.exchanged ++ [(b, m)] }
  | none =>
    { s with
      peer := s.peer.onXfer s.params b
      exchanged := s.exchanged ++ [(b, s.freeByte)]
      draws := s.draws + 1 }

/-- The slots of a transaction, in order (spec/20_memory.md R54). -/
def State.slots : List Byte → State → State
  | [], s => s
  | b :: bs, s => State.slots bs (s.slot b)

/-- One whole transaction played into the reference peer (spec/30_encoding.md R80): it reacts from the chip-select fall
to its rise. The block, its lines and the trace are not touched (notes log entry 2). -/
def State.wireFrame (bytes : List Byte) (s : State) : State :=
  let s1 := State.slots bytes { s with peer := s.peer.onCsnLow, exchanged := [] }
  { s1 with peer := s1.peer.onCsnHigh s1.params }

/-- A wire row: its transaction runs when no operation is in progress, for transactions never overlap
(spec/70_reset_and_hazards.md R215). -/
def State.wireRow (i : Instr) (bytes : List Byte) (s : State) : Host.Outcome State Fault Refusal :=
  if s.busy then .next (s.wait i) else .next (s.wireFrame bytes)

/-- An offer that is no instruction (R96, spec/93_implementation_defined.md U2): an illegal operation code ends at once
with `InvalidArgument`, the others are refused by name. -/
def State.rejectOffer (r : Reject) (s : State) : Host.Outcome State Fault Refusal :=
  match r with
  | .illegalOp _ => .next (s.refuseWith .invalidArgument)
  | .emptyFrame => .refused .emptyFrame
  | .reservedCommand b => .refused (.reservedCommand b)
  | .wrongSlots b n => .refused (.wrongSlots b n)
  | .lengthMismatch len n => .refused (.lengthMismatch len n)

/-- What the machine does next. -/
inductive Fetched where
  /-- An operation is in progress: its next micro-op. -/
  | inProgress
  /-- Nothing is offered: the block waits. -/
  | idle
  /-- An instruction was taken. -/
  | taken (i : Instr) (s : State)
  /-- What was taken is no instruction. -/
  | rejected (r : Reject) (s : State)
  deriving DecidableEq, Repr

/-- What is taken next and the state without it: what stands on the bench, which is empty in every run of the block, and
else the host's first offer. -/
def State.nextOffer (s : State) : Option (Offer × State) :=
  match s.bench, s.offers with
  | frame :: rest, _ => some (.wire frame, { s with bench := rest })
  | [], r :: rest => some (.host r, { s with offers := rest })
  | [], [] => none

/-- Takes an offer, only at rest (spec/10_state.md R26). -/
def State.fetch (s : State) : Fetched :=
  if s.busy then .inProgress
  else
    match s.nextOffer with
    | none => .idle
    | some (o, t) =>
      match decode o with
      | .ok i => .taken i t
      | .error r => .rejected r t

end Sys2Proof.Machine
end

