-- ==== Sys2Proof/Machine/Sequences.lean ====
section
/-! DEFINITION. The micro-sequence of each operation: a constant list of micro-ops (spec/10_state.md R27, R40), and the
step of one micro-op. -/

namespace Sys2Proof.Machine

/-- `Txn(cmd, outs, n_in)` (spec/30_encoding.md R83). `act` is what completing its closing `CSN <- 1` does to `mode`. -/
def txn (cmd : Byte) (outs : List Byte) (nIn : Nat) (act : ModeAct) : List Micro :=
  .csnLow :: .out cmd :: (outs.map Micro.out ++ (List.replicate nIn Micro.recv ++ [.csnHigh act]))

/-- `WR(a, v)` (spec/42_mode_configuration.md). -/
def writeTxn (a : RegAddr) (v : Byte) (act : ModeAct) : List Micro := txn (encodeCmd (.wRegister a)) [v] 0 act

/-- `write_register` (spec/40_register_access.md R110). -/
def seqWriteRegister (addr value : Byte) : List Micro := txn (writeCmd addr) [value] 0 .keep

/-- `read_register` (R111). -/
def seqReadRegister (addr : Byte) : List Micro := txn (readCmd addr) [] 1 .keep

/-- `write_register_verified` (R112). -/
def seqWriteRegisterVerified (addr value : Byte) : List Micro :=
  txn (writeCmd addr) [value] 0 .keep ++ txn (readCmd addr) [] 1 .keep

/-- `read_rx_payload` (spec/41_payload_transfer.md R130). -/
def seqReadRxPayload (len : Byte) : List Micro := txn (encodeCmd .rRxPayload) [] len.toNat .keep

/-- `write_tx_payload` (R132). -/
def seqWriteTxPayload (bytes : List Byte) : List Micro := txn (encodeCmd .wTxPayload) bytes 0 .keep

/-- `flush_rx` (R134). -/
def seqFlushRx : List Micro := txn (encodeCmd .flushRx) [] 0 .keep

/-- `flush_tx` (R135). -/
def seqFlushTx : List Micro := txn (encodeCmd .flushTx) [] 0 .keep

/-- `init` (spec/42_mode_configuration.md R150). -/
def seqInit : List Micro := [.ce .low .activeToStandby]

/-- `configure_receive_mode` (R152, R155). -/
def seqConfigureReceiveMode (p : Params) : List Micro :=
  .ce .low .activeToStandby ::
    (writeTxn regCONFIG configRxVal .wakeToStandby
      ++ (writeTxn regEN_AA p.enAaVal .keep
      ++ (writeTxn regEN_RXADDR p.enRxaddrVal .keep
      ++ (writeTxn regSETUP_RETR p.setupRetrVal .keep
      ++ (writeTxn regRF_SETUP p.rfSetupVal .keep
      ++ (writeTxn regRF_CH p.rfChVal .keep
      ++ [.ce .high (.become .receiveMode)]))))))

/-- `configure_transmit_mode` (R153, R155). -/
def seqConfigureTransmitMode (p : Params) : List Micro :=
  .ce .low .activeToStandby ::
    (writeTxn regCONFIG configTxVal .wakeToStandby
      ++ (writeTxn regEN_AA p.enAaVal .keep
      ++ (writeTxn regEN_RXADDR p.enRxaddrVal .keep
      ++ (writeTxn regSETUP_RETR p.setupRetrVal .keep
      ++ (writeTxn regRF_SETUP p.rfSetupVal .keep
      ++ writeTxn regRF_CH p.rfChVal (.become .transmitMode))))))

/-- `transmit_one` (R154). -/
def seqTransmitOne (bytes : List Byte) : List Micro :=
  txn (encodeCmd .wTxPayload) bytes 0 .keep ++ [.ce .high .keep, .dwell, .ce .low .keep]

/-- The micro-sequence of an operation. A wire row is no operation of the block and has none. -/
def microSeq (p : Params) (i : Instr) : List Micro :=
  match i with
  | .init => seqInit
  | .configureReceiveMode => seqConfigureReceiveMode p
  | .configureTransmitMode => seqConfigureTransmitMode p
  | .readRxPayload len => seqReadRxPayload len
  | .writeTxPayload bytes => seqWriteTxPayload bytes
  | .transmitOne bytes => seqTransmitOne bytes
  | .writeRegister addr value => seqWriteRegister addr value
  | .readRegister addr => seqReadRegister addr
  | .flushRx => seqFlushRx
  | .flushTx => seqFlushTx
  | .writeRegisterVerified addr value => seqWriteRegisterVerified addr value
  | .cmdRRegister _ => []
  | .cmdWRegister _ _ => []
  | .cmdRRxPayload _ => []
  | .cmdWTxPayload _ => []
  | .cmdFlushTx => []
  | .cmdFlushRx => []
  | .cmdReuseTxPl => []
  | .cmdNop => []

/-- One host operation, whole: it waits while another is in progress, is refused by a check at acceptance, or is accepted
and executed to its end (spec/60_exceptions.md R175, R176, spec/00_scope.md R16). The machine's step takes the same
operation one micro-op at a time (notes log entry 1). -/
def State.operate (i : Instr) (s : State) : Host.Outcome State Fault Refusal :=
  if s.busy then .next (s.wait i)
  else
    match acceptCheck i s.mode with
    | some st => .next (s.refuseWith st)
    | none => .next (State.runMicros (microSeq s.params i) (s.accept i))

/-- Whether an instruction is an operation that is accepted and then runs micro-op by micro-op: a host operation that
passes its checks. -/
def State.starts (i : Instr) (s : State) : Bool := i.isHost && (acceptCheck i s.mode).isNone

/-- The micro-op at `upc` of the operation in progress, and the end of the operation after its last one
(spec/10_state.md R27, D24). -/
def State.microStep (s : State) : State :=
  let ops := microSeq s.params s.cur
  match ops[s.upc.toNat]? with
  | none => s.finish
  | some m =>
    match s.micro m with
    | .done t => if t.upc.toNat < ops.length then t else t.finish
    | .aborted t => t
    | .stuck => s

end Sys2Proof.Machine
end

