-- ==== Sys2Proof/Machine/ModeConfiguration.lean ====
section
/-! DEFINITION. The meanings of the mode configuration family (spec/42_mode_configuration.md). -/

namespace Sys2Proof.Machine

/-- `init` (R150). -/
def execInit (s : State) : Host.Outcome State Fault Refusal := s.operate .init

/-- `configure_receive_mode` (R152). -/
def execConfigureReceiveMode (s : State) : Host.Outcome State Fault Refusal := s.operate .configureReceiveMode

/-- `configure_transmit_mode` (R153). -/
def execConfigureTransmitMode (s : State) : Host.Outcome State Fault Refusal := s.operate .configureTransmitMode

/-- `transmit_one` (R154). -/
def execTransmitOne (bytes : List Byte) (s : State) : Host.Outcome State Fault Refusal :=
  s.operate (.transmitOne bytes)

end Sys2Proof.Machine
end

