-- ==== Sys2Proof/Machine/PayloadTransfer.lean ====
section
/-! DEFINITION. The meanings of the payload transfer family (spec/41_payload_transfer.md). -/

namespace Sys2Proof.Machine

/-- `R_RX_PAYLOAD` (R131): command byte 0x61, `n` in slots. -/
def execCmdRRxPayload (n : Nat) (s : State) : Host.Outcome State Fault Refusal :=
  s.wireRow (.cmdRRxPayload n) (encodeCmd .rRxPayload :: List.replicate n s.params.fillByte)

/-- `W_TX_PAYLOAD` (R133): command byte 0xA0, the payload's bytes. -/
def execCmdWTxPayload (bytes : List Byte) (s : State) : Host.Outcome State Fault Refusal :=
  s.wireRow (.cmdWTxPayload bytes) (encodeCmd .wTxPayload :: bytes)

/-- `FLUSH_TX` (R138): command byte 0xE1. -/
def execCmdFlushTx (s : State) : Host.Outcome State Fault Refusal :=
  s.wireRow .cmdFlushTx [encodeCmd .flushTx]

/-- `FLUSH_RX` (R137): command byte 0xE2. -/
def execCmdFlushRx (s : State) : Host.Outcome State Fault Refusal :=
  s.wireRow .cmdFlushRx [encodeCmd .flushRx]

/-- `REUSE_TX_PL` (R136): command byte 0xE3. "the reference peer does nothing on it". -/
def execCmdReuseTxPl (s : State) : Host.Outcome State Fault Refusal :=
  s.wireRow .cmdReuseTxPl [encodeCmd .reuseTxPl]

/-- `NOP` (R139): command byte 0xFF. "The reference peer does nothing on it." -/
def execCmdNop (s : State) : Host.Outcome State Fault Refusal :=
  s.wireRow .cmdNop [encodeCmd .nop]

/-- `read_rx_payload` (R130). -/
def execReadRxPayload (len : Byte) (s : State) : Host.Outcome State Fault Refusal :=
  s.operate (.readRxPayload len)

/-- `write_tx_payload` (R132). -/
def execWriteTxPayload (bytes : List Byte) (s : State) : Host.Outcome State Fault Refusal :=
  s.operate (.writeTxPayload bytes)

/-- `flush_rx` (R134). -/
def execFlushRx (s : State) : Host.Outcome State Fault Refusal := s.operate .flushRx

/-- `flush_tx` (R135). -/
def execFlushTx (s : State) : Host.Outcome State Fault Refusal := s.operate .flushTx

end Sys2Proof.Machine
end

