-- ==== Sys2Proof/Machine/RegisterAccess.lean ====
section
/-! DEFINITION. The meanings of the register access family (spec/40_register_access.md). -/

namespace Sys2Proof.Machine

/-- `R_REGISTER A` (R114): command byte `000AAAAA`, one in slot. -/
def execCmdRRegister (a : RegAddr) (s : State) : Host.Outcome State Fault Refusal :=
  s.wireRow (.cmdRRegister a) [encodeCmd (.rRegister a), s.params.fillByte]

/-- `W_REGISTER A` (R113): command byte `001AAAAA`, one data byte. -/
def execCmdWRegister (a : RegAddr) (value : Byte) (s : State) : Host.Outcome State Fault Refusal :=
  s.wireRow (.cmdWRegister a value) [encodeCmd (.wRegister a), value]

/-- `write_register` (R110). -/
def execWriteRegister (addr value : Byte) (s : State) : Host.Outcome State Fault Refusal :=
  s.operate (.writeRegister addr value)

/-- `read_register` (R111). -/
def execReadRegister (addr : Byte) (s : State) : Host.Outcome State Fault Refusal :=
  s.operate (.readRegister addr)

/-- `write_register_verified` (R112). -/
def execWriteRegisterVerified (addr value : Byte) (s : State) : Host.Outcome State Fault Refusal :=
  s.operate (.writeRegisterVerified addr value)

end Sys2Proof.Machine
end

