-- ==== Sys2Proof/Machine/Dispatch.lean ====
section
/-! DEFINITION. One arm per instruction. -/

namespace Sys2Proof.Machine

def exec (i : Instr) (s : State) : Host.Outcome State Fault Refusal :=
  match i with
  -- wire commands (spec/30_encoding.md R84)
  | .cmdRRegister a => Sys2Proof.Machine.execCmdRRegister a s
  | .cmdWRegister a value => Sys2Proof.Machine.execCmdWRegister a value s
  | .cmdRRxPayload n => Sys2Proof.Machine.execCmdRRxPayload n s
  | .cmdWTxPayload bytes => Sys2Proof.Machine.execCmdWTxPayload bytes s
  | .cmdFlushTx => Sys2Proof.Machine.execCmdFlushTx s
  | .cmdFlushRx => Sys2Proof.Machine.execCmdFlushRx s
  | .cmdReuseTxPl => Sys2Proof.Machine.execCmdReuseTxPl s
  | .cmdNop => Sys2Proof.Machine.execCmdNop s
  -- host operations (spec/30_encoding.md R95)
  | .init => Sys2Proof.Machine.execInit s
  | .configureReceiveMode => Sys2Proof.Machine.execConfigureReceiveMode s
  | .configureTransmitMode => Sys2Proof.Machine.execConfigureTransmitMode s
  | .readRxPayload len => Sys2Proof.Machine.execReadRxPayload len s
  | .writeTxPayload bytes => Sys2Proof.Machine.execWriteTxPayload bytes s
  | .transmitOne bytes => Sys2Proof.Machine.execTransmitOne bytes s
  | .writeRegister addr value => Sys2Proof.Machine.execWriteRegister addr value s
  | .readRegister addr => Sys2Proof.Machine.execReadRegister addr s
  | .flushRx => Sys2Proof.Machine.execFlushRx s
  | .flushTx => Sys2Proof.Machine.execFlushTx s
  | .writeRegisterVerified addr value => Sys2Proof.Machine.execWriteRegisterVerified addr value s

end Sys2Proof.Machine
end

