-- ==== Sys2Proof/Machine/Step.lean ====
section
/-! DEFINITION. The step. -/

namespace Sys2Proof.Machine

/-- One step. While an operation is in progress, its next micro-op (spec/10_state.md R27, D24: one micro-op per step). At
rest, the next offer is taken (R26): an operation that passes its checks is accepted, and every other instruction has its
whole effect at once. With nothing offered, the block waits (spec/60_exceptions.md R188). The steps of an accepted operation
lead to the state `exec` gives it (notes log entry 1). -/
def step (s : State) : Host.Outcome State Fault Refusal :=
  match s.fetch with
  | .inProgress => .next s.microStep
  | .idle => .next s
  | .taken i t => if t.starts i then .next (t.accept i) else exec i t
  | .rejected r t => t.rejectOffer r

/-- Puts the instruction of a word of spec/opcode_table.json where the step takes its next one: a host operation at the
head of the host port with the bench empty, a transaction at the head of the bench (notes log entry 3). -/
def State.withFetchWord (s : State) (nbits w : Nat) : State :=
  match tableOffer nbits w with
  | .host r => { s with offers := r :: s.offers, bench := [] }
  | .wire frame => { s with bench := frame :: s.bench }

end Sys2Proof.Machine
end

