-- ==== Sys2Proof/Safety.lean ====
section
/-! DEFINITION. What claims about the machine are stated in: the rest state, the line discipline of a trace, the position
of an operation in progress, what the reference peer makes of a list of events, and premises on the bus side. -/

namespace Sys2Proof.Machine

/-- `CE = 1` if and only if `mode = ReceiveMode` (spec/10_state.md R32). -/
def ceDerived (ce : Level) (m : Mode) : Prop := ce = .high ↔ m = .receiveMode

/-- A rest state (spec/00_scope.md R16, spec/10_state.md R26 to R28, R32, R33). -/
def State.atRest (s : State) : Prop :=
  s.busy = false ∧ s.csn = .high ∧ s.upc = 0 ∧ s.rxbuf = [] ∧ ceDerived s.ce s.mode

/-- The end of a finite run (R16): the rest state after the last operation the host offered has delivered its status. So
nothing is still offered and the response is valid; a state at rest with offers waiting, and a stuck state, are no end. -/
def State.runEnd (s : State) : Prop := s.atRest ∧ s.offers = [] ∧ s.resp.isSome = true

/-- The end of a clean run (R16): no bus fault recorded either. -/
def State.cleanEnd (s : State) : Prop := s.runEnd ∧ s.busFault = false

/-- The block is stuck (spec/70_reset_and_hazards.md R214): its next micro-op is a transfer that never returns. -/
def State.hung (s : State) : Prop :=
  s.busy = true ∧ (∃ b, (microSeq s.params s.cur)[s.upc.toNat]? = some (.out b) ∨
    (microSeq s.params s.cur)[s.upc.toNat]? = some .recv) ∧ s.answers.head? = some .never

/-- The line discipline of a trace, from a CSN level: every `Csn` event is a transition (spec/10_state.md R33), a
transfer happens with CSN low (spec/70_reset_and_hazards.md R215), a CE drive and a dwell with CSN high
(spec/30_encoding.md R83). The result is the level after the trace, none where the discipline is broken. -/
def frameWalk : Level → List Event → Option Level
  | l, [] => some l
  | .high, .csn .low :: es => frameWalk .low es
  | .low, .csn .high :: es => frameWalk .high es
  | .low, .xfer _ _ :: es => frameWalk .low es
  | .low, .xferFail _ :: es => frameWalk .low es
  | .high, .ce _ :: es => frameWalk .high es
  | .high, .dwell _ :: es => frameWalk .high es
  | _, _ :: _ => none

/-- The command bytes of a trace: what the first transfer after each `Csn(0)` shifts out (spec/30_encoding.md R92).
The flag says whether a `Csn(0)` still waits for its first transfer. -/
def commandBytes : Bool → List Event → List Byte
  | _, [] => []
  | _, .csn .low :: es => commandBytes true es
  | true, .xfer b _ :: es => b :: commandBytes false es
  | true, .xferFail b :: es => b :: commandBytes false es
  | w, _ :: es => commandBytes w es

/-- The command bytes the block can put on the bus (R92). -/
def blockSends (b : Byte) : Prop := b ≤ 0x3F ∨ b = 0x61 ∨ b = 0xA0 ∨ b = 0xE1 ∨ b = 0xE2

/-- The command bytes of a configuration sequence (R92). -/
def configurationSends (b : Byte) : Prop := b ∈ ([0x20, 0x21, 0x22, 0x24, 0x25, 0x26] : List Byte)

/-- The lines and the mode: CSN, CE, `mode`. -/
structure Lines where
  csn  : Level
  ce   : Level
  mode : Mode
  deriving DecidableEq, Repr

/-- What a completed micro-op does to the lines and the mode. -/
def Micro.lines (m : Micro) (l : Lines) : Lines :=
  match m with
  | .csnLow => { l with csn := .low }
  | .csnHigh act => { l with csn := .high, mode := act.apply l.mode }
  | .ce v act => { l with ce := v, mode := act.apply l.mode }
  | .out _ => l
  | .recv => l
  | .dwell => l

/-- What a list of completed micro-ops does to the lines and the mode. -/
def linesAfter : List Micro → Lines → Lines
  | [], l => l
  | m :: ms, l => linesAfter ms (m.lines l)

/-- An operation in progress: it was accepted at rest in some mode, `upc` lies inside its micro-sequence, and CSN, CE and
`mode` are what the micro-ops before `upc` made of that rest state. -/
def State.inOperation (s : State) : Prop :=
  s.busy = true ∧ s.cur.isHost = true ∧ s.upc.toNat < (microSeq s.params s.cur).length ∧
  ∃ ce0 m0, ceDerived ce0 m0 ∧ acceptCheck s.cur m0 = none ∧
    linesAfter ((microSeq s.params s.cur).take s.upc.toNat) { csn := .high, ce := ce0, mode := m0 } =
      { csn := s.csn, ce := s.ce, mode := s.mode }

/-- The invariant of the lines: the block is at rest or inside an operation, and its whole trace keeps the line
discipline and ends with CSN as it is. -/
def State.lineInv (s : State) : Prop :=
  (s.atRest ∨ s.inOperation) ∧ frameWalk .high s.trace = some s.csn

/-- What the reference peer keeps by itself, whatever is shifted into it: the register space is in its canonical form
(notes log entry 17), no FIFO holds more than `FIFO_DEPTH` entries, and an RX entry has 1 to 32 bytes (spec/20_memory.md
R56). -/
def Peer.wf (p : Params) (r : Peer) : Prop :=
  Memory.wf p r.regs = true ∧ r.rxFifo.length ≤ p.fifoDepth ∧ r.txFifo.length ≤ p.fifoDepth ∧
  ∀ e ∈ r.rxFifo, 1 ≤ e.length ∧ e.length ≤ 32

/-- The reference peer's transaction in progress is within the formats: at most 33 bytes seen, and a TX entry no longer
than the data bytes seen. -/
def Frame.wf (f : Frame) : Prop := f.pos ≤ 33 ∧ f.build.length ≤ f.pos - 1

/-- Whether micro-ops, run in order, transfer only inside a frame and no more than it has room for, and leave no frame
open. The room is that of the frame in progress, none where none is. A frame has room for 33 bytes (spec/30_encoding.md
R87). -/
def fitsFrames : Option Nat → List Micro → Bool
  | none, [] => true
  | some _, [] => false
  | _, .csnLow :: ms => fitsFrames (some 33) ms
  | _, .csnHigh _ :: ms => fitsFrames none ms
  | room, .ce _ _ :: ms => fitsFrames room ms
  | room, .dwell :: ms => fitsFrames room ms
  | some (n + 1), .out _ :: ms => fitsFrames (some n) ms
  | some (n + 1), .recv :: ms => fitsFrames (some n) ms
  | _, .out _ :: _ => false
  | _, .recv :: _ => false

/-- The micro-ops that are left of the operation in progress. -/
def State.microsLeft (s : State) : List Micro := if s.busy then (microSeq s.params s.cur).drop s.upc.toNat else []

/-- The invariant of the reference peer behind the block (R56): what it keeps by itself, and every TX entry has 0 to 32
bytes. For the last, the operation in progress is one that passes its checks in some mode, and a frame in progress is within
the formats, is open on the CSN line too and has room for what that operation has yet to transfer in it. -/
def State.peerInv (s : State) : Prop :=
  Peer.wf s.params s.peer ∧ (∀ e ∈ s.peer.txFifo, e.length ≤ 32) ∧ (∀ f, s.peer.frame = some f → f.wf ∧ s.csn = .low) ∧
  (s.busy = true → ∃ m, acceptCheck s.cur m = none) ∧
  fitsFrames (s.peer.frame.map fun f => 33 - f.pos) s.microsLeft = true

/-- The reference peer's reaction to one event (spec/20_memory.md R57), with the CE level before it. -/
def Peer.react (p : Params) (ce : Level) (e : Event) (r : Peer) : Peer :=
  match e with
  | .csn .low => r.onCsnLow
  | .csn .high => r.onCsnHigh p
  | .ce l => if ce = .low ∧ l = .high then r.onCeRise p else r
  | .xfer b _ => r.onXfer p b
  | .xferFail _ => r
  | .dwell _ => r

/-- A transfer, completed or failed. -/
def Event.isTransfer : Event → Bool
  | .xfer _ _ => true
  | .xferFail _ => true
  | .csn _ => false
  | .ce _ => false
  | .dwell _ => false

/-- The CE level after an event. -/
def Event.ceAfter (e : Event) (ce : Level) : Level :=
  match e with
  | .ce l => l
  | _ => ce

/-- The reference peer's reaction to a list of events in order (R57), with the CE level before them. -/
def Peer.follow (p : Params) : Level → List Event → Peer → Peer
  | _, [], r => r
  | ce, e :: es, r => Peer.follow p (e.ceAfter ce) es (r.react p ce e)

/-- The first `n` transfers to come are answered with the bytes `m 0`, `m 1`, …: a premise on the bus side
(spec/20_memory.md R68). -/
def bytesFrom (n : Nat) (m : Nat → Byte) : List Answer := (List.range n).map fun k => .byte (m k)

/-- No transfer to come fails or hangs. -/
def State.busGood (s : State) : Prop := ∀ a ∈ s.answers, a ≠ .fail ∧ a ≠ .never

/-- Every transfer to come is answered by the reference peer (R57, R68). -/
def State.busIsPeer (s : State) : Prop := ∀ a ∈ s.answers, a = .peer

/-- The events of one transaction (spec/30_encoding.md R83): the bytes out and, slot by slot, the bytes in. -/
def frameTrace (mosi miso : List Byte) : List Event :=
  .csn .low :: (List.zipWith Event.xfer mosi miso ++ [.csn .high])

/-- The events of the six register writes of a configuration sequence (spec/42_mode_configuration.md R152, R153): CONFIG
first, and RF_SETUP before RF_CH. -/
def configurationTrace (p : Params) (config : Byte) (m : Nat → Byte) : List Event :=
  frameTrace [0x20, config] [m 0, m 1] ++
  frameTrace [0x21, p.enAaVal] [m 2, m 3] ++
  frameTrace [0x22, p.enRxaddrVal] [m 4, m 5] ++
  frameTrace [0x24, p.setupRetrVal] [m 6, m 7] ++
  frameTrace [0x26, p.rfSetupVal] [m 8, m 9] ++
  frameTrace [0x25, p.rfChVal] [m 10, m 11]

/-- The bytes that a configuration sequence shifts out. -/
def configurationBytes (p : Params) (config : Byte) : List Byte :=
  [0x20, config, 0x21, p.enAaVal, 0x22, p.enRxaddrVal, 0x24, p.setupRetrVal, 0x26, p.rfSetupVal, 0x25, p.rfChVal]

/-- Whether a micro-op is a transfer. -/
def Micro.isTransfer : Micro → Bool
  | .out _ => true
  | .recv => true
  | .csnLow => false
  | .csnHigh _ => false
  | .ce _ _ => false
  | .dwell => false

/-- The bytes that micro-ops shift out, one for each transfer in order (spec/00_scope.md R11). -/
def transferBytes (fill : Byte) : List Micro → List Byte
  | [] => []
  | .out b :: ms => b :: transferBytes fill ms
  | .recv :: ms => fill :: transferBytes fill ms
  | .csnLow :: ms => transferBytes fill ms
  | .csnHigh _ :: ms => transferBytes fill ms
  | .ce _ _ :: ms => transferBytes fill ms
  | .dwell :: ms => transferBytes fill ms

/-- The micro-ops before the transfer that `k` transfers precede. -/
def beforeTransfer : Nat → List Micro → List Micro
  | _, [] => []
  | 0, m :: ms => if m.isTransfer then [] else m :: beforeTransfer 0 ms
  | k + 1, m :: ms => m :: beforeTransfer (if m.isTransfer then k else k + 1) ms

/-- The events of completed micro-ops (spec/00_scope.md R11), one each: the transfers shift in the bytes `m 0`, `m 1`, …, and
a dwell lasts `ns`. -/
def eventsOf (fill : Byte) (ns : Nat) : (Nat → Byte) → List Micro → List Event
  | _, [] => []
  | m, .out b :: ms => .xfer b (m 0) :: eventsOf fill ns (fun k => m (k + 1)) ms
  | m, .recv :: ms => .xfer fill (m 0) :: eventsOf fill ns (fun k => m (k + 1)) ms
  | m, .csnLow :: ms => .csn .low :: eventsOf fill ns m ms
  | m, .csnHigh _ :: ms => .csn .high :: eventsOf fill ns m ms
  | m, .ce l _ :: ms => .ce l :: eventsOf fill ns m ms
  | m, .dwell :: ms => .dwell ns :: eventsOf fill ns m ms

/-- How many transfers a host operation makes (spec/30_encoding.md R98). A wire row makes none: it is no operation. -/
def transferCount : Instr → Nat
  | .init => 0
  | .configureReceiveMode => 12
  | .configureTransmitMode => 12
  | .readRxPayload len => 1 + len.toNat
  | .writeTxPayload bytes => 1 + bytes.length
  | .transmitOne bytes => 1 + bytes.length
  | .writeRegister _ _ => 2
  | .readRegister _ => 2
  | .flushRx => 1
  | .flushTx => 1
  | .writeRegisterVerified _ _ => 4
  | .cmdRRegister _ => 0
  | .cmdWRegister _ _ => 0
  | .cmdRRxPayload _ => 0
  | .cmdWTxPayload _ => 0
  | .cmdFlushTx => 0
  | .cmdFlushRx => 0
  | .cmdReuseTxPl => 0
  | .cmdNop => 0

/-- Whether an instruction writes a register of the radio's; an operation refused for its address writes none (spec/20_memory.md R57, spec/30_encoding.md R98). -/
def writesRegister (a : RegAddr) : Instr → Bool
  | .cmdWRegister b _ => decide (b = a)
  | .writeRegister addr _ => addrLegal addr && decide (regOf addr = a)
  | .writeRegisterVerified addr _ => addrLegal addr && decide (regOf addr = a)
  | .configureReceiveMode => decide (a ∈ ([0x00, 0x01, 0x02, 0x04, 0x05, 0x06] : List RegAddr))
  | .configureTransmitMode => decide (a ∈ ([0x00, 0x01, 0x02, 0x04, 0x05, 0x06] : List RegAddr))
  | .cmdRRegister _ => false
  | .cmdRRxPayload _ => false
  | .cmdWTxPayload _ => false
  | .cmdFlushTx => false
  | .cmdFlushRx => false
  | .cmdReuseTxPl => false
  | .cmdNop => false
  | .init => false
  | .readRxPayload _ => false
  | .writeTxPayload _ => false
  | .transmitOne _ => false
  | .readRegister _ => false
  | .flushRx => false
  | .flushTx => false

/-- Instructions executed one after another. -/
def execAll : List Instr → State → Host.Outcome State Fault Refusal
  | [], s => .next s
  | i :: is, s =>
    match exec i s with
    | .next t => execAll is t
    | .fault r => .fault r
    | .refused r => .refused r

/-- The status of the response port, if it is valid. -/
def State.status? (s : State) : Option Status := s.resp.map fun r => r.status

end Sys2Proof.Machine
end

