-- ==== Sys2Proof/Certificates/Slice0/Obligations.lean ====
section
/-! DEFINITION. The statements for the provers. Each docstring names the rule of spec/ it formalises. A free value is
always bound by `∃`: no statement says which it is. -/

open Sys2Proof Sys2Proof.Machine

/-! ### Encoding -/

/-- Decode and encode agree on every well-formed instruction of both levels (spec/30_encoding.md R81, R85, R88, R95). -/
def Obligations.DecodeEncodeRoundTrip : Prop :=
  ∀ i : Instr, i.wellFormed = true → decode (encode i) = .ok i

/-- R89: `decode_cmd(encode_cmd(c)) = c`, and `encode_cmd(decode_cmd(b)) = b` for every byte that is not reserved. -/
def Obligations.CommandByteRoundTrip : Prop :=
  (∀ c : WireCmd, decodeCmd (encodeCmd c) = some c) ∧
  ∀ (b : Byte) (c : WireCmd), decodeCmd b = some c → encodeCmd c = b

/-- R90: the reserved command bytes. That a transaction on the bench that begins with one is refused by name is the model's
choice (notes log entry 14, DEDUCED from U2 of spec/93_implementation_defined.md), not R90's. -/
def Obligations.ReservedCommandBytesRefused : Prop :=
  (∀ b : Byte, decodeCmd b = none ↔
    (0x40 ≤ b ∧ b ≤ 0x60) ∨ (0x62 ≤ b ∧ b ≤ 0x9F) ∨ (0xA1 ≤ b ∧ b ≤ 0xE0) ∨ (0xE4 ≤ b ∧ b ≤ 0xFE)) ∧
  ∀ (s : State) (b : Byte) (slots : List Byte) (rest : List (List Byte)),
    s.busy = false → s.bench = (b :: slots) :: rest → decodeCmd b = none →
    step s = .refused (.reservedCommand b)

/-- Words written out from R84 and R95 decode to the instructions they stand for. -/
def Obligations.SpecWordsDecode : Prop :=
  decode (.wire [0b00000111, 0b11111111]) = .ok (.cmdRRegister 0b00111) ∧
  decode (.wire [0b00111111, 0b01010101]) = .ok (.cmdWRegister 0b11111 0b01010101) ∧
  decode (.wire [0b01100001, 0b11111111, 0b11111111]) = .ok (.cmdRRxPayload 2) ∧
  decode (.wire [0b10100000, 0b01001000]) = .ok (.cmdWTxPayload [0b01001000]) ∧
  decode (.wire [0b11100010]) = .ok .cmdFlushRx ∧
  decode (.host { op := 0b0110, addr := 0x05, value := 0x4C, len := 0, data := [] }) = .ok (.writeRegister 0x05 0x4C) ∧
  decode (.host { op := 0b0011, addr := 0, value := 0, len := 32, data := [] }) = .ok (.readRxPayload 32) ∧
  decode (.host { op := 0b0001, addr := 0, value := 0, len := 0, data := [] }) = .ok .configureReceiveMode

/-- R87: a transaction that decodes has 1 to 33 bytes, its first byte is its command's, and it is as long as the
transaction its instruction encodes to. -/
def Obligations.DecodedTransactionLength : Prop :=
  ∀ (frame : List Byte) (i : Instr), decode (.wire frame) = .ok i →
    1 ≤ frame.length ∧ frame.length ≤ 33 ∧ i.isHost = false ∧
    ∃ again : List Byte, encode i = .wire again ∧ again.length = frame.length ∧ again.head? = frame.head?

/-! ### The step -/

/-- A step at rest takes the first offer's instruction (spec/10_state.md R26): an operation that passes its checks is
accepted, and its steps lead to what `exec` gives (ExecIsItsMicroSteps); one that does not, and a wire row, is `exec` of it.
A step waits where nothing is offered (spec/60_exceptions.md R188), and, inside an operation, does one micro-op (R27, D24).
That acceptance is a step of its own is the model's choice (notes log entry 1), and so is that a wire row can be run on its
own (notes log entry 2). -/
def Obligations.StepRunsDecodedInstruction : Prop :=
  (∀ (s : State) (r : Request) (rest : List Request) (i : Instr),
    s.busy = false → s.bench = [] → s.offers = r :: rest → decode (.host r) = .ok i →
    (acceptCheck i s.mode = none → step s = .next (({ s with offers := rest } : State).accept i)) ∧
    (acceptCheck i s.mode ≠ none → step s = exec i { s with offers := rest })) ∧
  (∀ (s : State) (frame : List Byte) (rest : List (List Byte)) (i : Instr),
    s.busy = false → s.bench = frame :: rest → decode (.wire frame) = .ok i → step s = exec i { s with bench := rest }) ∧
  (∀ s : State, s.busy = false → s.bench = [] → s.offers = [] → step s = .next s) ∧
  ∀ s : State, s.busy = true → step s = .next s.microStep

/-- R96: an operation code 11 to 15 ends at once with `InvalidArgument`, no event and no state change. -/
def Obligations.IllegalOperationCodeIsInvalidArgument : Prop :=
  ∀ (s : State) (r : Request) (rest : List Request),
    s.busy = false → s.bench = [] → s.offers = r :: rest → 11 ≤ r.op.toNat →
    ∃ b d, step s = .next { s with
      offers := rest
      upc := 0
      resp := some { status := .invalidArgument, rbyte := b, rdata := [] }
      draws := d }

/-- R26: a step inside an operation takes no offer, so what is offered waits. That `exec` of an instruction, called on a busy
block, puts it back in front of what waits and changes nothing else is the model's choice (notes log entry 13, for wire rows
entry 2 too); the step never makes that call. -/
def Obligations.BusyBlockAcceptsNothing : Prop :=
  (∀ (i : Instr) (s : State) (r : Request), s.busy = true → encode i = .host r →
    exec i s = .next { s with offers := r :: s.offers }) ∧
  (∀ (i : Instr) (s : State) (frame : List Byte), s.busy = true → encode i = .wire frame →
    exec i s = .next { s with bench := frame :: s.bench }) ∧
  ∀ s t : State, s.busy = true → step s = .next t → t.offers = s.offers ∧ t.bench = s.bench

/-- The micro-sequence lengths of R110, R111, R112, R130, R132, R134, R135, R150, R152, R153 and R154, and that none
that passes its checks is longer than 38 (spec/10_state.md R27). -/
def Obligations.MicroSequenceLengths : Prop :=
  (∀ p : Params,
    (microSeq p .init).length = 1 ∧
    (microSeq p .configureReceiveMode).length = 26 ∧
    (microSeq p .configureTransmitMode).length = 25 ∧
    (microSeq p .flushRx).length = 3 ∧
    (microSeq p .flushTx).length = 3 ∧
    (∀ len, (microSeq p (.readRxPayload len)).length = 3 + len.toNat) ∧
    (∀ bytes, (microSeq p (.writeTxPayload bytes)).length = 3 + bytes.length) ∧
    (∀ bytes, (microSeq p (.transmitOne bytes)).length = 6 + bytes.length) ∧
    (∀ addr value, (microSeq p (.writeRegister addr value)).length = 4) ∧
    (∀ addr, (microSeq p (.readRegister addr)).length = 4) ∧
    ∀ addr value, (microSeq p (.writeRegisterVerified addr value)).length = 8) ∧
  ∀ (p : Params) (i : Instr) (m : Mode), acceptCheck i m = none → (microSeq p i).length ≤ 38

/-- The steps of a host operation lead to what `exec` of it gives (that `exec` is the whole operation is the model's choice,
notes log entry 1): from a state that offers it, one step that takes the offer and at most 38 of one micro-op each
(spec/10_state.md R27, D24) reach that state, which is the operation's end or a hang in a transfer that never returns. -/
def Obligations.ExecIsItsMicroSteps : Prop :=
  ∀ (i : Instr) (s : State) (r : Request) (rest : List Request),
    s.busy = false → s.bench = [] → s.offers = r :: rest → decode (.host r) = .ok i →
    ∃ n t, n ≤ 38 ∧ exec i { s with offers := rest } = .next t ∧ Sys2Proof.core.run (n + 1) s = .next t ∧
      (t.busy = false ∨ t.hung)

/-- R27: `upc` is 0 after an acceptance, which latches the operation, and from there goes up by one with each completed
micro-op until the end of the operation clears it with `busy`; only in a hang does a step leave it where it is. That
acceptance is a step of its own, which runs no micro-op, and that the end belongs to the step of the last micro-op, are the
model's choices (notes log entry 1), not R27's. -/
def Obligations.UpcOnlyAdvances : Prop :=
  (∀ (i : Instr) (s : State) (r : Request) (rest : List Request),
    s.busy = false → s.bench = [] → s.offers = r :: rest → decode (.host r) = .ok i → acceptCheck i s.mode = none →
    ∃ t, step s = .next t ∧ t.busy = true ∧ t.cur = i ∧ t.upc = 0 ∧ t.rxbuf = [] ∧ t.offers = rest ∧ t.trace = s.trace) ∧
  ∀ s : State, s.inOperation → ∃ t, step s = .next t ∧
    ((t.busy = true ∧ t.cur = s.cur ∧ t.upc.toNat = s.upc.toNat + 1 ∧ t.upc.toNat < (microSeq s.params s.cur).length) ∨
     (t.busy = false ∧ t.upc = 0 ∧ t.rxbuf = [] ∧ t.resp.isSome = true) ∨
     (t = s ∧ s.hung))

/-! ### Reset -/

/-- R39: the reset values the spec gives, among them the peer's CONFIG at 0 and every other register at `PEER_RESET`. -/
def Obligations.ResetState : Prop :=
  State.reset.atRest ∧ State.reset.mode = .powerDown ∧ State.reset.ce = .low ∧ State.reset.busFault = false ∧
  State.reset.trace = [] ∧ State.reset.peer.rxFifo = [] ∧ State.reset.peer.txFifo = [] ∧ State.reset.peer.air = [] ∧
  State.reset.peer.frame = none ∧ Memory.read State.reset.params State.reset.peer.regs 0x00 = 0x00 ∧
  ∀ a : RegAddr, a ≠ 0 → Memory.read State.reset.params State.reset.peer.regs a = Config.peerReset a.toNat

/-- The invariant of the lines and the invariant of the reference peer behind the block hold at reset. -/
def Obligations.ResetMeetsInvariants : Prop :=
  State.reset.lineInv ∧ State.reset.peerInv

/-- R200 and R201: a reset of the block, in any state, leaves the block as R39 has it and the radio as it was. So after a
reset of the block alone `mode` is `PowerDown` whatever CONFIG holds, until the next configuration sequence makes `mode` and
CONFIG agree again. That the reset is defined in any state, one with an operation in progress among them, which R200 and U14
of spec/93_implementation_defined.md leave out, and that it keeps the host's offers, is the model's choice (notes log
entry 23). -/
def Obligations.ResetOfBlockAlone : Prop :=
  (∀ s : State, s.resetBlock.lineInv ∧ s.resetBlock.mode = .powerDown ∧ s.resetBlock.ce = .low ∧
    s.resetBlock.busFault = false ∧ s.resetBlock.trace = [] ∧ s.resetBlock.peer = s.peer ∧
    s.resetBlock.params = s.params ∧ s.resetBlock.offers = s.offers) ∧
  ∀ (i : Instr) (config : Byte) (m : Mode) (s : State),
    (i = .configureReceiveMode ∧ config = 0x0B ∧ m = .receiveMode) ∨
      (i = .configureTransmitMode ∧ config = 0x0A ∧ m = .transmitMode) →
    s.busGood →
    ∃ t, exec i s.resetBlock = .next t ∧ t.mode = m ∧ Memory.read t.params t.peer.regs 0x00 = config

/-- R16: a run from a reset of the block, over a bus that neither fails nor hangs, with the operations the host has to offer
(each with `len = len(data)`, spec/10_state.md R21), ends: after at most 39 steps for each. Whatever the bus does, a state of
a run in which nothing is in progress and nothing is offered any more is an end, and one with an operation in progress, stuck
or not, is none. The count, 38 micro-ops (R27, D24) and one step of acceptance, rests on the model's choice that acceptance is
a step of its own (notes log entry 1), and the start at `resetBlock`, with what the host offers kept over the reset, is the
model's choice too (notes log entry 23). -/
def Obligations.FiniteRunsEnd : Prop :=
  (∀ s : State, s.bench = [] → s.offers ≠ [] → s.busGood →
    (∀ r ∈ s.offers, ∀ len given, decode (.host r) ≠ .error (.lengthMismatch len given)) →
    ∃ n t, n ≤ 39 * s.offers.length ∧ Sys2Proof.core.run n s.resetBlock = .next t ∧ t.cleanEnd) ∧
  ∀ (s t : State) (n : Nat), s.bench = [] → s.offers ≠ [] → Sys2Proof.core.run n s.resetBlock = .next t →
    (t.runEnd ↔ t.busy = false ∧ t.offers = [])

/-! ### Invariants and rules of the whole machine -/

/-- Every step keeps the invariant of the lines (spec/10_state.md R32, R33, spec/70_reset_and_hazards.md R215):
`CE = 1` exactly in `ReceiveMode` and `CSN = 1` at rest, and in the whole trace falls and rises of CSN alternate, every
transfer between a fall and a rise, no CE drive and no dwell there. -/
def Obligations.StepKeepsLineInvariant : Prop :=
  ∀ s t : State, s.lineInv → step s = .next t → t.lineInv

/-- R32: the reset state is at rest, so `CE = 1` exactly in `ReceiveMode` there, and from rest every instruction ends at
rest, however it ends, or hangs in a transfer that never returns. -/
def Obligations.InstructionsEndAtRestOrHang : Prop :=
  State.reset.atRest ∧ ∀ (i : Instr) (s t : State), s.atRest → exec i s = .next t → t.atRest ∨ t.hung

/-- Every step keeps the invariant of the reference peer behind the block (spec/20_memory.md R56): no FIFO above its depth,
RX entries of 1 to 32 bytes, TX entries of 0 to 32, which needs the frame in progress to have room for what the operation in
progress still transfers. What the peer keeps by itself, every step keeps in any state. That the register space has a
canonical form is the model's choice (notes log entry 17). -/
def Obligations.StepKeepsPeerInvariant : Prop :=
  (∀ s t : State, s.peerInv → step s = .next t → t.peerInv) ∧
  ∀ s t : State, Peer.wf s.params s.peer → step s = .next t → Peer.wf t.params t.peer

/-- What no step does, in any state: change a parameter (spec/00_scope.md R17, spec/10_state.md R40), clear `bus_fault`
(R29), take an event out of the trace (R13), or enter `PowerDown` (spec/42_mode_configuration.md R151). That no step changes
the level of the interrupt line either is the model's choice (notes log entry 9). -/
def Obligations.StepNeverUndoes : Prop :=
  ∀ s t : State, step s = .next t →
    t.params = s.params ∧ t.irq = s.irq ∧ (s.busFault = true → t.busFault = true) ∧
    (∃ es, t.trace = s.trace ++ es) ∧ (t.mode = .powerDown → s.mode = .powerDown)

/-- Every instruction answers a next state in every state: none stops (spec/00_scope.md R14; the wire rows are the
model's reading, notes log entry 2). From rest it either delivers a response, or hangs, or is a wire row. -/
def Obligations.EveryInstructionAnswersNext : Prop :=
  ∀ (i : Instr) (s : State), ∃ t, exec i s = .next t ∧
    (s.atRest → i.isHost = true → (t.busy = false ∧ t.resp.isSome = true) ∨ (t.hung ∧ t.resp = none))

/-- R180: the level of the interrupt line affects nothing. -/
def Obligations.InterruptLineHasNoEffect : Prop :=
  ∀ (s t : State) (l : Level), step s = .next t → step { s with irq := l } = .next { t with irq := l }

/-- R57: the reference peer is exactly what it makes of the events a step appends to the trace, in order, unless the step
takes a transaction from the bench (notes log entry 2). No step puts one there, so in a run of the block, whose bench is empty
at reset, nothing moves the radio but the block (spec/00_scope.md R17). -/
def Obligations.PeerFollowsTrace : Prop :=
  ∀ s t : State, step s = .next t →
    (s.busy = true ∨ s.bench = [] →
      ∃ es, t.trace = s.trace ++ es ∧ t.peer = Peer.follow s.params s.ce es s.peer ∧
        t.ce = es.foldl (fun l e => e.ceAfter l) s.ce) ∧
    (t.bench = s.bench ∨ (s.busy = false ∧ t.bench = s.bench.tail))

/-- R92: the command bytes an instruction can put on the bus are the closed set, and those of a configuration sequence
are the six register writes. -/
def Obligations.CommandBytesOfBlockAreClosed : Prop :=
  ∀ (i : Instr) (s t : State), s.busy = false → exec i s = .next t →
    ∃ es, t.trace = s.trace ++ es ∧ (∀ b ∈ commandBytes false es, blockSends b) ∧
      (i = .configureReceiveMode ∨ i = .configureTransmitMode → ∀ b ∈ commandBytes false es, configurationSends b)

/-- R160 (a): of what an operation leaves behind only `mode`, the lines and what is outside the block reach the next
one: two states at rest that agree on these (and on the count of free values drawn) give the same response, the same
events, the same lines and mode, whatever `bus_fault`, `cur` and the past trace are (R29, R178). -/
def Obligations.NothingElseReachesNextOperation : Prop :=
  ∀ (i : Instr) (s s' t : State), s.atRest → s'.atRest → i.isHost = true →
    s'.mode = s.mode → s'.answers = s.answers → s'.peer = s.peer → s'.params = s.params → s'.draws = s.draws →
    exec i s = .next t →
    ∃ t' es, exec i s' = .next t' ∧ t'.resp = t.resp ∧ t.trace = s.trace ++ es ∧ t'.trace = s'.trace ++ es ∧
      t'.mode = t.mode ∧ t'.csn = t.csn ∧ t'.ce = t.ce ∧ t'.peer = t.peer

/-- R157 and R25: outside `init` and the two configuration sequences no instruction moves `mode`, and besides those only
`transmit_one` drives CE, in any state and whatever the bus does. -/
def Obligations.OnlyModeFamilyMovesModeAndCe : Prop :=
  ∀ (i : Instr) (s t : State), exec i s = .next t →
    i ≠ .init → i ≠ .configureReceiveMode → i ≠ .configureTransmitMode →
    t.mode = s.mode ∧ ((∀ bytes, i ≠ .transmitOne bytes) → t.ce = s.ce)

/-- R151: the transition table of `mode` for host operations that end `Ok`. -/
def Obligations.ModeTransitionTable : Prop :=
  ∀ (i : Instr) (s t : State), i.isHost = true → s.busy = false → exec i s = .next t → t.status? = some .ok →
    (i = .init → t.mode = match s.mode with
      | .powerDown => Mode.powerDown
      | .standby => Mode.standby
      | .receiveMode => Mode.standby
      | .transmitMode => Mode.standby) ∧
    (i = .configureReceiveMode → t.mode = .receiveMode) ∧
    (i = .configureTransmitMode → t.mode = .transmitMode) ∧
    (i ≠ .init → i ≠ .configureReceiveMode → i ≠ .configureTransmitMode → t.mode = s.mode) ∧
    (∀ bytes, i = .transmitOne bytes → s.mode = .transmitMode)

/-- "This is the only operation that produces an outbound radio event" (R154): from rest, no instruction but
`transmit_one` adds an event to the reference peer's air log. -/
def Obligations.OnlyTransmitOneReachesAir : Prop :=
  ∀ (i : Instr) (s t : State), s.atRest → exec i s = .next t → (∀ bytes, i ≠ .transmitOne bytes) →
    t.peer.air = s.peer.air

/-! ### Failures -/

/-- R171, R172, R175: what is refused at acceptance, with which status when several apply, and that nothing changes but
the response (`upc` is cleared). -/
def Obligations.RefusedAtAcceptance : Prop :=
  ∀ (i : Instr) (s : State) (st : Status), s.busy = false →
    ((∃ addr value, i = .writeRegister addr value ∧ 0x1F < addr ∧ st = .invalidArgument) ∨
     (∃ addr, i = .readRegister addr ∧ 0x1F < addr ∧ st = .invalidArgument) ∨
     (∃ addr value, i = .writeRegisterVerified addr value ∧ 0x1F < addr ∧ st = .invalidArgument) ∨
     (∃ len, i = .readRxPayload len ∧ 32 < len ∧ st = .invalidArgument) ∨
     (∃ bytes, i = .writeTxPayload bytes ∧ 32 < bytes.length ∧ st = .invalidArgument) ∨
     (∃ bytes, i = .transmitOne bytes ∧ 32 < bytes.length ∧ st = .invalidArgument) ∨
     (∃ bytes, i = .transmitOne bytes ∧ bytes.length ≤ 32 ∧ s.mode ≠ .transmitMode ∧ st = .wrongMode)) →
    ∃ b d, exec i s = .next { s with
      upc := 0
      resp := some { status := st, rbyte := b, rdata := [] }
      draws := d }

/-- R176 and R177: where the transfer after the first `k` fails, the operation ends there with `BusTransportFailure` and the
sticky bit set. The events are exactly those of the completed micro-ops before it (`k` transfers, no dwell, so `ns` plays no
part), then the failed transfer with the byte it shifted out, then `Csn(1)`, and the radio is what these make of it. CE and
`mode` are as the completed micro-ops left them: the abort drives no CE. -/
def Obligations.FailedTransferAborts : Prop :=
  ∀ (i : Instr) (s : State) (k : Nat) (m : Nat → Byte) (rest : List Answer) (done : List Micro) (es : List Event) (l : Lines)
    (ns : Nat),
    s.busy = false → acceptCheck i s.mode = none → k < transferCount i →
    s.answers = bytesFrom k m ++ .fail :: rest →
    done = beforeTransfer k (microSeq s.params i) →
    es = eventsOf s.params.fillByte ns m done →
    l = linesAfter done { csn := s.csn, ce := s.ce, mode := s.mode } →
    (es.filter Event.isTransfer).length = k ∧
    ∃ b r d, (transferBytes s.params.fillByte (microSeq s.params i))[k]? = some b ∧
      exec i s = .next { s with
        mode := l.mode
        csn := .high
        ce := l.ce
        cur := i
        upc := 0
        rxbuf := []
        busFault := true
        resp := some { status := .busTransportFailure, rbyte := r, rdata := [] }
        answers := rest
        trace := s.trace ++ (es ++ [.xferFail b, .csn .high])
        peer := Peer.follow s.params s.ce (es ++ [.xferFail b, .csn .high]) s.peer
        draws := d }

/-- R154 and V61 of spec/95_test_vectors.md: a `transmit_one` whose frame fails, at whichever of its bytes, never drives CE
and puts nothing on the air. -/
def Obligations.FailedTransmitOneStaysOffAir : Prop :=
  ∀ (s : State) (bytes : List Byte) (k : Nat) (m : Nat → Byte) (rest : List Answer),
    s.busy = false → bytes.length ≤ 32 → s.mode = .transmitMode → k < 1 + bytes.length →
    s.answers = bytesFrom k m ++ .fail :: rest →
    ∃ t b, exec (.transmitOne bytes) s = .next t ∧ (0xA0 :: bytes)[k]? = some b ∧
      t.trace = s.trace ++ (.csn .low :: List.zipWith Event.xfer ((0xA0 :: bytes).take k) ((List.range k).map m) ++
        [.xferFail b, .csn .high]) ∧
      t.ce = s.ce ∧ t.mode = .transmitMode ∧ t.status? = some .busTransportFailure ∧ t.busFault = true ∧
      t.peer.air = s.peer.air

/-- R156 and R155: a failed transfer inside a configuration sequence leaves CE low, and `mode` at `PowerDown` only if it
was there and the CONFIG write had not completed, else at `Standby`; the events before it are the sequence's own, the failed
transfer is that of the sequence's next byte, and what was written in the radio stays. -/
def Obligations.FailedConfigurationLeavesStandby : Prop :=
  ∀ (i : Instr) (config : Byte) (s : State) (k : Nat) (m : Nat → Byte) (rest : List Answer),
    (i = .configureReceiveMode ∧ config = 0x0B) ∨ (i = .configureTransmitMode ∧ config = 0x0A) →
    s.busy = false → k < 12 → s.answers = bytesFrom k m ++ .fail :: rest →
    ∃ t b, exec i s = .next t ∧ (configurationBytes s.params config)[k]? = some b ∧
      t.status? = some .busTransportFailure ∧ t.ce = .low ∧ t.csn = .high ∧
      t.busFault = true ∧ t.mode = (if s.mode = .powerDown ∧ k < 2 then .powerDown else .standby) ∧
      t.trace = s.trace ++ ((.ce .low :: configurationTrace s.params config m).take (2 + 4 * (k / 2) + k % 2) ++
        [.xferFail b, .csn .high]) ∧
      t.peer = Peer.follow s.params s.ce ((.ce .low :: configurationTrace s.params config m).take
        (2 + 4 * (k / 2) + k % 2) ++ [.xferFail b, .csn .high]) s.peer

/-- R173 and R179: where no transfer fails or hangs, an operation that passes its checks ends with `Ok` (or, for
`write_register_verified`, with `UnconfirmedRadioState`) and records no bus fault, in whatever way the bus answers. -/
def Obligations.GoodBusEndsOperations : Prop :=
  ∀ (i : Instr) (s : State), i.isHost = true → s.busy = false → acceptCheck i s.mode = none → s.busGood →
    ∃ t, exec i s = .next t ∧ t.busy = false ∧ t.busFault = s.busFault ∧ t.csn = (if i = .init then s.csn else .high) ∧
      (t.status? = some .ok ∨
        (t.status? = some .unconfirmedRadioState ∧ ∃ addr value, i = .writeRegisterVerified addr value))

/-- R214: a block whose next transfer never returns stays as it is for ever. -/
def Obligations.HungBlockStaysHung : Prop :=
  ∀ s : State, s.hung → step s = .next s

/-- R214 of `read_register`: with a second transfer that never returns the operation stops there, in progress, CSN low,
without a status (spec/95_test_vectors.md V70). -/
def Obligations.ReadRegisterCanHang : Prop :=
  ∀ (s : State) (addr m0 : Byte) (rest : List Answer), s.busy = false → addr ≤ 0x1F →
    s.answers = .byte m0 :: .never :: rest →
    ∃ t, exec (.readRegister addr) s = .next t ∧ t.hung ∧ t.csn = .low ∧ t.upc = 2 ∧ t.resp = none ∧
      t.trace = s.trace ++ [.csn .low, .xfer addr m0]

/-! ### Host operations -/

/-- R150: `init`. -/
def Obligations.InitResult : Prop :=
  ∀ s : State, s.busy = false →
    ∃ r d, exec .init s = .next { s with
      mode := if s.mode = .receiveMode ∨ s.mode = .transmitMode then .standby else s.mode
      ce := .low
      cur := .init
      upc := 0
      rxbuf := []
      resp := some { status := .ok, rbyte := r, rdata := [] }
      trace := s.trace ++ [.ce .low]
      draws := d }

/-- R152: `configure_receive_mode`, for every byte the bus returns. -/
def Obligations.ConfigureReceiveModeResult : Prop :=
  ∀ (s : State) (m : Nat → Byte) (rest : List Answer), s.busy = false → s.answers = bytesFrom 12 m ++ rest →
    ∃ r d, exec .configureReceiveMode s = .next { s with
      mode := .receiveMode
      csn := .high
      ce := .high
      cur := .configureReceiveMode
      upc := 0
      rxbuf := []
      resp := some { status := .ok, rbyte := r, rdata := [] }
      answers := rest
      trace := s.trace ++ (.ce .low :: configurationTrace s.params 0x0B m ++ [.ce .high])
      peer := Peer.follow s.params s.ce (.ce .low :: configurationTrace s.params 0x0B m ++ [.ce .high]) s.peer
      draws := d }

/-- R153: `configure_transmit_mode`, for every byte the bus returns. -/
def Obligations.ConfigureTransmitModeResult : Prop :=
  ∀ (s : State) (m : Nat → Byte) (rest : List Answer), s.busy = false → s.answers = bytesFrom 12 m ++ rest →
    ∃ r d, exec .configureTransmitMode s = .next { s with
      mode := .transmitMode
      csn := .high
      ce := .low
      cur := .configureTransmitMode
      upc := 0
      rxbuf := []
      resp := some { status := .ok, rbyte := r, rdata := [] }
      answers := rest
      trace := s.trace ++ (.ce .low :: configurationTrace s.params 0x0A m)
      peer := Peer.follow s.params s.ce (.ce .low :: configurationTrace s.params 0x0A m) s.peer
      draws := d }

/-- R159 (a), (b) and R36 against the reference peer: what a configuration sequence that ends `Ok` leaves in the radio's
registers, and that it leaves every other register and both FIFOs. -/
def Obligations.ConfiguredRegisters : Prop :=
  ∀ (i : Instr) (config : Byte) (s : State),
    (i = .configureReceiveMode ∧ config = 0x0B) ∨ (i = .configureTransmitMode ∧ config = 0x0A) →
    s.busy = false → s.busGood →
    ∃ t, exec i s = .next t ∧ t.ce = (if i = .configureReceiveMode then .high else .low) ∧
      Memory.read t.params t.peer.regs 0x00 = config ∧
      Memory.read t.params t.peer.regs 0x01 = s.params.enAaVal ∧
      Memory.read t.params t.peer.regs 0x02 = s.params.enRxaddrVal ∧
      Memory.read t.params t.peer.regs 0x04 = s.params.setupRetrVal ∧
      Memory.read t.params t.peer.regs 0x06 = s.params.rfSetupVal ∧
      Memory.read t.params t.peer.regs 0x05 = s.params.rfChVal ∧
      (∀ a : RegAddr, writesRegister a i = false →
        Memory.read t.params t.peer.regs a = Memory.read s.params s.peer.regs a) ∧
      t.peer.rxFifo = s.peer.rxFifo ∧ t.peer.txFifo = s.peer.txFifo

/-- R154 and R159 (c): `transmit_one` in `TransmitMode`: the frame, then CE high, a dwell of at least 10 microseconds,
CE low, nothing between. -/
def Obligations.TransmitOneResult : Prop :=
  ∀ (s : State) (bytes : List Byte) (m : Nat → Byte) (rest : List Answer), s.busy = false → bytes.length ≤ 32 →
    s.mode = .transmitMode → s.answers = bytesFrom (1 + bytes.length) m ++ rest →
    ∃ r d ns, 10000 ≤ ns ∧ exec (.transmitOne bytes) s = .next { s with
      csn := .high
      ce := .low
      cur := .transmitOne bytes
      upc := 0
      rxbuf := []
      resp := some { status := .ok, rbyte := r, rdata := [] }
      answers := rest
      trace := s.trace ++ (frameTrace (0xA0 :: bytes) ((List.range (1 + bytes.length)).map m) ++
        [.ce .high, .dwell ns, .ce .low])
      peer := Peer.follow s.params s.ce (frameTrace (0xA0 :: bytes) ((List.range (1 + bytes.length)).map m) ++
        [.ce .high, .dwell ns, .ce .low]) s.peer
      draws := d }

/-- R57 and R154 against the reference peer, with CE low before: `transmit_one` queues its payload if there is room, and puts
the head of the queue on the air, which stays queued, if PWR_UP (bit 1 of CONFIG) is 1 and PRIM_RX (bit 0) is 0, and nothing
otherwise. So with CONFIG as `configure_transmit_mode` leaves it and an empty queue the payload itself is sent. -/
def Obligations.TransmitOneReachesAir : Prop :=
  (∀ (s : State) (bytes : List Byte) (queue : List (List Byte)) (config : Byte),
    s.busy = false → s.ce = .low → bytes.length ≤ 32 → s.mode = .transmitMode → s.busGood →
    queue = (if s.peer.txFifo.length < s.params.fifoDepth then s.peer.txFifo ++ [bytes] else s.peer.txFifo) →
    config = Memory.read s.params s.peer.regs 0x00 →
    ∃ t, exec (.transmitOne bytes) s = .next t ∧ t.status? = some .ok ∧
      t.peer = { s.peer with
        txFifo := queue
        air := s.peer.air ++
          (if config.getLsbD 1 = true ∧ config.getLsbD 0 = false then queue.head?.toList else [])
        frame := none }) ∧
  ∀ (s : State) (bytes : List Byte), s.busy = false → s.ce = .low → bytes.length ≤ 32 → s.mode = .transmitMode →
    s.busGood → 1 ≤ s.params.fifoDepth → s.peer.txFifo = [] → Memory.read s.params s.peer.regs 0x00 = 0x0A →
    ∃ t, exec (.transmitOne bytes) s = .next t ∧ t.peer.txFifo = [bytes] ∧ t.peer.air = s.peer.air ++ [bytes]

/-- R110: `write_register` at a legal address, in any mode and at either CE level. -/
def Obligations.WriteRegisterResult : Prop :=
  ∀ (s : State) (addr value : Byte) (m : Nat → Byte) (rest : List Answer), s.busy = false → addr ≤ 0x1F →
    s.answers = bytesFrom 2 m ++ rest →
    ∃ r d, exec (.writeRegister addr value) s = .next { s with
      csn := .high
      cur := .writeRegister addr value
      upc := 0
      rxbuf := []
      resp := some { status := .ok, rbyte := r, rdata := [] }
      answers := rest
      trace := s.trace ++ frameTrace [0x20 ||| addr, value] [m 0, m 1]
      peer := Peer.follow s.params s.ce (frameTrace [0x20 ||| addr, value] [m 0, m 1]) s.peer
      draws := d }

/-- R111: `read_register` at a legal address returns the byte shifted in in the second slot. -/
def Obligations.ReadRegisterResult : Prop :=
  ∀ (s : State) (addr : Byte) (m : Nat → Byte) (rest : List Answer), s.busy = false → addr ≤ 0x1F →
    s.answers = bytesFrom 2 m ++ rest →
    exec (.readRegister addr) s = .next { s with
      csn := .high
      cur := .readRegister addr
      upc := 0
      rxbuf := []
      resp := some { status := .ok, rbyte := m 1, rdata := [] }
      answers := rest
      trace := s.trace ++ frameTrace [0x00 ||| addr, s.params.fillByte] [m 0, m 1]
      peer := Peer.follow s.params s.ce (frameTrace [0x00 ||| addr, s.params.fillByte] [m 0, m 1]) s.peer }

/-- R112 and R174: `write_register_verified` at a legal address: both transactions, then `Ok` or `UnconfirmedRadioState`
by the byte read back, which is delivered either way. -/
def Obligations.WriteRegisterVerifiedResult : Prop :=
  ∀ (s : State) (addr value : Byte) (m : Nat → Byte) (rest : List Answer), s.busy = false → addr ≤ 0x1F →
    s.answers = bytesFrom 4 m ++ rest →
    exec (.writeRegisterVerified addr value) s = .next { s with
      csn := .high
      cur := .writeRegisterVerified addr value
      upc := 0
      rxbuf := []
      resp := some {
        status := if m 3 = value then .ok else .unconfirmedRadioState
        rbyte := m 3
        rdata := [] }
      answers := rest
      trace := s.trace ++ (frameTrace [0x20 ||| addr, value] [m 0, m 1] ++
        frameTrace [0x00 ||| addr, s.params.fillByte] [m 2, m 3])
      peer := Peer.follow s.params s.ce (frameTrace [0x20 ||| addr, value] [m 0, m 1] ++
        frameTrace [0x00 ||| addr, s.params.fillByte] [m 2, m 3]) s.peer }

/-- R130: `read_rx_payload` with a legal length, 0 and 32 among them. -/
def Obligations.ReadRxPayloadResult : Prop :=
  ∀ (s : State) (len : Byte) (m : Nat → Byte) (rest : List Answer), s.busy = false → len ≤ 32 →
    s.answers = bytesFrom (1 + len.toNat) m ++ rest →
    ∃ r d, exec (.readRxPayload len) s = .next { s with
      csn := .high
      cur := .readRxPayload len
      upc := 0
      rxbuf := []
      resp := some { status := .ok, rbyte := r, rdata := (List.range len.toNat).map fun k => m (k + 1) }
      answers := rest
      trace := s.trace ++ frameTrace (0x61 :: List.replicate len.toNat s.params.fillByte)
        ((List.range (1 + len.toNat)).map m)
      peer := Peer.follow s.params s.ce (frameTrace (0x61 :: List.replicate len.toNat s.params.fillByte)
        ((List.range (1 + len.toNat)).map m)) s.peer
      draws := d }

/-- R132: `write_tx_payload` with a legal length, 0 and 32 among them. -/
def Obligations.WriteTxPayloadResult : Prop :=
  ∀ (s : State) (bytes : List Byte) (m : Nat → Byte) (rest : List Answer), s.busy = false → bytes.length ≤ 32 →
    s.answers = bytesFrom (1 + bytes.length) m ++ rest →
    ∃ r d, exec (.writeTxPayload bytes) s = .next { s with
      csn := .high
      cur := .writeTxPayload bytes
      upc := 0
      rxbuf := []
      resp := some { status := .ok, rbyte := r, rdata := [] }
      answers := rest
      trace := s.trace ++ frameTrace (0xA0 :: bytes) ((List.range (1 + bytes.length)).map m)
      peer := Peer.follow s.params s.ce (frameTrace (0xA0 :: bytes) ((List.range (1 + bytes.length)).map m)) s.peer
      draws := d }

/-- R134 and R135: the two flushes. -/
def Obligations.FlushResults : Prop :=
  ∀ (i : Instr) (cmd : Byte) (s : State) (m : Byte) (rest : List Answer),
    (i = .flushRx ∧ cmd = 0xE2) ∨ (i = .flushTx ∧ cmd = 0xE1) → s.busy = false → s.answers = .byte m :: rest →
    ∃ r d, exec i s = .next { s with
      csn := .high
      cur := i
      upc := 0
      rxbuf := []
      resp := some { status := .ok, rbyte := r, rdata := [] }
      answers := rest
      trace := s.trace ++ [.csn .low, .xfer cmd m, .csn .high]
      peer := { s.peer with
        rxFifo := if i = .flushRx then [] else s.peer.rxFifo
        txFifo := if i = .flushTx then [] else s.peer.txFifo
        frame := none }
      draws := d }

/-! ### Against the reference peer -/

/-- R115: a register written reads back, with any instructions between that do not write it, and verifies;
with a bus side that is not the reference peer the read may return anything. -/
def Obligations.RegisterRoundTrip : Prop :=
  (∀ (s t : State) (addr value : Byte) (between : List Instr), s.busy = false → s.busIsPeer → addr ≤ 0x1F →
    (∀ i ∈ between, writesRegister (regOf addr) i = false) →
    execAll (.writeRegister addr value :: (between ++ [.readRegister addr])) s = .next t →
    t.resp = some { status := .ok, rbyte := value, rdata := [] }) ∧
  (∀ (s : State) (addr value : Byte) (between : List Instr), s.busy = false → s.busIsPeer →
    ∃ t, execAll (.writeRegister addr value :: (between ++ [.readRegister addr])) s = .next t) ∧
  (∀ (s : State) (addr value : Byte), s.busy = false → s.busIsPeer → addr ≤ 0x1F →
    ∃ t, exec (.writeRegisterVerified addr value) s = .next t ∧
      t.resp = some { status := .ok, rbyte := value, rdata := [] }) ∧
  ∀ (s : State) (addr any : Byte), s.busy = false → addr ≤ 0x1F →
    ∃ answers t, exec (.readRegister addr) { s with answers := answers } = .next t ∧
      t.resp = some { status := .ok, rbyte := any, rdata := [] }

/-- R140: a payload written with room in the TX FIFO is its last entry, and a payload read is the first bytes of the RX
FIFO's top entry, removed if `RX_POP_ON_READ`. -/
def Obligations.FifoReadback : Prop :=
  (∀ (s : State) (bytes : List Byte), s.busy = false → s.busGood → bytes.length ≤ 32 →
    s.peer.txFifo.length < s.params.fifoDepth →
    ∃ t, exec (.writeTxPayload bytes) s = .next t ∧ t.peer.txFifo = s.peer.txFifo ++ [bytes] ∧
      t.peer.air = s.peer.air) ∧
  ∀ (s : State) (len : Byte) (entry : List Byte) (others : List (List Byte)), s.busy = false → s.busIsPeer → len ≤ 32 →
    s.peer.rxFifo = entry :: others → len.toNat ≤ entry.length →
    ∃ t r, exec (.readRxPayload len) s = .next t ∧
      t.resp = some { status := .ok, rbyte := r, rdata := entry.take len.toNat } ∧
      t.peer.rxFifo = (if 1 ≤ len.toNat ∧ s.params.rxPopOnRead = true then others else entry :: others)

/-! ### The reference peer -/

/-- R113, R114, R131, R133, R136, R137, R138, R139 at the reference peer, whatever bytes are seen shifted in: the effect
of a whole transaction of each command, and the byte the peer is bound to in a data slot, for `k` data slots before it. And
R57 outside a transaction: a rise of CE sends the head of the TX FIFO if PWR_UP is 1 and PRIM_RX is 0, and no other drive of
CE, no dwell and no failed transfer does anything. -/
def Obligations.PeerCommandEffects : Prop :=
  (∀ (p : Params) (ce : Level) (r : Peer) (a : RegAddr) (v m0 m1 : Byte),
    ∃ regs, Peer.follow p ce (frameTrace [0x20 ||| a.setWidth 8, v] [m0, m1]) r = { r with regs := regs, frame := none } ∧
      ∀ b : RegAddr, Memory.read p regs b = if b = a then v else Memory.read p r.regs b) ∧
  (∀ (p : Params) (ce : Level) (r : Peer) (a : RegAddr) (m0 m1 : Byte),
    Peer.follow p ce (frameTrace [0x00 ||| a.setWidth 8, p.fillByte] [m0, m1]) r = { r with frame := none } ∧
    Peer.miso p (Peer.follow p ce [.csn .low, .xfer (0x00 ||| a.setWidth 8) m0] r) = some (Memory.read p r.regs a)) ∧
  (∀ (p : Params) (ce : Level) (r : Peer) (n : Nat) (miso : List Byte), miso.length = 1 + n →
    Peer.follow p ce (frameTrace (0x61 :: List.replicate n p.fillByte) miso) r =
      { r with
        rxFifo := if 1 ≤ n ∧ p.rxPopOnRead = true then r.rxFifo.tail else r.rxFifo
        frame := none } ∧
    Peer.miso p (Peer.follow p ce
        (.csn .low :: List.zipWith Event.xfer (0x61 :: List.replicate n p.fillByte) miso) r) =
      r.rxFifo.head?.bind fun entry => entry[n]?) ∧
  (∀ (p : Params) (ce : Level) (r : Peer) (bytes miso : List Byte), miso.length = 1 + bytes.length →
    Peer.follow p ce (frameTrace (0xA0 :: bytes) miso) r =
      { r with
        txFifo := if r.txFifo.length < p.fifoDepth then r.txFifo ++ [bytes] else r.txFifo
        frame := none }) ∧
  (∀ (p : Params) (ce l : Level) (r : Peer) (b : Byte) (ns : Nat),
    Peer.follow p .low [.ce .high] r =
      { r with air := r.air ++
        (if (Memory.read p r.regs 0x00).getLsbD 1 = true ∧ (Memory.read p r.regs 0x00).getLsbD 0 = false
          then r.txFifo.head?.toList else []) } ∧
    Peer.follow p .high [.ce l] r = r ∧ Peer.follow p ce [.ce .low] r = r ∧
    Peer.follow p ce [.dwell ns] r = r ∧ Peer.follow p ce [.xferFail b] r = r) ∧
  ∀ (p : Params) (ce : Level) (r : Peer) (m : Byte),
    Peer.follow p ce (frameTrace [0xE2] [m]) r = { r with rxFifo := [], frame := none } ∧
    Peer.follow p ce (frameTrace [0xE1] [m]) r = { r with txFifo := [], frame := none } ∧
    Peer.follow p ce (frameTrace [0xE3] [m]) r = { r with frame := none } ∧
    Peer.follow p ce (frameTrace [0xFF] [m]) r = { r with frame := none }

/-! ### Wire rows. That a wire row runs on its own as one transaction at the radio's port, with nothing of the block
changed, is the model's choice (notes log entry 2); what the transaction does to the radio is the rule's. -/

/-- `W_REGISTER` run on its own (notes log entry 2) puts data byte 1 into the register (R113) and changes no other, no FIFO
and nothing of the block. -/
def Obligations.WireWRegisterResult : Prop :=
  ∀ (s : State) (a : RegAddr) (value : Byte), s.busy = false →
    ∃ m0 m1 d regs, exec (.cmdWRegister a value) s = .next { s with
      peer := { s.peer with regs := regs, frame := none }
      exchanged := [(0x20 ||| a.setWidth 8, m0), (value, m1)]
      draws := d } ∧
    ∀ b : RegAddr, Memory.read s.params regs b = if b = a then value else Memory.read s.params s.peer.regs b

/-- `R_REGISTER` run on its own (notes log entry 2) reads the register's value in data slot 1, where `FILL_BYTE` is sent
(R114), and changes no register, no FIFO and nothing of the block. -/
def Obligations.WireRRegisterResult : Prop :=
  ∀ (s : State) (a : RegAddr), s.busy = false →
    ∃ m0 d, exec (.cmdRRegister a) s = .next { s with
      peer := { s.peer with frame := none }
      exchanged := [(0x00 ||| a.setWidth 8, m0), (s.params.fillByte, Memory.read s.params s.peer.regs a)]
      draws := d }

/-- `R_RX_PAYLOAD` run on its own (notes log entry 2) reads the top entry's bytes from byte 0 on, and removes the entry at
the end if `RX_POP_ON_READ` and a data byte was read (R131). Nothing of the block changes. -/
def Obligations.WireRRxPayloadResult : Prop :=
  ∀ (s : State) (n : Nat), s.busy = false →
    ∃ io d, exec (.cmdRRxPayload n) s = .next { s with
      peer := { s.peer with
        rxFifo := if 1 ≤ n ∧ s.params.rxPopOnRead = true then s.peer.rxFifo.tail else s.peer.rxFifo
        frame := none }
      exchanged := io
      draws := d } ∧
    io.map Prod.fst = 0x61 :: List.replicate n s.params.fillByte ∧
    ∀ (k : Nat) (entry : List Byte) (b : Byte), k < n → s.peer.rxFifo.head? = some entry → entry[k]? = some b →
      io[k + 1]? = some (s.params.fillByte, b)

/-- `W_TX_PAYLOAD` run on its own (notes log entry 2) appends its data bytes as one entry at the transaction's end if there
is room (R133). Nothing of the block changes. -/
def Obligations.WireWTxPayloadResult : Prop :=
  ∀ (s : State) (bytes : List Byte), s.busy = false →
    ∃ io d, exec (.cmdWTxPayload bytes) s = .next { s with
      peer := { s.peer with
        txFifo := if s.peer.txFifo.length < s.params.fifoDepth then s.peer.txFifo ++ [bytes] else s.peer.txFifo
        frame := none }
      exchanged := io
      draws := d } ∧
    io.map Prod.fst = 0xA0 :: bytes

/-- Run on their own (notes log entry 2), `FLUSH_RX` and `FLUSH_TX` empty their FIFO (R137, R138), and the reference peer
does nothing on `REUSE_TX_PL` and `NOP` (R136, R139). Nothing else changes but the record of the byte exchanged. -/
def Obligations.WireOneByteResults : Prop :=
  ∀ (i : Instr) (cmd : Byte) (s : State), s.busy = false →
    (i = .cmdFlushRx ∧ cmd = 0xE2) ∨ (i = .cmdFlushTx ∧ cmd = 0xE1) ∨ (i = .cmdReuseTxPl ∧ cmd = 0xE3) ∨
      (i = .cmdNop ∧ cmd = 0xFF) →
    ∃ m d, exec i s = .next { s with
      peer := { s.peer with
        rxFifo := if i = .cmdFlushRx then [] else s.peer.rxFifo
        txFifo := if i = .cmdFlushTx then [] else s.peer.txFifo
        frame := none }
      exchanged := [(cmd, m)]
      draws := d }

/-- The two levels agree (R98, R110, R111; that a wire row runs on its own is notes log entry 2): `write_register` does to the
radio what the wire row `W_REGISTER` does, and `read_register` returns what the wire row `R_REGISTER` reads. -/
def Obligations.HostOperationIsItsWireRow : Prop :=
  ∀ (s : State) (addr value : Byte), s.busy = false → s.busIsPeer → addr ≤ 0x1F →
    (∃ t u, exec (.writeRegister addr value) s = .next t ∧ exec (.cmdWRegister (regOf addr) value) s = .next u ∧
      t.peer = u.peer) ∧
    ∃ t u m0 v, exec (.readRegister addr) s = .next t ∧ exec (.cmdRRegister (regOf addr)) s = .next u ∧
      t.peer = u.peer ∧ u.exchanged = [(addr, m0), (s.params.fillByte, v)] ∧
      t.resp = some { status := .ok, rbyte := v, rdata := [] }
end

