-- ==== Sys2Proof/Laws/Memory.lean ====
section
/-! SUPPORT. The register space: a read after a write, and that a write keeps the canonical form. -/

namespace Sys2Proof.Machine

theorem Memory.lookup_erase (m : Memory) (a b : Nat) :
    Memory.lookup (Memory.erase a m) b = if b = a then none else Memory.lookup m b := by
  induction m with
  | nil => simp [Memory.erase, Memory.lookup]
  | cons c m ih =>
    obtain ⟨k, v⟩ := c
    by_cases hk : k = a
    · simp only [Memory.erase, hk, if_true, ih, Memory.lookup]
      by_cases hb : b = a
      · simp [hb]
      · have : a ≠ b := fun h => hb h.symm
        simp [hb, this]
    · simp only [Memory.erase, hk, if_false, Memory.lookup, ih]
      by_cases hb : k = b
      · simp [hb, show b ≠ a from hb ▸ hk]
      · simp [hb]

theorem Memory.lookup_insert (m : Memory) (a b : Nat) (v : Byte) :
    Memory.lookup (Memory.insert a v m) b = if b = a then some v else Memory.lookup m b := by
  induction m with
  | nil => simp [Memory.insert, Memory.lookup, eq_comm]
  | cons c m ih =>
    obtain ⟨k, w⟩ := c
    simp only [Memory.insert]
    split
    · simp [Memory.lookup, eq_comm]
    · split
      · rename_i h; subst h
        by_cases hb : b = a
        · simp [Memory.lookup, hb]
        · have : a ≠ b := fun h => hb h.symm
          simp [Memory.lookup, hb, this]
      · rename_i h1 h2
        simp only [Memory.lookup, ih]
        by_cases hb : k = b
        · subst hb; simp [Ne.symm h2]
        · simp [hb]

/-- A register reads as the value last written to it, and every other one as before (R51, R56). -/
theorem Memory.read_write (p : Params) (m : Memory) (a b : RegAddr) (v : Byte) :
    Memory.read p (Memory.write p m a v) b = if b = a then v else Memory.read p m b := by
  have hab : (b.toNat = a.toNat) = (b = a) := by simp [BitVec.toNat_inj]
  by_cases hv : v = Memory.unlisted p a
  · simp only [Memory.read, Memory.write, if_pos hv, Memory.lookup_erase, hab]
    by_cases h : b = a <;> simp [h, hv]
  · simp only [Memory.read, Memory.write, if_neg hv, Memory.lookup_insert, hab]
    by_cases h : b = a <;> simp [h]

@[simp] theorem Memory.read_nil (p : Params) (a : RegAddr) : Memory.read p [] a = Memory.unlisted p a := rfl

theorem Memory.risingFrom_mono {m : Memory} {lo hi : Nat} (h : lo ≤ hi) (hr : Memory.risingFrom hi m = true) :
    Memory.risingFrom lo m = true := by
  cases m with
  | nil => rfl
  | cons c m =>
    obtain ⟨k, v⟩ := c
    simp only [Memory.risingFrom, Bool.and_eq_true, decide_eq_true_eq] at hr ⊢
    exact ⟨by omega, hr.2⟩

theorem Memory.risingFrom_erase {m : Memory} {lo : Nat} (a : Nat) (h : Memory.risingFrom lo m = true) :
    Memory.risingFrom lo (Memory.erase a m) = true := by
  induction m generalizing lo with
  | nil => rfl
  | cons c m ih =>
    obtain ⟨k, v⟩ := c
    simp only [Memory.risingFrom, Bool.and_eq_true, decide_eq_true_eq] at h
    simp only [Memory.erase]
    split
    · exact Memory.risingFrom_mono (by omega) (ih h.2)
    · simp only [Memory.risingFrom, Bool.and_eq_true, decide_eq_true_eq]
      exact ⟨h.1, ih h.2⟩

theorem Memory.risingFrom_insert {m : Memory} {lo a : Nat} (v : Byte) (hlo : lo ≤ a)
    (h : Memory.risingFrom lo m = true) : Memory.risingFrom lo (Memory.insert a v m) = true := by
  induction m generalizing lo with
  | nil => simp [Memory.insert, Memory.risingFrom, hlo]
  | cons c m ih =>
    obtain ⟨k, w⟩ := c
    simp only [Memory.risingFrom, Bool.and_eq_true, decide_eq_true_eq] at h
    simp only [Memory.insert]
    split
    · rename_i hk
      simp only [Memory.risingFrom, Bool.and_eq_true, decide_eq_true_eq]
      exact ⟨hlo, by omega, h.2⟩
    · split
      · rename_i hk; subst hk
        simp only [Memory.risingFrom, Bool.and_eq_true, decide_eq_true_eq]
        exact ⟨hlo, h.2⟩
      · simp only [Memory.risingFrom, Bool.and_eq_true, decide_eq_true_eq]
        exact ⟨h.1, ih (by omega) h.2⟩

theorem Memory.mem_erase {m : Memory} {a : Nat} {c : Host.Cell} (h : c ∈ Memory.erase a m) : c ∈ m := by
  induction m with
  | nil => simp [Memory.erase] at h
  | cons d m ih =>
    obtain ⟨k, v⟩ := d
    simp only [Memory.erase] at h
    split at h
    · exact List.mem_cons_of_mem _ (ih h)
    · rcases List.mem_cons.1 h with h | h
      · simp [h]
      · exact List.mem_cons_of_mem _ (ih h)

theorem Memory.mem_insert {m : Memory} {a : Nat} {v : Byte} {c : Host.Cell} (h : c ∈ Memory.insert a v m) :
    c = (a, v) ∨ c ∈ m := by
  induction m with
  | nil => simpa [Memory.insert] using h
  | cons d m ih =>
    obtain ⟨k, w⟩ := d
    simp only [Memory.insert] at h
    split at h
    · simpa using h
    · split at h
      · rcases List.mem_cons.1 h with h | h
        · exact .inl h
        · exact .inr (List.mem_cons_of_mem _ h)
      · rcases List.mem_cons.1 h with h | h
        · exact .inr (by simp [h])
        · rcases ih h with h | h
          · exact .inl h
          · exact .inr (List.mem_cons_of_mem _ h)

/-- A write keeps the canonical form. -/
theorem Memory.wf_write {p : Params} {m : Memory} (a : RegAddr) (v : Byte) (h : Memory.wf p m = true) :
    Memory.wf p (Memory.write p m a v) = true := by
  simp only [Memory.wf, Bool.and_eq_true, List.all_eq_true] at h ⊢
  unfold Memory.write
  split
  · exact ⟨Memory.risingFrom_erase _ h.1, fun c hc => h.2 c (Memory.mem_erase hc)⟩
  · rename_i hv
    refine ⟨Memory.risingFrom_insert v (Nat.zero_le _) h.1, fun c hc => ?_⟩
    rcases Memory.mem_insert hc with rfl | hc
    · have ha := a.isLt
      simp only [Memory.cellOk, Bool.and_eq_true, decide_eq_true_eq, BitVec.ofNat_toNat, BitVec.setWidth_eq]
      exact ⟨by omega, hv⟩
    · exact h.2 c hc

/-- The empty cell list is in canonical form. -/
theorem Memory.wf_nil (p : Params) : Memory.wf p [] = true := rfl

theorem Memory.lookup_eq_none_of_rising {m : Memory} {lo a : Nat} (h : Memory.risingFrom lo m = true) (ha : a < lo) :
    Memory.lookup m a = none := by
  induction m generalizing lo with
  | nil => rfl
  | cons c m ih =>
    obtain ⟨k, v⟩ := c
    simp only [Memory.risingFrom, Bool.and_eq_true, decide_eq_true_eq] at h
    simp only [Memory.lookup]
    rw [if_neg (by omega), ih h.2 (by omega)]

theorem Memory.eq_of_rising {m n : Memory} {lo hi : Nat} (hm : Memory.risingFrom lo m = true)
    (hn : Memory.risingFrom hi n = true) (h : ∀ a, Memory.lookup m a = Memory.lookup n a) : m = n := by
  induction m generalizing n lo hi with
  | nil =>
    cases n with
    | nil => rfl
    | cons d n => simpa [Memory.lookup] using h d.1
  | cons c m ih =>
    obtain ⟨k, v⟩ := c
    cases n with
    | nil => simpa [Memory.lookup] using h k
    | cons d n =>
      obtain ⟨j, w⟩ := d
      simp only [Memory.risingFrom, Bool.and_eq_true, decide_eq_true_eq] at hm hn
      have hkj : k = j := by
        rcases Nat.lt_trichotomy k j with hlt | heq | hlt
        · have := h k
          simp [Memory.lookup, show ¬ j = k by omega, Memory.lookup_eq_none_of_rising hn.2 (show k < j + 1 by omega)] at this
        · exact heq
        · have := h j
          simp [Memory.lookup, show ¬ k = j by omega, Memory.lookup_eq_none_of_rising hm.2 (show j < k + 1 by omega)] at this
      subst hkj
      have hvw : v = w := by simpa [Memory.lookup] using h k
      subst hvw
      congr 1
      refine ih hm.2 hn.2 fun a => ?_
      have := h a
      simp only [Memory.lookup] at this
      by_cases hka : k = a
      · subst hka
        rw [Memory.lookup_eq_none_of_rising hm.2 (by omega), Memory.lookup_eq_none_of_rising hn.2 (by omega)]
      · simpa [hka] using this

theorem Memory.lookup_of_wf {p : Params} {m : Memory} (h : Memory.wf p m = true) (a : Nat) :
    (Memory.lookup m a = none ∨ ∃ v, Memory.lookup m a = some v ∧ a < 32 ∧ v ≠ Memory.unlisted p (BitVec.ofNat 5 a)) := by
  simp only [Memory.wf, Bool.and_eq_true, List.all_eq_true] at h
  have hall := h.2
  clear h
  induction m with
  | nil => exact .inl rfl
  | cons c m ih =>
    obtain ⟨k, v⟩ := c
    simp only [Memory.lookup]
    by_cases hk : k = a
    · subst hk
      have := hall (k, v) (by simp)
      simp only [Memory.cellOk, Bool.and_eq_true, decide_eq_true_eq] at this
      exact .inr ⟨v, by simp, this.1, this.2⟩
    · simp only [if_neg hk]
      exact ih fun c hc => hall c (List.mem_cons_of_mem _ hc)

/-- Canonical cell lists that read alike are equal: equal register spaces are equal data. -/
theorem Memory.ext_of_wf {p : Params} {m n : Memory} (hm : Memory.wf p m = true) (hn : Memory.wf p n = true)
    (h : ∀ a : RegAddr, Memory.read p m a = Memory.read p n a) : m = n := by
  have rm := hm; have rn := hn
  simp only [Memory.wf, Bool.and_eq_true] at rm rn
  refine Memory.eq_of_rising rm.1 rn.1 fun a => ?_
  rcases Memory.lookup_of_wf hm a with h1 | ⟨v, h1, ha, hv⟩
  · rcases Memory.lookup_of_wf hn a with h2 | ⟨w, h2, ha, hw⟩
    · rw [h1, h2]
    · have := h (BitVec.ofNat 5 a)
      simp only [Memory.read, BitVec.toNat_ofNat, Nat.mod_eq_of_lt (show a < 2 ^ 5 by omega), h1, h2] at this
      exact absurd this.symm hw
  · rcases Memory.lookup_of_wf hn a with h2 | ⟨w, h2, _, hw⟩
    · have := h (BitVec.ofNat 5 a)
      simp only [Memory.read, BitVec.toNat_ofNat, Nat.mod_eq_of_lt (show a < 2 ^ 5 by omega), h1, h2] at this
      exact absurd this hv
    · have := h (BitVec.ofNat 5 a)
      simp only [Memory.read, BitVec.toNat_ofNat, Nat.mod_eq_of_lt (show a < 2 ^ 5 by omega), h1, h2] at this
      rw [h1, h2, this]

end Sys2Proof.Machine
end

