-- ==== Sys2Proof/Laws/State.lean ====
section
/-! SUPPORT. What each named update of the state does to each field: one lemma per field and update, so that no proof
unfolds a record update. -/

namespace Sys2Proof.Machine

/-! `State.emit` -/
@[simp] theorem State.emit_mode (e : Event) (s : State) : (s.emit e).mode = s.mode := rfl
@[simp] theorem State.emit_csn (e : Event) (s : State) : (s.emit e).csn = s.csn := rfl
@[simp] theorem State.emit_ce (e : Event) (s : State) : (s.emit e).ce = s.ce := rfl
@[simp] theorem State.emit_busy (e : Event) (s : State) : (s.emit e).busy = s.busy := rfl
@[simp] theorem State.emit_cur (e : Event) (s : State) : (s.emit e).cur = s.cur := rfl
@[simp] theorem State.emit_upc (e : Event) (s : State) : (s.emit e).upc = s.upc := rfl
@[simp] theorem State.emit_rxbuf (e : Event) (s : State) : (s.emit e).rxbuf = s.rxbuf := rfl
@[simp] theorem State.emit_busFault (e : Event) (s : State) : (s.emit e).busFault = s.busFault := rfl
@[simp] theorem State.emit_offers (e : Event) (s : State) : (s.emit e).offers = s.offers := rfl
@[simp] theorem State.emit_resp (e : Event) (s : State) : (s.emit e).resp = s.resp := rfl
@[simp] theorem State.emit_irq (e : Event) (s : State) : (s.emit e).irq = s.irq := rfl
@[simp] theorem State.emit_answers (e : Event) (s : State) : (s.emit e).answers = s.answers := rfl
@[simp] theorem State.emit_trace (e : Event) (s : State) : (s.emit e).trace = s.trace ++ [e] := rfl
@[simp] theorem State.emit_peer (e : Event) (s : State) : (s.emit e).peer = s.peer := rfl
@[simp] theorem State.emit_params (e : Event) (s : State) : (s.emit e).params = s.params := rfl
@[simp] theorem State.emit_draws (e : Event) (s : State) : (s.emit e).draws = s.draws := rfl
@[simp] theorem State.emit_bench (e : Event) (s : State) : (s.emit e).bench = s.bench := rfl
@[simp] theorem State.emit_exchanged (e : Event) (s : State) : (s.emit e).exchanged = s.exchanged := rfl

/-! `State.drawn` -/
@[simp] theorem State.drawn_mode (s : State) : (s.drawn).mode = s.mode := rfl
@[simp] theorem State.drawn_csn (s : State) : (s.drawn).csn = s.csn := rfl
@[simp] theorem State.drawn_ce (s : State) : (s.drawn).ce = s.ce := rfl
@[simp] theorem State.drawn_busy (s : State) : (s.drawn).busy = s.busy := rfl
@[simp] theorem State.drawn_cur (s : State) : (s.drawn).cur = s.cur := rfl
@[simp] theorem State.drawn_upc (s : State) : (s.drawn).upc = s.upc := rfl
@[simp] theorem State.drawn_rxbuf (s : State) : (s.drawn).rxbuf = s.rxbuf := rfl
@[simp] theorem State.drawn_busFault (s : State) : (s.drawn).busFault = s.busFault := rfl
@[simp] theorem State.drawn_offers (s : State) : (s.drawn).offers = s.offers := rfl
@[simp] theorem State.drawn_resp (s : State) : (s.drawn).resp = s.resp := rfl
@[simp] theorem State.drawn_irq (s : State) : (s.drawn).irq = s.irq := rfl
@[simp] theorem State.drawn_answers (s : State) : (s.drawn).answers = s.answers := rfl
@[simp] theorem State.drawn_trace (s : State) : (s.drawn).trace = s.trace := rfl
@[simp] theorem State.drawn_peer (s : State) : (s.drawn).peer = s.peer := rfl
@[simp] theorem State.drawn_params (s : State) : (s.drawn).params = s.params := rfl
@[simp] theorem State.drawn_draws (s : State) : (s.drawn).draws = s.draws + 1 := rfl
@[simp] theorem State.drawn_bench (s : State) : (s.drawn).bench = s.bench := rfl
@[simp] theorem State.drawn_exchanged (s : State) : (s.drawn).exchanged = s.exchanged := rfl

/-! `State.csnFall` -/
@[simp] theorem State.csnFall_mode (s : State) : (s.csnFall).mode = s.mode := rfl
@[simp] theorem State.csnFall_csn (s : State) : (s.csnFall).csn = .low := rfl
@[simp] theorem State.csnFall_ce (s : State) : (s.csnFall).ce = s.ce := rfl
@[simp] theorem State.csnFall_busy (s : State) : (s.csnFall).busy = s.busy := rfl
@[simp] theorem State.csnFall_cur (s : State) : (s.csnFall).cur = s.cur := rfl
@[simp] theorem State.csnFall_upc (s : State) : (s.csnFall).upc = s.upc := rfl
@[simp] theorem State.csnFall_rxbuf (s : State) : (s.csnFall).rxbuf = s.rxbuf := rfl
@[simp] theorem State.csnFall_busFault (s : State) : (s.csnFall).busFault = s.busFault := rfl
@[simp] theorem State.csnFall_offers (s : State) : (s.csnFall).offers = s.offers := rfl
@[simp] theorem State.csnFall_resp (s : State) : (s.csnFall).resp = s.resp := rfl
@[simp] theorem State.csnFall_irq (s : State) : (s.csnFall).irq = s.irq := rfl
@[simp] theorem State.csnFall_answers (s : State) : (s.csnFall).answers = s.answers := rfl
@[simp] theorem State.csnFall_trace (s : State) : (s.csnFall).trace = s.trace ++ [.csn .low] := rfl
@[simp] theorem State.csnFall_peer (s : State) : (s.csnFall).peer = s.peer.onCsnLow := rfl
@[simp] theorem State.csnFall_params (s : State) : (s.csnFall).params = s.params := rfl
@[simp] theorem State.csnFall_draws (s : State) : (s.csnFall).draws = s.draws := rfl
@[simp] theorem State.csnFall_bench (s : State) : (s.csnFall).bench = s.bench := rfl
@[simp] theorem State.csnFall_exchanged (s : State) : (s.csnFall).exchanged = s.exchanged := rfl

/-! `State.csnRise` -/
@[simp] theorem State.csnRise_mode (s : State) : (s.csnRise).mode = s.mode := rfl
@[simp] theorem State.csnRise_csn (s : State) : (s.csnRise).csn = .high := rfl
@[simp] theorem State.csnRise_ce (s : State) : (s.csnRise).ce = s.ce := rfl
@[simp] theorem State.csnRise_busy (s : State) : (s.csnRise).busy = s.busy := rfl
@[simp] theorem State.csnRise_cur (s : State) : (s.csnRise).cur = s.cur := rfl
@[simp] theorem State.csnRise_upc (s : State) : (s.csnRise).upc = s.upc := rfl
@[simp] theorem State.csnRise_rxbuf (s : State) : (s.csnRise).rxbuf = s.rxbuf := rfl
@[simp] theorem State.csnRise_busFault (s : State) : (s.csnRise).busFault = s.busFault := rfl
@[simp] theorem State.csnRise_offers (s : State) : (s.csnRise).offers = s.offers := rfl
@[simp] theorem State.csnRise_resp (s : State) : (s.csnRise).resp = s.resp := rfl
@[simp] theorem State.csnRise_irq (s : State) : (s.csnRise).irq = s.irq := rfl
@[simp] theorem State.csnRise_answers (s : State) : (s.csnRise).answers = s.answers := rfl
@[simp] theorem State.csnRise_trace (s : State) : (s.csnRise).trace = s.trace ++ [.csn .high] := rfl
@[simp] theorem State.csnRise_peer (s : State) : (s.csnRise).peer = s.peer.onCsnHigh s.params := rfl
@[simp] theorem State.csnRise_params (s : State) : (s.csnRise).params = s.params := rfl
@[simp] theorem State.csnRise_draws (s : State) : (s.csnRise).draws = s.draws := rfl
@[simp] theorem State.csnRise_bench (s : State) : (s.csnRise).bench = s.bench := rfl
@[simp] theorem State.csnRise_exchanged (s : State) : (s.csnRise).exchanged = s.exchanged := rfl

/-! `State.driveCe` -/
@[simp] theorem State.driveCe_mode (l : Level) (s : State) : (s.driveCe l).mode = s.mode := rfl
@[simp] theorem State.driveCe_csn (l : Level) (s : State) : (s.driveCe l).csn = s.csn := rfl
@[simp] theorem State.driveCe_ce (l : Level) (s : State) : (s.driveCe l).ce = l := rfl
@[simp] theorem State.driveCe_busy (l : Level) (s : State) : (s.driveCe l).busy = s.busy := rfl
@[simp] theorem State.driveCe_cur (l : Level) (s : State) : (s.driveCe l).cur = s.cur := rfl
@[simp] theorem State.driveCe_upc (l : Level) (s : State) : (s.driveCe l).upc = s.upc := rfl
@[simp] theorem State.driveCe_rxbuf (l : Level) (s : State) : (s.driveCe l).rxbuf = s.rxbuf := rfl
@[simp] theorem State.driveCe_busFault (l : Level) (s : State) : (s.driveCe l).busFault = s.busFault := rfl
@[simp] theorem State.driveCe_offers (l : Level) (s : State) : (s.driveCe l).offers = s.offers := rfl
@[simp] theorem State.driveCe_resp (l : Level) (s : State) : (s.driveCe l).resp = s.resp := rfl
@[simp] theorem State.driveCe_irq (l : Level) (s : State) : (s.driveCe l).irq = s.irq := rfl
@[simp] theorem State.driveCe_answers (l : Level) (s : State) : (s.driveCe l).answers = s.answers := rfl
@[simp] theorem State.driveCe_trace (l : Level) (s : State) : (s.driveCe l).trace = s.trace ++ [.ce l] := rfl
@[simp] theorem State.driveCe_peer (l : Level) (s : State) : (s.driveCe l).peer = if s.ce = .low ∧ l = .high then s.peer.onCeRise s.params else s.peer := rfl
@[simp] theorem State.driveCe_params (l : Level) (s : State) : (s.driveCe l).params = s.params := rfl
@[simp] theorem State.driveCe_draws (l : Level) (s : State) : (s.driveCe l).draws = s.draws := rfl
@[simp] theorem State.driveCe_bench (l : Level) (s : State) : (s.driveCe l).bench = s.bench := rfl
@[simp] theorem State.driveCe_exchanged (l : Level) (s : State) : (s.driveCe l).exchanged = s.exchanged := rfl

/-! `State.dwell` -/
@[simp] theorem State.dwell_mode (s : State) : (s.dwell).mode = s.mode := rfl
@[simp] theorem State.dwell_csn (s : State) : (s.dwell).csn = s.csn := rfl
@[simp] theorem State.dwell_ce (s : State) : (s.dwell).ce = s.ce := rfl
@[simp] theorem State.dwell_busy (s : State) : (s.dwell).busy = s.busy := rfl
@[simp] theorem State.dwell_cur (s : State) : (s.dwell).cur = s.cur := rfl
@[simp] theorem State.dwell_upc (s : State) : (s.dwell).upc = s.upc := rfl
@[simp] theorem State.dwell_rxbuf (s : State) : (s.dwell).rxbuf = s.rxbuf := rfl
@[simp] theorem State.dwell_busFault (s : State) : (s.dwell).busFault = s.busFault := rfl
@[simp] theorem State.dwell_offers (s : State) : (s.dwell).offers = s.offers := rfl
@[simp] theorem State.dwell_resp (s : State) : (s.dwell).resp = s.resp := rfl
@[simp] theorem State.dwell_irq (s : State) : (s.dwell).irq = s.irq := rfl
@[simp] theorem State.dwell_answers (s : State) : (s.dwell).answers = s.answers := rfl
@[simp] theorem State.dwell_trace (s : State) : (s.dwell).trace = s.trace ++ [.dwell (cePulseMinNs + Config.dwellBeyond s.draws)] := rfl
@[simp] theorem State.dwell_peer (s : State) : (s.dwell).peer = s.peer := rfl
@[simp] theorem State.dwell_params (s : State) : (s.dwell).params = s.params := rfl
@[simp] theorem State.dwell_draws (s : State) : (s.dwell).draws = s.draws + 1 := rfl
@[simp] theorem State.dwell_bench (s : State) : (s.dwell).bench = s.bench := rfl
@[simp] theorem State.dwell_exchanged (s : State) : (s.dwell).exchanged = s.exchanged := rfl

/-! `State.shifted` -/
@[simp] theorem State.shifted_mode (b m : Byte) (s : State) : (s.shifted b m).mode = s.mode := rfl
@[simp] theorem State.shifted_csn (b m : Byte) (s : State) : (s.shifted b m).csn = s.csn := rfl
@[simp] theorem State.shifted_ce (b m : Byte) (s : State) : (s.shifted b m).ce = s.ce := rfl
@[simp] theorem State.shifted_busy (b m : Byte) (s : State) : (s.shifted b m).busy = s.busy := rfl
@[simp] theorem State.shifted_cur (b m : Byte) (s : State) : (s.shifted b m).cur = s.cur := rfl
@[simp] theorem State.shifted_upc (b m : Byte) (s : State) : (s.shifted b m).upc = s.upc := rfl
@[simp] theorem State.shifted_rxbuf (b m : Byte) (s : State) : (s.shifted b m).rxbuf = s.rxbuf := rfl
@[simp] theorem State.shifted_busFault (b m : Byte) (s : State) : (s.shifted b m).busFault = s.busFault := rfl
@[simp] theorem State.shifted_offers (b m : Byte) (s : State) : (s.shifted b m).offers = s.offers := rfl
@[simp] theorem State.shifted_resp (b m : Byte) (s : State) : (s.shifted b m).resp = s.resp := rfl
@[simp] theorem State.shifted_irq (b m : Byte) (s : State) : (s.shifted b m).irq = s.irq := rfl
@[simp] theorem State.shifted_answers (b m : Byte) (s : State) : (s.shifted b m).answers = s.answers := rfl
@[simp] theorem State.shifted_trace (b m : Byte) (s : State) : (s.shifted b m).trace = s.trace ++ [.xfer b m] := rfl
@[simp] theorem State.shifted_peer (b m : Byte) (s : State) : (s.shifted b m).peer = s.peer.onXfer s.params b := rfl
@[simp] theorem State.shifted_params (b m : Byte) (s : State) : (s.shifted b m).params = s.params := rfl
@[simp] theorem State.shifted_draws (b m : Byte) (s : State) : (s.shifted b m).draws = s.draws := rfl
@[simp] theorem State.shifted_bench (b m : Byte) (s : State) : (s.shifted b m).bench = s.bench := rfl
@[simp] theorem State.shifted_exchanged (b m : Byte) (s : State) : (s.shifted b m).exchanged = s.exchanged := rfl

/-! `State.respond` -/
@[simp] theorem State.respond_mode (st : Status) (s : State) : (s.respond st).mode = s.mode := rfl
@[simp] theorem State.respond_csn (st : Status) (s : State) : (s.respond st).csn = s.csn := rfl
@[simp] theorem State.respond_ce (st : Status) (s : State) : (s.respond st).ce = s.ce := rfl
@[simp] theorem State.respond_busy (st : Status) (s : State) : (s.respond st).busy = s.busy := rfl
@[simp] theorem State.respond_cur (st : Status) (s : State) : (s.respond st).cur = s.cur := rfl
@[simp] theorem State.respond_upc (st : Status) (s : State) : (s.respond st).upc = s.upc := rfl
@[simp] theorem State.respond_rxbuf (st : Status) (s : State) : (s.respond st).rxbuf = s.rxbuf := rfl
@[simp] theorem State.respond_busFault (st : Status) (s : State) : (s.respond st).busFault = s.busFault := rfl
@[simp] theorem State.respond_offers (st : Status) (s : State) : (s.respond st).offers = s.offers := rfl
@[simp] theorem State.respond_resp (st : Status) (s : State) : (s.respond st).resp = some { status := st, rbyte := s.freeByte, rdata := [] } := rfl
@[simp] theorem State.respond_irq (st : Status) (s : State) : (s.respond st).irq = s.irq := rfl
@[simp] theorem State.respond_answers (st : Status) (s : State) : (s.respond st).answers = s.answers := rfl
@[simp] theorem State.respond_trace (st : Status) (s : State) : (s.respond st).trace = s.trace := rfl
@[simp] theorem State.respond_peer (st : Status) (s : State) : (s.respond st).peer = s.peer := rfl
@[simp] theorem State.respond_params (st : Status) (s : State) : (s.respond st).params = s.params := rfl
@[simp] theorem State.respond_draws (st : Status) (s : State) : (s.respond st).draws = s.draws + 1 := rfl
@[simp] theorem State.respond_bench (st : Status) (s : State) : (s.respond st).bench = s.bench := rfl
@[simp] theorem State.respond_exchanged (st : Status) (s : State) : (s.respond st).exchanged = s.exchanged := rfl

/-! `State.rest` -/
@[simp] theorem State.rest_mode (s : State) : (s.rest).mode = s.mode := rfl
@[simp] theorem State.rest_csn (s : State) : (s.rest).csn = s.csn := rfl
@[simp] theorem State.rest_ce (s : State) : (s.rest).ce = s.ce := rfl
@[simp] theorem State.rest_busy (s : State) : (s.rest).busy = false := rfl
@[simp] theorem State.rest_cur (s : State) : (s.rest).cur = s.cur := rfl
@[simp] theorem State.rest_upc (s : State) : (s.rest).upc = 0 := rfl
@[simp] theorem State.rest_rxbuf (s : State) : (s.rest).rxbuf = [] := rfl
@[simp] theorem State.rest_busFault (s : State) : (s.rest).busFault = s.busFault := rfl
@[simp] theorem State.rest_offers (s : State) : (s.rest).offers = s.offers := rfl
@[simp] theorem State.rest_resp (s : State) : (s.rest).resp = s.resp := rfl
@[simp] theorem State.rest_irq (s : State) : (s.rest).irq = s.irq := rfl
@[simp] theorem State.rest_answers (s : State) : (s.rest).answers = s.answers := rfl
@[simp] theorem State.rest_trace (s : State) : (s.rest).trace = s.trace := rfl
@[simp] theorem State.rest_peer (s : State) : (s.rest).peer = s.peer := rfl
@[simp] theorem State.rest_params (s : State) : (s.rest).params = s.params := rfl
@[simp] theorem State.rest_draws (s : State) : (s.rest).draws = s.draws := rfl
@[simp] theorem State.rest_bench (s : State) : (s.rest).bench = s.bench := rfl
@[simp] theorem State.rest_exchanged (s : State) : (s.rest).exchanged = s.exchanged := rfl

/-! `State.refuseWith` -/
@[simp] theorem State.refuseWith_mode (st : Status) (s : State) : (s.refuseWith st).mode = s.mode := rfl
@[simp] theorem State.refuseWith_csn (st : Status) (s : State) : (s.refuseWith st).csn = s.csn := rfl
@[simp] theorem State.refuseWith_ce (st : Status) (s : State) : (s.refuseWith st).ce = s.ce := rfl
@[simp] theorem State.refuseWith_busy (st : Status) (s : State) : (s.refuseWith st).busy = false := rfl
@[simp] theorem State.refuseWith_cur (st : Status) (s : State) : (s.refuseWith st).cur = s.cur := rfl
@[simp] theorem State.refuseWith_upc (st : Status) (s : State) : (s.refuseWith st).upc = 0 := rfl
@[simp] theorem State.refuseWith_rxbuf (st : Status) (s : State) : (s.refuseWith st).rxbuf = s.rxbuf := rfl
@[simp] theorem State.refuseWith_busFault (st : Status) (s : State) : (s.refuseWith st).busFault = s.busFault := rfl
@[simp] theorem State.refuseWith_offers (st : Status) (s : State) : (s.refuseWith st).offers = s.offers := rfl
@[simp] theorem State.refuseWith_resp (st : Status) (s : State) : (s.refuseWith st).resp = some { status := st, rbyte := s.freeByte, rdata := [] } := rfl
@[simp] theorem State.refuseWith_irq (st : Status) (s : State) : (s.refuseWith st).irq = s.irq := rfl
@[simp] theorem State.refuseWith_answers (st : Status) (s : State) : (s.refuseWith st).answers = s.answers := rfl
@[simp] theorem State.refuseWith_trace (st : Status) (s : State) : (s.refuseWith st).trace = s.trace := rfl
@[simp] theorem State.refuseWith_peer (st : Status) (s : State) : (s.refuseWith st).peer = s.peer := rfl
@[simp] theorem State.refuseWith_params (st : Status) (s : State) : (s.refuseWith st).params = s.params := rfl
@[simp] theorem State.refuseWith_draws (st : Status) (s : State) : (s.refuseWith st).draws = s.draws + 1 := rfl
@[simp] theorem State.refuseWith_bench (st : Status) (s : State) : (s.refuseWith st).bench = s.bench := rfl
@[simp] theorem State.refuseWith_exchanged (st : Status) (s : State) : (s.refuseWith st).exchanged = s.exchanged := rfl

/-! `State.accept` -/
@[simp] theorem State.accept_mode (i : Instr) (s : State) : (s.accept i).mode = s.mode := rfl
@[simp] theorem State.accept_csn (i : Instr) (s : State) : (s.accept i).csn = s.csn := rfl
@[simp] theorem State.accept_ce (i : Instr) (s : State) : (s.accept i).ce = s.ce := rfl
@[simp] theorem State.accept_busy (i : Instr) (s : State) : (s.accept i).busy = true := rfl
@[simp] theorem State.accept_cur (i : Instr) (s : State) : (s.accept i).cur = i := rfl
@[simp] theorem State.accept_upc (i : Instr) (s : State) : (s.accept i).upc = 0 := rfl
@[simp] theorem State.accept_rxbuf (i : Instr) (s : State) : (s.accept i).rxbuf = [] := rfl
@[simp] theorem State.accept_busFault (i : Instr) (s : State) : (s.accept i).busFault = s.busFault := rfl
@[simp] theorem State.accept_offers (i : Instr) (s : State) : (s.accept i).offers = s.offers := rfl
@[simp] theorem State.accept_resp (i : Instr) (s : State) : (s.accept i).resp = none := rfl
@[simp] theorem State.accept_irq (i : Instr) (s : State) : (s.accept i).irq = s.irq := rfl
@[simp] theorem State.accept_answers (i : Instr) (s : State) : (s.accept i).answers = s.answers := rfl
@[simp] theorem State.accept_trace (i : Instr) (s : State) : (s.accept i).trace = s.trace := rfl
@[simp] theorem State.accept_peer (i : Instr) (s : State) : (s.accept i).peer = s.peer := rfl
@[simp] theorem State.accept_params (i : Instr) (s : State) : (s.accept i).params = s.params := rfl
@[simp] theorem State.accept_draws (i : Instr) (s : State) : (s.accept i).draws = s.draws := rfl
@[simp] theorem State.accept_bench (i : Instr) (s : State) : (s.accept i).bench = s.bench := rfl
@[simp] theorem State.accept_exchanged (i : Instr) (s : State) : (s.accept i).exchanged = s.exchanged := rfl

/-! `State.completed` -/
@[simp] theorem State.completed_mode (a : ModeAct) (s : State) : (s.completed a).mode = a.apply s.mode := rfl
@[simp] theorem State.completed_csn (a : ModeAct) (s : State) : (s.completed a).csn = s.csn := rfl
@[simp] theorem State.completed_ce (a : ModeAct) (s : State) : (s.completed a).ce = s.ce := rfl
@[simp] theorem State.completed_busy (a : ModeAct) (s : State) : (s.completed a).busy = s.busy := rfl
@[simp] theorem State.completed_cur (a : ModeAct) (s : State) : (s.completed a).cur = s.cur := rfl
@[simp] theorem State.completed_upc (a : ModeAct) (s : State) : (s.completed a).upc = s.upc + 1 := rfl
@[simp] theorem State.completed_rxbuf (a : ModeAct) (s : State) : (s.completed a).rxbuf = s.rxbuf := rfl
@[simp] theorem State.completed_busFault (a : ModeAct) (s : State) : (s.completed a).busFault = s.busFault := rfl
@[simp] theorem State.completed_offers (a : ModeAct) (s : State) : (s.completed a).offers = s.offers := rfl
@[simp] theorem State.completed_resp (a : ModeAct) (s : State) : (s.completed a).resp = s.resp := rfl
@[simp] theorem State.completed_irq (a : ModeAct) (s : State) : (s.completed a).irq = s.irq := rfl
@[simp] theorem State.completed_answers (a : ModeAct) (s : State) : (s.completed a).answers = s.answers := rfl
@[simp] theorem State.completed_trace (a : ModeAct) (s : State) : (s.completed a).trace = s.trace := rfl
@[simp] theorem State.completed_peer (a : ModeAct) (s : State) : (s.completed a).peer = s.peer := rfl
@[simp] theorem State.completed_params (a : ModeAct) (s : State) : (s.completed a).params = s.params := rfl
@[simp] theorem State.completed_draws (a : ModeAct) (s : State) : (s.completed a).draws = s.draws := rfl
@[simp] theorem State.completed_bench (a : ModeAct) (s : State) : (s.completed a).bench = s.bench := rfl
@[simp] theorem State.completed_exchanged (a : ModeAct) (s : State) : (s.completed a).exchanged = s.exchanged := rfl

/-! `State.resetBlock` -/
@[simp] theorem State.resetBlock_mode (s : State) : (s.resetBlock).mode = .powerDown := rfl
@[simp] theorem State.resetBlock_csn (s : State) : (s.resetBlock).csn = .high := rfl
@[simp] theorem State.resetBlock_ce (s : State) : (s.resetBlock).ce = .low := rfl
@[simp] theorem State.resetBlock_busy (s : State) : (s.resetBlock).busy = false := rfl
@[simp] theorem State.resetBlock_cur (s : State) : (s.resetBlock).cur = .init := rfl
@[simp] theorem State.resetBlock_upc (s : State) : (s.resetBlock).upc = 0 := rfl
@[simp] theorem State.resetBlock_rxbuf (s : State) : (s.resetBlock).rxbuf = [] := rfl
@[simp] theorem State.resetBlock_busFault (s : State) : (s.resetBlock).busFault = false := rfl
@[simp] theorem State.resetBlock_offers (s : State) : (s.resetBlock).offers = s.offers := rfl
@[simp] theorem State.resetBlock_resp (s : State) : (s.resetBlock).resp = none := rfl
@[simp] theorem State.resetBlock_irq (s : State) : (s.resetBlock).irq = s.irq := rfl
@[simp] theorem State.resetBlock_answers (s : State) : (s.resetBlock).answers = s.answers := rfl
@[simp] theorem State.resetBlock_trace (s : State) : (s.resetBlock).trace = [] := rfl
@[simp] theorem State.resetBlock_peer (s : State) : (s.resetBlock).peer = s.peer := rfl
@[simp] theorem State.resetBlock_params (s : State) : (s.resetBlock).params = s.params := rfl
@[simp] theorem State.resetBlock_draws (s : State) : (s.resetBlock).draws = s.draws := rfl
@[simp] theorem State.resetBlock_bench (s : State) : (s.resetBlock).bench = s.bench := rfl
@[simp] theorem State.resetBlock_exchanged (s : State) : (s.resetBlock).exchanged = s.exchanged := rfl

/-! `State.wait` -/
@[simp] theorem State.wait_mode (i : Instr) (s : State) : (s.wait i).mode = s.mode := rfl
@[simp] theorem State.wait_csn (i : Instr) (s : State) : (s.wait i).csn = s.csn := rfl
@[simp] theorem State.wait_ce (i : Instr) (s : State) : (s.wait i).ce = s.ce := rfl
@[simp] theorem State.wait_busy (i : Instr) (s : State) : (s.wait i).busy = s.busy := rfl
@[simp] theorem State.wait_cur (i : Instr) (s : State) : (s.wait i).cur = s.cur := rfl
@[simp] theorem State.wait_upc (i : Instr) (s : State) : (s.wait i).upc = s.upc := rfl
@[simp] theorem State.wait_rxbuf (i : Instr) (s : State) : (s.wait i).rxbuf = s.rxbuf := rfl
@[simp] theorem State.wait_busFault (i : Instr) (s : State) : (s.wait i).busFault = s.busFault := rfl
@[simp] theorem State.wait_resp (i : Instr) (s : State) : (s.wait i).resp = s.resp := rfl
@[simp] theorem State.wait_irq (i : Instr) (s : State) : (s.wait i).irq = s.irq := rfl
@[simp] theorem State.wait_answers (i : Instr) (s : State) : (s.wait i).answers = s.answers := rfl
@[simp] theorem State.wait_trace (i : Instr) (s : State) : (s.wait i).trace = s.trace := rfl
@[simp] theorem State.wait_peer (i : Instr) (s : State) : (s.wait i).peer = s.peer := rfl
@[simp] theorem State.wait_params (i : Instr) (s : State) : (s.wait i).params = s.params := rfl
@[simp] theorem State.wait_draws (i : Instr) (s : State) : (s.wait i).draws = s.draws := rfl
@[simp] theorem State.wait_exchanged (i : Instr) (s : State) : (s.wait i).exchanged = s.exchanged := rfl

/-! `State.offer` -/
@[simp] theorem State.offer_mode (o : Offer) (s : State) : (s.offer o).mode = s.mode := rfl
@[simp] theorem State.offer_csn (o : Offer) (s : State) : (s.offer o).csn = s.csn := rfl
@[simp] theorem State.offer_ce (o : Offer) (s : State) : (s.offer o).ce = s.ce := rfl
@[simp] theorem State.offer_busy (o : Offer) (s : State) : (s.offer o).busy = s.busy := rfl
@[simp] theorem State.offer_cur (o : Offer) (s : State) : (s.offer o).cur = s.cur := rfl
@[simp] theorem State.offer_upc (o : Offer) (s : State) : (s.offer o).upc = s.upc := rfl
@[simp] theorem State.offer_rxbuf (o : Offer) (s : State) : (s.offer o).rxbuf = s.rxbuf := rfl
@[simp] theorem State.offer_busFault (o : Offer) (s : State) : (s.offer o).busFault = s.busFault := rfl
@[simp] theorem State.offer_resp (o : Offer) (s : State) : (s.offer o).resp = s.resp := rfl
@[simp] theorem State.offer_irq (o : Offer) (s : State) : (s.offer o).irq = s.irq := rfl
@[simp] theorem State.offer_answers (o : Offer) (s : State) : (s.offer o).answers = s.answers := rfl
@[simp] theorem State.offer_trace (o : Offer) (s : State) : (s.offer o).trace = s.trace := rfl
@[simp] theorem State.offer_peer (o : Offer) (s : State) : (s.offer o).peer = s.peer := rfl
@[simp] theorem State.offer_params (o : Offer) (s : State) : (s.offer o).params = s.params := rfl
@[simp] theorem State.offer_draws (o : Offer) (s : State) : (s.offer o).draws = s.draws := rfl
@[simp] theorem State.offer_exchanged (o : Offer) (s : State) : (s.offer o).exchanged = s.exchanged := rfl

/-! What is offered goes where its level stands. -/
@[simp] theorem State.offer_host (r : Request) (s : State) : s.offer (.host r) = { s with offers := r :: s.offers } := rfl
@[simp] theorem State.offer_wire (frame : List Byte) (s : State) :
    s.offer (.wire frame) = { s with bench := frame :: s.bench } := rfl

end Sys2Proof.Machine
end

