-- ==== Sys2Proof/Laws/Ops.lean ====
section
/-! SUPPORT. What each shared operation can do, said once: a transfer, a micro-op, the run of a micro-sequence, an
operation, a transaction at the radio's port, taking an offer. Later proofs cite these instead of unfolding. -/

namespace Sys2Proof.Machine

/-! ### A transfer -/

/-- A transfer that shifted a byte in: what it changes. -/
theorem State.spiXfer_ok {b m : Byte} {s t : State} (h : s.spiXfer b = .ok m t) :
    ∃ as d, t = ({ s with answers := as, draws := d } : State).shifted b m := by
  have peer : ∀ (as : List Answer), ({ s with answers := as } : State).peerXfer b = .ok m t →
      ∃ d, t = ({ s with answers := as, draws := d } : State).shifted b m := by
    intro as h
    unfold State.peerXfer at h
    split at h <;> simp only [XferResult.ok.injEq] at h
    · exact ⟨s.draws, by rw [← h.2, ← h.1]⟩
    · refine ⟨s.draws + 1, ?_⟩
      rw [← h.2, ← h.1]; rfl
  unfold State.spiXfer at h
  split at h
  · rename_i ha
    obtain ⟨d, hd⟩ := peer [] (by rw [← ha]; exact h)
    exact ⟨[], d, hd⟩
  · rename_i rest _
    obtain ⟨d, hd⟩ := peer rest h
    exact ⟨rest, d, hd⟩
  · rename_i rest _
    simp only [XferResult.ok.injEq] at h
    obtain ⟨rfl, rfl⟩ := h
    exact ⟨rest, s.draws, rfl⟩
  · cases h
  · cases h

/-- A transfer that failed: the transport said so, and nothing has changed yet. -/
theorem State.spiXfer_fail {b : Byte} {s t : State} (h : s.spiXfer b = .fail t) :
    ∃ rest, s.answers = .fail :: rest ∧ t = { s with answers := rest } := by
  unfold State.spiXfer State.peerXfer at h
  split at h
  · split at h <;> cases h
  · split at h <;> cases h
  · cases h
  · rename_i rest ha
    cases h
    exact ⟨rest, ha, rfl⟩
  · cases h

/-- A transfer never returns exactly where the bus side declines to answer. -/
theorem State.spiXfer_never {b : Byte} {s : State} : s.spiXfer b = .never ↔ s.answers.head? = some .never := by
  unfold State.spiXfer State.peerXfer
  constructor
  · intro h
    split at h
    · split at h <;> cases h
    · split at h <;> cases h
    · cases h
    · cases h
    · rename_i ha; simp [ha]
  · intro h
    cases ha : s.answers with
    | nil => simp [ha] at h
    | cons a rest =>
      simp only [ha, List.head?_cons, Option.some.injEq] at h
      simp [h]

/-- A transfer whose answer is a byte. -/
theorem State.spiXfer_byte {b m : Byte} {s : State} {rest : List Answer} (h : s.answers = .byte m :: rest) :
    s.spiXfer b = .ok m (({ s with answers := rest } : State).shifted b m) := by
  simp [State.spiXfer, h]

/-- A transfer whose answer is a failure. -/
theorem State.spiXfer_failed {b : Byte} {s : State} {rest : List Answer} (h : s.answers = .fail :: rest) :
    s.spiXfer b = .fail { s with answers := rest } := by
  simp [State.spiXfer, h]

/-- A transfer on a bus that neither fails nor hangs shifts a byte in, and the bus stays so. -/
theorem State.spiXfer_good {b : Byte} {s : State} (h : s.busGood) : ∃ m t, s.spiXfer b = .ok m t ∧ t.busGood := by
  unfold State.busGood at h
  cases ha : s.answers with
  | nil =>
    simp only [State.spiXfer, ha, State.peerXfer]
    split <;> exact ⟨_, _, rfl, by simp [State.busGood, ha]⟩
  | cons a rest =>
    rw [ha] at h
    have ht : ∀ x ∈ rest, x ≠ .fail ∧ x ≠ .never := fun x hx => h x (List.mem_cons_of_mem _ hx)
    cases a with
    | peer =>
      simp only [State.spiXfer, ha, State.peerXfer]
      split <;> exact ⟨_, _, rfl, ht⟩
    | byte m => exact ⟨_, _, State.spiXfer_byte ha, ht⟩
    | fail => exact absurd rfl (h .fail (by simp)).1
    | never => exact absurd rfl (h .never (by simp)).2

/-- A transfer that the reference peer answers: the byte it is bound to where there is one, and the peer answers on. -/
theorem State.spiXfer_peer {b : Byte} {s : State} (h : s.busIsPeer) :
    ∃ m t, s.spiXfer b = .ok m t ∧ t.busIsPeer ∧ ∀ x, s.peer.miso s.params = some x → m = x := by
  have key : ∀ as : List Answer, (∀ a ∈ as, a = Answer.peer) →
      ∃ m t, ({ s with answers := as } : State).peerXfer b = .ok m t ∧ t.busIsPeer ∧
        ∀ x, s.peer.miso s.params = some x → m = x := by
    intro as has
    unfold State.peerXfer
    cases hm : s.peer.miso s.params with
    | none => exact ⟨_, _, rfl, has, by simp⟩
    | some x => exact ⟨_, _, rfl, has, by simp⟩
  unfold State.busIsPeer at h
  cases ha : s.answers with
  | nil =>
    rw [show s.spiXfer b = s.peerXfer b by simp [State.spiXfer, ha]]
    exact key s.answers h
  | cons a rest =>
    rw [ha] at h
    have hp : a = .peer := h a (by simp)
    subst hp
    have := key rest fun x hx => h x (List.mem_cons_of_mem _ hx)
    simpa [State.spiXfer, ha] using this

/-! ### The end of an operation -/

/-- What ending an operation changes: the response, and the block is at rest. -/
theorem State.finish_eq (s : State) :
    ∃ r d, s.finish = { s with
      busy := false
      upc := 0
      rxbuf := []
      resp := some { status := endStatus s.cur (s.rxbuf.head?.getD s.freeByte), rbyte := r, rdata := endRdata s.cur s.rxbuf }
      draws := d } := by
  unfold State.finish
  split
  · exact ⟨_, s.draws, rfl⟩
  · exact ⟨_, _, rfl⟩

/-- The end of an operation that defines `rbyte`. -/
theorem State.finish_rbyte {s : State} (h : definesRbyte s.cur = true) :
    s.finish = { s with
      busy := false
      upc := 0
      rxbuf := []
      resp := some {
        status := endStatus s.cur (s.rxbuf.head?.getD s.freeByte)
        rbyte := s.rxbuf.head?.getD s.freeByte
        rdata := endRdata s.cur s.rxbuf } } := by
  simp [State.finish, h, State.rest]

/-- What taking a failed transfer changes, inside a frame (R176). -/
theorem State.abort_eq {s : State} (b : Byte) (h : s.csn = .low) :
    ∃ r d, s.abort b = { s with
      busFault := true
      csn := .high
      busy := false
      upc := 0
      rxbuf := []
      resp := some { status := .busTransportFailure, rbyte := r, rdata := [] }
      trace := s.trace ++ [.xferFail b, .csn .high]
      peer := s.peer.onCsnHigh s.params
      draws := d } := by
  refine ⟨s.freeByte, s.draws + 1, ?_⟩
  simp [State.abort, h, State.emit, State.csnRise, State.rest, State.respond, State.freeByte]

/-- What taking a failed transfer leaves alone or fixes, wherever it happens. -/
theorem State.abort_fields (s : State) (b : Byte) :
    (s.abort b).busFault = true ∧ (s.abort b).csn = .high ∧ (s.abort b).busy = false ∧ (s.abort b).upc = 0 ∧
    (s.abort b).rxbuf = [] ∧ (s.abort b).mode = s.mode ∧ (s.abort b).ce = s.ce ∧ (s.abort b).params = s.params ∧
    (s.abort b).irq = s.irq ∧ (s.abort b).offers = s.offers ∧ (s.abort b).exchanged = s.exchanged ∧
    (s.abort b).answers = s.answers ∧
    (∃ r, (s.abort b).resp = some { status := .busTransportFailure, rbyte := r, rdata := [] }) ∧
    (s.abort b).trace = s.trace ++ (if s.csn = .low then [.xferFail b, .csn .high] else [.xferFail b]) ∧
    (s.abort b).peer = (if s.csn = .low then s.peer.onCsnHigh s.params else s.peer) := by
  cases h : s.csn <;>
    simp [State.abort, h, State.emit, State.csnRise, State.rest, State.respond]

theorem State.abort_bench (s : State) (b : Byte) : (s.abort b).bench = s.bench := by
  cases h : s.csn <;> simp [State.abort, h, State.emit, State.csnRise, State.rest, State.respond]

/-! ### A micro-op -/

/-- The events a completed micro-op can append to the trace, one each. -/
def Micro.emits (p : Params) (m : Micro) (e : Event) : Prop :=
  match m with
  | .csnLow => e = .csn .low
  | .csnHigh _ => e = .csn .high
  | .ce l _ => e = .ce l
  | .out b => ∃ x, e = .xfer b x
  | .recv => ∃ x, e = .xfer p.fillByte x
  | .dwell => ∃ ns, e = .dwell ns ∧ cePulseMinNs ≤ ns

/-- The bytes a completed micro-op adds to the receive buffer, given its event. -/
def Micro.receives (m : Micro) (e : Event) : List Byte :=
  match m, e with
  | .recv, .xfer _ x => [x]
  | _, _ => []

/-- What a completed micro-op does. -/
structure MicroDone (m : Micro) (s t : State) (e : Event) : Prop where
  emits     : m.emits s.params e
  trace     : t.trace = s.trace ++ [e]
  peer      : t.peer = s.peer.react s.params s.ce e
  ceAfter   : t.ce = e.ceAfter s.ce
  lines     : ({ csn := t.csn, ce := t.ce, mode := t.mode } : Lines) =
                m.lines { csn := s.csn, ce := s.ce, mode := s.mode }
  upc       : t.upc = s.upc + 1
  rxbuf     : t.rxbuf = s.rxbuf ++ m.receives e
  busy      : t.busy = s.busy
  cur       : t.cur = s.cur
  busFault  : t.busFault = s.busFault
  offers    : t.offers = s.offers
  resp      : t.resp = s.resp
  irq       : t.irq = s.irq
  params    : t.params = s.params
  bench     : t.bench = s.bench
  exchanged : t.exchanged = s.exchanged

/-- Inversion of a completed micro-op. -/
theorem State.micro_done {m : Micro} {s t : State} (h : s.micro m = .done t) : ∃ e, MicroDone m s t e := by
  cases m with
  | csnLow =>
    simp only [State.micro, MicroResult.done.injEq] at h
    subst h
    exact ⟨.csn .low, by constructor <;> simp [Micro.emits, Peer.react, Event.ceAfter, Micro.lines, Micro.receives, ModeAct.apply]⟩
  | csnHigh act =>
    simp only [State.micro, MicroResult.done.injEq] at h
    subst h
    exact ⟨.csn .high, by constructor <;> simp [Micro.emits, Peer.react, Event.ceAfter, Micro.lines, Micro.receives]⟩
  | ce l act =>
    simp only [State.micro, MicroResult.done.injEq] at h
    subst h
    exact ⟨.ce l, by constructor <;> simp [Micro.emits, Peer.react, Event.ceAfter, Micro.lines, Micro.receives]⟩
  | out b =>
    simp only [State.micro, State.outByte] at h
    split at h
    · rename_i x u hx
      obtain ⟨as, d, rfl⟩ := State.spiXfer_ok hx
      cases h
      exact ⟨.xfer b x, by constructor <;> simp [Micro.emits, Peer.react, Event.ceAfter, Micro.lines, Micro.receives, ModeAct.apply]⟩
    · cases h
    · cases h
  | recv =>
    simp only [State.micro, State.inByte] at h
    split at h
    · rename_i x u hx
      obtain ⟨as, d, rfl⟩ := State.spiXfer_ok hx
      cases h
      exact ⟨.xfer s.params.fillByte x, by
        constructor <;> simp [Micro.emits, Peer.react, Event.ceAfter, Micro.lines, Micro.receives, ModeAct.apply]⟩
    · cases h
    · cases h
  | dwell =>
    simp only [State.micro, MicroResult.done.injEq] at h
    subst h
    exact ⟨.dwell (cePulseMinNs + Config.dwellBeyond s.draws), by
      constructor <;> simp [Micro.emits, Peer.react, Event.ceAfter, Micro.lines, Micro.receives, ModeAct.apply]⟩

/-- Inversion of a micro-op whose transfer failed. -/
theorem State.micro_aborted {m : Micro} {s t : State} (h : s.micro m = .aborted t) :
    ∃ b rest, (m = .out b ∨ (m = .recv ∧ b = s.params.fillByte)) ∧ s.answers = .fail :: rest ∧
      t = ({ s with answers := rest } : State).abort b := by
  cases m with
  | out b =>
    simp only [State.micro, State.outByte] at h
    split at h
    · cases h
    · rename_i u hx
      obtain ⟨rest, ha, rfl⟩ := State.spiXfer_fail hx
      cases h
      exact ⟨b, rest, .inl rfl, ha, rfl⟩
    · cases h
  | recv =>
    simp only [State.micro, State.inByte] at h
    split at h
    · cases h
    · rename_i u hx
      obtain ⟨rest, ha, rfl⟩ := State.spiXfer_fail hx
      cases h
      exact ⟨_, rest, .inr ⟨rfl, rfl⟩, ha, rfl⟩
    · cases h
  | csnLow => cases h
  | csnHigh act => cases h
  | ce l act => cases h
  | dwell => cases h

/-- Inversion of a micro-op whose transfer never returns. -/
theorem State.micro_stuck {m : Micro} {s : State} (h : s.micro m = .stuck) :
    ((∃ b, m = .out b) ∨ m = .recv) ∧ s.answers.head? = some .never := by
  cases m with
  | out b =>
    simp only [State.micro, State.outByte] at h
    split at h
    · cases h
    · cases h
    · rename_i hx; exact ⟨.inl ⟨b, rfl⟩, State.spiXfer_never.1 hx⟩
  | recv =>
    simp only [State.micro, State.inByte] at h
    split at h
    · cases h
    · cases h
    · rename_i hx; exact ⟨.inr rfl, State.spiXfer_never.1 hx⟩
  | csnLow => cases h
  | csnHigh act => cases h
  | ce l act => cases h
  | dwell => cases h

/-- A micro-op on a bus that neither fails nor hangs completes, and the bus stays so. -/
theorem State.micro_good {m : Micro} {s : State} (h : s.busGood) : ∃ t, s.micro m = .done t ∧ t.busGood := by
  cases m with
  | out b =>
    obtain ⟨x, t, hx, ht⟩ := State.spiXfer_good (b := b) h
    exact ⟨t.completed .keep, by simp only [State.micro, State.outByte, hx], ht⟩
  | recv =>
    obtain ⟨x, t, hx, ht⟩ := State.spiXfer_good (b := s.params.fillByte) h
    exact ⟨({ t with rxbuf := t.rxbuf ++ [x] } : State).completed .keep, by simp only [State.micro, State.inByte, hx], ht⟩
  | csnLow => exact ⟨_, rfl, h⟩
  | csnHigh act => exact ⟨_, rfl, h⟩
  | ce l act => exact ⟨_, rfl, h⟩
  | dwell => exact ⟨_, rfl, h⟩

/-! ### The run of a micro-sequence -/

/-- The induction of a run, once: a predicate on the micro-ops left and the state, kept by every completed micro-op,
gives the result at the end, at an abort and at a hang. -/
theorem State.runMicros_induction {P : List Micro → State → Prop} {Q : State → Prop}
    (hdone : ∀ m ms s t, P (m :: ms) s → s.micro m = .done t → P ms t)
    (habort : ∀ m ms s t, P (m :: ms) s → s.micro m = .aborted t → Q t)
    (hstuck : ∀ m ms s, P (m :: ms) s → s.micro m = .stuck → Q s)
    (hend : ∀ s, P [] s → Q s.finish) :
    ∀ ms s, P ms s → Q (State.runMicros ms s) := by
  intro ms
  induction ms with
  | nil => exact hend
  | cons m ms ih =>
    intro s hp
    unfold State.runMicros
    split
    · rename_i t ht; exact ih t (hdone m ms s t hp ht)
    · rename_i t ht; exact habort m ms s t hp ht
    · rename_i ht; exact hstuck m ms s hp ht

/-- A run whose first micro-op completes. -/
theorem State.runMicros_cons_done {m : Micro} {ms : List Micro} {s t : State} (h : s.micro m = .done t) :
    State.runMicros (m :: ms) s = State.runMicros ms t := by
  simp [State.runMicros, h]

/-! ### An operation -/

/-- Everything a host operation can do: wait, be refused, or run. -/
theorem State.operate_cases (i : Instr) (s : State) :
    (s.busy = true ∧ s.operate i = .next (s.wait i)) ∨
    (s.busy = false ∧ ∃ st, acceptCheck i s.mode = some st ∧ s.operate i = .next (s.refuseWith st)) ∨
    (s.busy = false ∧ acceptCheck i s.mode = none ∧
      s.operate i = .next (State.runMicros (microSeq s.params i) (s.accept i))) := by
  unfold State.operate
  cases hb : s.busy with
  | true => exact .inl ⟨rfl, by simp⟩
  | false =>
    cases hc : acceptCheck i s.mode with
    | some st => exact .inr (.inl ⟨rfl, st, rfl, by simp⟩)
    | none => exact .inr (.inr ⟨rfl, rfl, by simp⟩)

/-- Every host operation is `State.operate` of itself. -/
theorem exec_host {i : Instr} (h : i.isHost = true) (s : State) : exec i s = s.operate i := by
  cases i <;> first | rfl | cases h

/-- The bytes a wire row shifts out (spec/30_encoding.md R81). -/
def wireBytes (p : Params) : Instr → List Byte
  | .cmdRRegister a => [encodeCmd (.rRegister a), p.fillByte]
  | .cmdWRegister a value => [encodeCmd (.wRegister a), value]
  | .cmdRRxPayload n => encodeCmd .rRxPayload :: List.replicate n p.fillByte
  | .cmdWTxPayload bytes => encodeCmd .wTxPayload :: bytes
  | .cmdFlushTx => [encodeCmd .flushTx]
  | .cmdFlushRx => [encodeCmd .flushRx]
  | .cmdReuseTxPl => [encodeCmd .reuseTxPl]
  | .cmdNop => [encodeCmd .nop]
  | .init => []
  | .configureReceiveMode => []
  | .configureTransmitMode => []
  | .readRxPayload _ => []
  | .writeTxPayload _ => []
  | .transmitOne _ => []
  | .writeRegister _ _ => []
  | .readRegister _ => []
  | .flushRx => []
  | .flushTx => []
  | .writeRegisterVerified _ _ => []

/-- Every wire row is its transaction at the radio's port. -/
theorem exec_wire {i : Instr} (h : i.isHost = false) (s : State) : exec i s = s.wireRow i (wireBytes s.params i) := by
  cases i <;> first | rfl | cases h

/-- Everything an instruction can do. -/
theorem exec_cases (i : Instr) (s : State) :
    (s.busy = true ∧ exec i s = .next (s.wait i)) ∨
    (s.busy = false ∧ i.isHost = true ∧ ∃ st, acceptCheck i s.mode = some st ∧ exec i s = .next (s.refuseWith st)) ∨
    (s.busy = false ∧ i.isHost = true ∧ acceptCheck i s.mode = none ∧
      exec i s = .next (State.runMicros (microSeq s.params i) (s.accept i))) ∨
    (s.busy = false ∧ i.isHost = false ∧ exec i s = .next (s.wireFrame (wireBytes s.params i))) := by
  cases hi : i.isHost with
  | true =>
    rw [exec_host hi]
    rcases State.operate_cases i s with h | ⟨hb, h⟩ | ⟨hb, h⟩
    · exact .inl h
    · exact .inr (.inl ⟨hb, rfl, h⟩)
    · exact .inr (.inr (.inl ⟨hb, rfl, h⟩))
  | false =>
    rw [exec_wire hi, State.wireRow]
    cases hb : s.busy with
    | true => exact .inl ⟨rfl, by simp⟩
    | false => exact .inr (.inr (.inr ⟨rfl, rfl, by simp⟩))

/-! ### A transaction at the radio's port -/

/-- What the slots of a transaction change. -/
theorem State.slots_eq (bytes : List Byte) (s : State) :
    ∃ io d, State.slots bytes s = { s with
      peer := bytes.foldl (fun r b => r.onXfer s.params b) s.peer
      exchanged := s.exchanged ++ io
      draws := d } ∧ io.map Prod.fst = bytes := by
  induction bytes generalizing s with
  | nil => exact ⟨[], s.draws, by simp [State.slots]⟩
  | cons b bs ih =>
    have hslot : ∃ x d, s.slot b = { s with
        peer := s.peer.onXfer s.params b, exchanged := s.exchanged ++ [(b, x)], draws := d } := by
      unfold State.slot
      split
      · exact ⟨_, s.draws, rfl⟩
      · exact ⟨_, _, rfl⟩
    obtain ⟨x, d, hs⟩ := hslot
    obtain ⟨io, d', h, hio⟩ := ih (s.slot b)
    refine ⟨(b, x) :: io, d', ?_, by simp [hio]⟩
    rw [State.slots, h, hs]
    simp

/-- What a transaction at the radio's port changes: the peer, the record of the bytes exchanged, and the count of free
values; nothing of the block. -/
theorem State.wireFrame_eq (bytes : List Byte) (s : State) :
    ∃ io d, s.wireFrame bytes = { s with
      peer := (bytes.foldl (fun r b => r.onXfer s.params b) s.peer.onCsnLow).onCsnHigh s.params
      exchanged := io
      draws := d } ∧ io.map Prod.fst = bytes := by
  obtain ⟨io, d, h, hio⟩ := State.slots_eq bytes ({ s with peer := s.peer.onCsnLow, exchanged := [] } : State)
  exact ⟨io, d, by simp [State.wireFrame, h], hio⟩

/-! ### A step -/

/-- An operation of the host port decodes to a host operation, a transaction to a wire row. -/
theorem decode_isHost {o : Offer} {i : Instr} (h : decode o = .ok i) :
    i.isHost = (match o with
      | .host _ => true
      | .wire _ => false) := by
  cases o with
  | host r =>
    simp only [decode, decodeRequest] at h
    split at h <;> (try cases h) <;> (try rfl) <;>
      (simp only [decodePayload] at h; split at h <;> cases h; rfl)
  | wire frame =>
    cases frame with
    | nil => cases h
    | cons b slots =>
      cases hc : decodeCmd b with
      | none => simp [decode, decodeFrame, hc] at h
      | some c =>
        have h' : decodeSlots b slots c = .ok i := by simpa [decode, decodeFrame, hc] using h
        cases c <;> simp only [decodeSlots] at h' <;> split at h' <;> cases h' <;> rfl

/-- Everything that can be taken next: nothing, a transaction on the bench, or, with the bench empty, the host's first
offer. -/
theorem State.nextOffer_cases (s : State) :
    (s.bench = [] ∧ s.offers = [] ∧ s.nextOffer = none) ∨
    (∃ frame rest, s.bench = frame :: rest ∧ s.nextOffer = some (.wire frame, { s with bench := rest })) ∨
    (∃ r rest, s.bench = [] ∧ s.offers = r :: rest ∧ s.nextOffer = some (.host r, { s with offers := rest })) := by
  unfold State.nextOffer
  cases hb : s.bench with
  | cons frame rest => exact .inr (.inl ⟨frame, rest, rfl, rfl⟩)
  | nil =>
    cases ho : s.offers with
    | nil => exact .inl ⟨rfl, rfl, rfl⟩
    | cons r rest => exact .inr (.inr ⟨r, rest, rfl, rfl, rfl⟩)

/-- Taking an offer changes what waits, and nothing else; it puts nothing on the bench. -/
theorem State.nextOffer_eq {s t : State} {o : Offer} (h : s.nextOffer = some (o, t)) :
    ∃ offers bench, t = { s with offers := offers, bench := bench } ∧ (bench = s.bench ∨ bench = s.bench.tail) := by
  rcases s.nextOffer_cases with ⟨_, _, e⟩ | ⟨f, rest, hb, e⟩ | ⟨r, rest, hb, _, e⟩ <;> rw [e] at h
  · cases h
  · cases h; exact ⟨_, _, rfl, .inr (by rw [hb]; rfl)⟩
  · cases h; exact ⟨_, _, rfl, .inl rfl⟩

/-- An instruction starts as an operation where it is a host operation that passes its checks. -/
theorem State.starts_iff {i : Instr} {s : State} :
    s.starts i = true ↔ i.isHost = true ∧ acceptCheck i s.mode = none := by
  simp [State.starts]

/-- Everything a step can do: a micro-op of the operation in progress; wait; accept an operation; the whole effect of an
instruction that is no operation or is refused at acceptance; turn away what is no instruction. -/
theorem step_cases (s : State) :
    (s.busy = true ∧ step s = .next s.microStep) ∨
    (s.busy = false ∧ s.bench = [] ∧ s.offers = [] ∧ step s = .next s) ∨
    (∃ o t i, s.busy = false ∧ s.nextOffer = some (o, t) ∧ decode o = .ok i ∧ i.isHost = true ∧
      acceptCheck i t.mode = none ∧ step s = .next (t.accept i)) ∨
    (∃ o t i, s.busy = false ∧ s.nextOffer = some (o, t) ∧ decode o = .ok i ∧ t.starts i = false ∧ step s = exec i t) ∨
    (∃ o t r, s.busy = false ∧ s.nextOffer = some (o, t) ∧ decode o = .error r ∧ step s = t.rejectOffer r) := by
  unfold step State.fetch
  cases hb : s.busy with
  | true => exact .inl ⟨rfl, by simp⟩
  | false =>
    cases hn : s.nextOffer with
    | none =>
      rcases s.nextOffer_cases with ⟨h1, h2, _⟩ | ⟨f, rest, _, e⟩ | ⟨r, rest, _, _, e⟩
      · exact .inr (.inl ⟨rfl, h1, h2, by simp⟩)
      · simp [hn] at e
      · simp [hn] at e
    | some x =>
      obtain ⟨o, t⟩ := x
      cases hd : decode o with
      | ok i =>
        cases hs : t.starts i with
        | true =>
          obtain ⟨h1, h2⟩ := State.starts_iff.1 hs
          exact .inr (.inr (.inl ⟨o, t, i, rfl, rfl, hd, h1, h2, by simp [hd, hs]⟩))
        | false => exact .inr (.inr (.inr (.inl ⟨o, t, i, rfl, rfl, hd, hs, by simp [hd, hs]⟩)))
      | error r => exact .inr (.inr (.inr (.inr ⟨o, t, r, rfl, rfl, hd, by simp [hd]⟩)))

end Sys2Proof.Machine
end

