-- ==== Sys2Proof/Laws/Checks.lean ====
section
/-! SUPPORT. When an acceptance check passes, and how long a micro-sequence is. -/

namespace Sys2Proof.Machine

@[simp] theorem checkAddr_eq_none (addr : Byte) : checkAddr addr = none ↔ addr ≤ 0x1F := by
  by_cases h : addr ≤ 0x1F <;> simp [checkAddr, addrLegal]

@[simp] theorem checkLen_eq_none (n : Nat) : checkLen n = none ↔ n ≤ 32 := by
  by_cases h : n ≤ 32 <;> simp [checkLen, lenLegal, h]

@[simp] theorem checkTransmit_eq_none (n : Nat) (m : Mode) : checkTransmit n m = none ↔ n ≤ 32 ∧ m = .transmitMode := by
  by_cases h : n ≤ 32 <;> by_cases hm : m = .transmitMode <;> simp [checkTransmit, lenLegal, h, hm]

/-- The only statuses of the acceptance checks. -/
theorem acceptCheck_status {i : Instr} {m : Mode} {st : Status} (h : acceptCheck i m = some st) :
    st = .invalidArgument ∨ st = .wrongMode := by
  cases i <;> simp only [acceptCheck, checkAddr, checkLen, checkTransmit] at h <;> (try split at h) <;>
    (try split at h) <;> simp_all

theorem txn_length (cmd : Byte) (outs : List Byte) (nIn : Nat) (act : ModeAct) :
    (txn cmd outs nIn act).length = 3 + outs.length + nIn := by
  simp [txn]; omega

theorem microSeq_length_readRxPayload (p : Params) (len : Byte) :
    (microSeq p (.readRxPayload len)).length = 3 + len.toNat := by
  show (txn _ _ _ _).length = _
  rw [txn_length]; rfl

theorem microSeq_length_writeTxPayload (p : Params) (bytes : List Byte) :
    (microSeq p (.writeTxPayload bytes)).length = 3 + bytes.length := by
  show (txn _ _ _ _).length = _
  rw [txn_length]; rfl

theorem microSeq_length_transmitOne (p : Params) (bytes : List Byte) :
    (microSeq p (.transmitOne bytes)).length = 6 + bytes.length := by
  show (txn _ _ _ _ ++ _).length = _
  rw [List.length_append, txn_length]; simp; omega

end Sys2Proof.Machine
end

