-- ==== Sys2Proof/Laws/Peer.lean ====
section
/-! SUPPORT. What a whole transaction does to the reference peer, once for each command: from the chip-select fall over
its bytes to the chip-select rise (spec/20_memory.md R57). -/

namespace Sys2Proof.Machine

/-- A transaction at the peer. -/
def Peer.transaction (p : Params) (bytes : List Byte) (r : Peer) : Peer :=
  (bytes.foldl (fun r b => r.onXfer p b) r.onCsnLow).onCsnHigh p

theorem decodeCmd_rRegister (a : RegAddr) : decodeCmd (encodeCmd (.rRegister a)) = some (.rRegister a) := by
  revert a; decide

theorem decodeCmd_wRegister (a : RegAddr) : decodeCmd (encodeCmd (.wRegister a)) = some (.wRegister a) := by
  revert a; decide

/-- A register write puts its byte into its register. -/
theorem Peer.transaction_wRegister (p : Params) (r : Peer) (a : RegAddr) (v : Byte) :
    r.transaction p [encodeCmd (.wRegister a), v] =
      { r with regs := Memory.write p r.regs a v, frame := none } := by
  simp [Peer.transaction, Peer.onCsnLow, Peer.onXfer, Peer.onCommand, decodeCmd_wRegister, Peer.onData, Peer.onCsnHigh]

/-- A register read leaves the peer. -/
theorem Peer.transaction_rRegister (p : Params) (r : Peer) (a : RegAddr) (v : Byte) :
    r.transaction p [encodeCmd (.rRegister a), v] = { r with frame := none } := by
  simp [Peer.transaction, Peer.onCsnLow, Peer.onXfer, Peer.onCommand, decodeCmd_rRegister, Peer.onData, Peer.onCsnHigh]

/-- The data bytes of `W_TX_PAYLOAD` build the entry. -/
theorem Peer.data_wTxPayload (p : Params) (bytes : List Byte) (r : Peer) (k : Nat) (build : List Byte)
    (h : r.frame = some { cmd := some .wTxPayload, pos := k + 1, build := build }) :
    bytes.foldl (fun r b => r.onXfer p b) r =
      { r with frame := some { cmd := some .wTxPayload, pos := k + 1 + bytes.length, build := build ++ bytes } } := by
  induction bytes generalizing r k build with
  | nil => simp [← h]
  | cons b bs ih =>
    rw [List.foldl_cons, ih _ (k + 1) (build ++ [b]) (by simp [Peer.onXfer, h, Peer.onData])]
    simp [Peer.onXfer, h, Peer.onData]; omega

/-- A payload written is queued if there is room. -/
theorem Peer.transaction_wTxPayload (p : Params) (r : Peer) (bytes : List Byte) :
    r.transaction p (encodeCmd .wTxPayload :: bytes) =
      { r with
        txFifo := if r.txFifo.length < p.fifoDepth then r.txFifo ++ [bytes] else r.txFifo
        frame := none } := by
  have hd : decodeCmd (encodeCmd .wTxPayload) = some .wTxPayload := by decide
  unfold Peer.transaction
  rw [List.foldl_cons, Peer.data_wTxPayload p bytes _ 0 [] (by simp [Peer.onCsnLow, Peer.onXfer, Peer.onCommand, hd])]
  simp [Peer.onCsnLow, Peer.onXfer, Peer.onCommand, hd, Peer.onCsnHigh]

/-- The data slots of `R_RX_PAYLOAD` only count. -/
theorem Peer.data_rRxPayload (p : Params) (bytes : List Byte) (r : Peer) (k : Nat) (build : List Byte)
    (h : r.frame = some { cmd := some .rRxPayload, pos := k + 1, build := build }) :
    bytes.foldl (fun r b => r.onXfer p b) r =
      { r with frame := some { cmd := some .rRxPayload, pos := k + 1 + bytes.length, build := build } } := by
  induction bytes generalizing r k with
  | nil => simp [← h]
  | cons b bs ih =>
    rw [List.foldl_cons, ih _ (k + 1) (by simp [Peer.onXfer, h, Peer.onData])]
    simp [Peer.onXfer, h, Peer.onData]; omega

/-- A payload read is removed if a data slot was read and the peer pops on a read. -/
theorem Peer.transaction_rRxPayload (p : Params) (r : Peer) (bytes : List Byte) :
    r.transaction p (encodeCmd .rRxPayload :: bytes) =
      { r with
        rxFifo := if 1 ≤ bytes.length ∧ p.rxPopOnRead = true then r.rxFifo.tail else r.rxFifo
        frame := none } := by
  have hd : decodeCmd (encodeCmd .rRxPayload) = some .rRxPayload := by decide
  unfold Peer.transaction
  rw [List.foldl_cons, Peer.data_rRxPayload p bytes _ 0 [] (by simp [Peer.onCsnLow, Peer.onXfer, Peer.onCommand, hd])]
  simp only [Peer.onCsnLow, Peer.onXfer, Peer.onCommand, hd, Peer.onCsnHigh]
  cases bytes with
  | nil => simp
  | cons b bs => simp [show 2 ≤ 1 + (bs.length + 1) by omega]

theorem Peer.transaction_flushRx (p : Params) (r : Peer) :
    r.transaction p [encodeCmd .flushRx] = { r with rxFifo := [], frame := none } := by
  have hd : decodeCmd (encodeCmd .flushRx) = some .flushRx := by decide
  simp [Peer.transaction, Peer.onCsnLow, Peer.onXfer, Peer.onCommand, hd, Peer.onCsnHigh]

theorem Peer.transaction_flushTx (p : Params) (r : Peer) :
    r.transaction p [encodeCmd .flushTx] = { r with txFifo := [], frame := none } := by
  have hd : decodeCmd (encodeCmd .flushTx) = some .flushTx := by decide
  simp [Peer.transaction, Peer.onCsnLow, Peer.onXfer, Peer.onCommand, hd, Peer.onCsnHigh]

theorem Peer.transaction_reuseTxPl (p : Params) (r : Peer) :
    r.transaction p [encodeCmd .reuseTxPl] = { r with frame := none } := by
  have hd : decodeCmd (encodeCmd .reuseTxPl) = some .reuseTxPl := by decide
  simp [Peer.transaction, Peer.onCsnLow, Peer.onXfer, Peer.onCommand, hd, Peer.onCsnHigh]

theorem Peer.transaction_nop (p : Params) (r : Peer) :
    r.transaction p [encodeCmd .nop] = { r with frame := none } := by
  have hd : decodeCmd (encodeCmd .nop) = some .nop := by decide
  simp [Peer.transaction, Peer.onCsnLow, Peer.onXfer, Peer.onCommand, hd, Peer.onCsnHigh]

end Sys2Proof.Machine
end

