-- ==== Sys2Proof/Laws/PerInstr.lean ====
section
/-! SUPPORT. One fact per instruction: the encoder gives it its row of spec/opcode_table.json. -/

namespace Sys2Proof.Laws

/-- A row of spec/opcode_table.json: whether it is a host row, its mask and its match. -/
structure Row where
  host  : Bool
  mask  : Byte
  value : Byte
  deriving DecidableEq, Repr

/-- The level of an offer and the word that says which row it is: a host offer's operation code, a transaction's command
byte (spec/30_encoding.md R84, R95). -/
def rowWord : Offer → Option (Bool × Byte)
  | .host r => some (true, r.op.setWidth 8)
  | .wire [] => none
  | .wire (b :: _) => some (false, b)

/-- The opcode table, row by row. -/
def tableRow : Instr → Row
  | .cmdRRegister _ => ⟨false, 0xE0, 0x00⟩
  | .cmdWRegister _ _ => ⟨false, 0xE0, 0x20⟩
  | .cmdRRxPayload _ => ⟨false, 0xFF, 0x61⟩
  | .cmdWTxPayload _ => ⟨false, 0xFF, 0xA0⟩
  | .cmdFlushTx => ⟨false, 0xFF, 0xE1⟩
  | .cmdFlushRx => ⟨false, 0xFF, 0xE2⟩
  | .cmdReuseTxPl => ⟨false, 0xFF, 0xE3⟩
  | .cmdNop => ⟨false, 0xFF, 0xFF⟩
  | .init => ⟨true, 0xF, 0x0⟩
  | .configureReceiveMode => ⟨true, 0xF, 0x1⟩
  | .configureTransmitMode => ⟨true, 0xF, 0x2⟩
  | .readRxPayload _ => ⟨true, 0xF, 0x3⟩
  | .writeTxPayload _ => ⟨true, 0xF, 0x4⟩
  | .transmitOne _ => ⟨true, 0xF, 0x5⟩
  | .writeRegister _ _ => ⟨true, 0xF, 0x6⟩
  | .readRegister _ => ⟨true, 0xF, 0x7⟩
  | .flushRx => ⟨true, 0xF, 0x8⟩
  | .flushTx => ⟨true, 0xF, 0x9⟩
  | .writeRegisterVerified _ _ => ⟨true, 0xF, 0xA⟩

/-- The word an instruction encodes to is at its row's level and matches its row. -/
def TableRow.Statement (i : Instr) : Prop :=
  ∃ w, rowWord (encode i) = some ((tableRow i).host, w) ∧ w &&& (tableRow i).mask = (tableRow i).value

theorem TableRow.cmdRRegister (a : RegAddr) : TableRow.Statement (.cmdRRegister a) :=
  ⟨_, rfl, by revert a; decide⟩

theorem TableRow.cmdWRegister (a : RegAddr) (value : Byte) : TableRow.Statement (.cmdWRegister a value) :=
  ⟨_, rfl, by simp only [tableRow]; revert a; decide⟩

theorem TableRow.cmdRRxPayload (n : Nat) : TableRow.Statement (.cmdRRxPayload n) := ⟨_, rfl, by simp [encodeCmd, tableRow]⟩

theorem TableRow.cmdWTxPayload (bytes : List Byte) : TableRow.Statement (.cmdWTxPayload bytes) := ⟨_, rfl, by simp [encodeCmd, tableRow]⟩

theorem TableRow.cmdFlushTx : TableRow.Statement .cmdFlushTx := ⟨_, rfl, rfl⟩

theorem TableRow.cmdFlushRx : TableRow.Statement .cmdFlushRx := ⟨_, rfl, rfl⟩

theorem TableRow.cmdReuseTxPl : TableRow.Statement .cmdReuseTxPl := ⟨_, rfl, rfl⟩

theorem TableRow.cmdNop : TableRow.Statement .cmdNop := ⟨_, rfl, rfl⟩

theorem TableRow.init : TableRow.Statement .init := ⟨_, rfl, rfl⟩

theorem TableRow.configureReceiveMode : TableRow.Statement .configureReceiveMode := ⟨_, rfl, rfl⟩

theorem TableRow.configureTransmitMode : TableRow.Statement .configureTransmitMode := ⟨_, rfl, rfl⟩

theorem TableRow.readRxPayload (len : Byte) : TableRow.Statement (.readRxPayload len) := ⟨_, rfl, by simp [requestOf, tableRow]⟩

theorem TableRow.writeTxPayload (bytes : List Byte) : TableRow.Statement (.writeTxPayload bytes) := ⟨_, rfl, by simp [requestOf, tableRow]⟩

theorem TableRow.transmitOne (bytes : List Byte) : TableRow.Statement (.transmitOne bytes) := ⟨_, rfl, by simp [requestOf, tableRow]⟩

theorem TableRow.writeRegister (addr value : Byte) : TableRow.Statement (.writeRegister addr value) := ⟨_, rfl, by simp [requestOf, tableRow]⟩

theorem TableRow.readRegister (addr : Byte) : TableRow.Statement (.readRegister addr) := ⟨_, rfl, by simp [requestOf, tableRow]⟩

theorem TableRow.flushRx : TableRow.Statement .flushRx := ⟨_, rfl, rfl⟩

theorem TableRow.flushTx : TableRow.Statement .flushTx := ⟨_, rfl, rfl⟩

theorem TableRow.writeRegisterVerified (addr value : Byte) : TableRow.Statement (.writeRegisterVerified addr value) :=
  ⟨_, rfl, by simp [requestOf, tableRow]⟩

end Sys2Proof.Laws
end

