-- ==== Sys2Proof/Laws/Sequences.lean ====
section
/-! SUPPORT. The run of a transaction whose transfers are answered with bytes, and the reference peer along a trace. -/

namespace Sys2Proof.Machine

/-! ### The reference peer along a trace -/

theorem Peer.follow_append (p : Params) (ce : Level) (es fs : List Event) (r : Peer) :
    Peer.follow p ce (es ++ fs) r =
      Peer.follow p (es.foldl (fun l e => e.ceAfter l) ce) fs (Peer.follow p ce es r) := by
  induction es generalizing ce r with
  | nil => rfl
  | cons e es ih => simp [Peer.follow, ih]

/-- Transfers leave the CE level. -/
theorem ceAfter_xfers (mosi miso : List Byte) (ce : Level) :
    (List.zipWith Event.xfer mosi miso).foldl (fun l e => e.ceAfter l) ce = ce := by
  induction mosi generalizing miso with
  | nil => simp
  | cons b bs ih =>
    cases miso with
    | nil => simp
    | cons m ms => simpa [Event.ceAfter] using ih ms

/-- Along transfers the peer reacts to each byte shifted out. -/
theorem Peer.follow_xfers (p : Params) (ce : Level) (mosi miso : List Byte) (h : miso.length = mosi.length) (r : Peer) :
    Peer.follow p ce (List.zipWith Event.xfer mosi miso) r = mosi.foldl (fun r b => r.onXfer p b) r := by
  induction mosi generalizing miso r with
  | nil => simp [Peer.follow]
  | cons b bs ih =>
    cases miso with
    | nil => simp at h
    | cons m ms =>
      simp only [List.zipWith_cons_cons, Peer.follow, List.foldl_cons, Peer.react, Event.ceAfter]
      exact ih ms (by simpa using h) _

/-- A transaction leaves the CE level. -/
theorem ceAfter_frame (mosi miso : List Byte) (ce : Level) :
    (frameTrace mosi miso).foldl (fun l e => e.ceAfter l) ce = ce := by
  simp only [frameTrace, List.foldl_cons, List.foldl_append, ceAfter_xfers]
  rfl

/-- Along a transaction the peer reacts from the chip-select fall to its rise. -/
theorem Peer.follow_frame (p : Params) (ce : Level) (mosi miso : List Byte) (h : miso.length = mosi.length) (r : Peer) :
    Peer.follow p ce (frameTrace mosi miso) r =
      (mosi.foldl (fun r b => r.onXfer p b) r.onCsnLow).onCsnHigh p := by
  simp only [frameTrace, Peer.follow, Peer.follow_append, ceAfter_xfers, Peer.follow_xfers p _ mosi miso h]
  rfl

/-! ### A transaction on a bus that answers with bytes -/

theorem State.micro_out_byte {b m : Byte} {s : State} {rest : List Answer} (h : s.answers = .byte m :: rest) :
    s.micro (.out b) = .done ((({ s with answers := rest } : State).shifted b m).completed .keep) := by
  simp only [State.micro, State.outByte, State.spiXfer_byte h]

theorem State.micro_recv_byte {m : Byte} {s : State} {rest : List Answer} (h : s.answers = .byte m :: rest) :
    s.micro .recv = .done
      (({ ({ s with answers := rest } : State).shifted s.params.fillByte m with rxbuf := s.rxbuf ++ [m] } : State).completed
        .keep) := by
  simp only [State.micro, State.inByte, State.spiXfer_byte h, State.shifted_rxbuf]

/-- `Out` micro-ops answered with bytes. -/
theorem State.runMicros_outs (bs ms : List Byte) (next : List Micro) (s : State) (rest : List Answer)
    (hl : ms.length = bs.length) (ha : s.answers = ms.map Answer.byte ++ rest) :
    State.runMicros (bs.map Micro.out ++ next) s = State.runMicros next { s with
      upc := s.upc + BitVec.ofNat 6 bs.length
      answers := rest
      trace := s.trace ++ List.zipWith Event.xfer bs ms
      peer := bs.foldl (fun r b => r.onXfer s.params b) s.peer } := by
  induction bs generalizing ms s with
  | nil =>
    have hm : ms = [] := List.length_eq_zero_iff.1 (by simpa using hl)
    subst hm
    have ha' : s.answers = rest := by simpa using ha
    simp [← ha']
  | cons b bs ih =>
    cases ms with
    | nil => simp at hl
    | cons m ms =>
      have ha' : s.answers = .byte m :: (ms.map Answer.byte ++ rest) := by simpa using ha
      rw [List.map_cons, List.cons_append, State.runMicros_cons_done (State.micro_out_byte ha'),
        ih ms _ (by simpa using hl) (by simp)]
      congr 1
      simp only [State.completed, State.shifted, ModeAct.apply, List.length_cons, List.zipWith_cons_cons,
        List.foldl_cons, List.append_assoc, List.cons_append, List.nil_append, State.mk.injEq, true_and, and_true]
      rw [BitVec.add_assoc]
      congr 1
      rw [Nat.add_comm, BitVec.ofNat_add]; rfl

/-- `In` micro-ops answered with bytes. -/
theorem State.runMicros_recvs (ms : List Byte) (next : List Micro) (s : State) (rest : List Answer)
    (ha : s.answers = ms.map Answer.byte ++ rest) :
    State.runMicros (List.replicate ms.length Micro.recv ++ next) s = State.runMicros next { s with
      upc := s.upc + BitVec.ofNat 6 ms.length
      rxbuf := s.rxbuf ++ ms
      answers := rest
      trace := s.trace ++ List.zipWith Event.xfer (List.replicate ms.length s.params.fillByte) ms
      peer := (List.replicate ms.length s.params.fillByte).foldl (fun r b => r.onXfer s.params b) s.peer } := by
  induction ms generalizing s with
  | nil =>
    have ha' : s.answers = rest := by simpa using ha
    simp [← ha']
  | cons m ms ih =>
    have ha' : s.answers = .byte m :: (ms.map Answer.byte ++ rest) := by simpa using ha
    rw [List.length_cons, List.replicate_succ, List.cons_append,
      State.runMicros_cons_done (State.micro_recv_byte ha'), ih _ (by simp)]
    congr 1
    simp only [State.completed, State.shifted, ModeAct.apply, List.replicate_succ,
      List.zipWith_cons_cons, List.foldl_cons, List.append_assoc, List.cons_append, List.nil_append, State.mk.injEq,
      true_and, and_true]
    rw [BitVec.add_assoc]
    congr 1
    rw [Nat.add_comm, BitVec.ofNat_add]; rfl

/-- THE TRANSACTION, once: `Txn(cmd, outs, n_in)` whose transfers are answered with bytes runs to its end, with its
events, its bytes received, the peer's reaction and what it does to `mode`. -/
theorem State.runMicros_txn (cmd mcmd : Byte) (outs mouts mins : List Byte) (act : ModeAct) (next : List Micro)
    (s : State) (rest : List Answer) (hl : mouts.length = outs.length)
    (ha : s.answers = (mcmd :: (mouts ++ mins)).map Answer.byte ++ rest) :
    State.runMicros (txn cmd outs mins.length act ++ next) s = State.runMicros next { s with
      mode := act.apply s.mode
      csn := .high
      upc := s.upc + BitVec.ofNat 6 (3 + outs.length + mins.length)
      rxbuf := s.rxbuf ++ mins
      answers := rest
      trace := s.trace ++ frameTrace (cmd :: (outs ++ List.replicate mins.length s.params.fillByte)) (mcmd :: (mouts ++ mins))
      peer := ((cmd :: (outs ++ List.replicate mins.length s.params.fillByte)).foldl
        (fun r b => r.onXfer s.params b) s.peer.onCsnLow).onCsnHigh s.params } := by
  have ha' : s.answers = .byte mcmd :: (mouts.map Answer.byte ++ (mins.map Answer.byte ++ rest)) := by simpa using ha
  unfold txn
  rw [List.cons_append, State.runMicros_cons_done rfl, List.cons_append,
    State.runMicros_cons_done (State.micro_out_byte (s := s.csnFall.completed .keep) ha'),
    List.append_assoc, State.runMicros_outs outs mouts _ _ _ hl rfl, List.append_assoc,
    State.runMicros_recvs mins _ _ rest rfl, List.cons_append, State.runMicros_cons_done rfl, List.nil_append]
  congr 1
  simp only [State.completed, State.shifted, State.csnFall, State.csnRise, ModeAct.apply, frameTrace,
    List.foldl_cons, List.foldl_append, List.zipWith_cons_cons, List.zipWith_append hl.symm, List.append_assoc,
    List.cons_append, List.nil_append, State.mk.injEq, true_and, and_true]
  rw [show (3 + outs.length + mins.length) = 1 + 1 + outs.length + mins.length + 1 by omega]
  simp only [BitVec.ofNat_add, BitVec.add_assoc]
  rfl

end Sys2Proof.Machine
end

