-- ==== Sys2Proof/Laws/Runs.lean ====
section
/-! SUPPORT. What a run does to the reference peer and to the lines: along its own events whatever the bus answers, and,
on a bus that neither fails nor hangs, as a function of the micro-sequence alone. -/

namespace Sys2Proof.Machine

/-- An operation at rest that passes its checks runs its micro-sequence. -/
theorem exec_runs {i : Instr} {s : State} (hi : i.isHost = true) (hb : s.busy = false)
    (hc : acceptCheck i s.mode = none) :
    exec i s = .next (State.runMicros (microSeq s.params i) (s.accept i)) := by
  rcases exec_cases i s with h | ⟨_, _, st, h, _⟩ | h | h
  · simp [hb] at h
  · simp [hc] at h
  · exact h.2.2.2
  · simp [hi] at h

/-! ### Along the events -/

/-- The events between two states, with what the reference peer and CE make of them. -/
def State.follows (s t : State) : Prop :=
  ∃ es, t.trace = s.trace ++ es ∧ t.peer = Peer.follow s.params s.ce es s.peer ∧
    t.ce = es.foldl (fun l e => e.ceAfter l) s.ce ∧ t.params = s.params

theorem State.follows_refl (s : State) : s.follows s := ⟨[], by simp, rfl, rfl, rfl⟩

theorem State.follows_trans {s t u : State} (h : s.follows t) (h' : t.follows u) : s.follows u := by
  obtain ⟨es, ht, hp, hc, hq⟩ := h
  obtain ⟨fs, ht', hp', hc', hq'⟩ := h'
  exact ⟨es ++ fs, by rw [ht', ht, List.append_assoc], by rw [hp', hp, hc, hq, Peer.follow_append],
    by rw [hc', hc, List.foldl_append], hq'.trans hq⟩

theorem State.follows_micro {m : Micro} {s t : State} (h : s.micro m = .done t) : s.follows t := by
  obtain ⟨e, he⟩ := State.micro_done h
  exact ⟨[e], he.trace, he.peer, he.ceAfter, he.params⟩

theorem State.follows_abort (s : State) (b : Byte) : s.follows (s.abort b) := by
  obtain ⟨-, -, -, -, -, -, hce, hp, -, -, -, -, -, htr, hpeer⟩ := State.abort_fields s b
  refine ⟨_, htr, ?_, ?_, hp⟩
  · rw [hpeer]; split <;> simp [Peer.follow, Peer.react]
  · rw [hce]; split <;> simp [Event.ceAfter]

theorem State.follows_finish (s : State) : s.follows s.finish := by
  obtain ⟨r, d, e⟩ := State.finish_eq s
  rw [e]; exact State.follows_refl s

/-- A run appends events, and the peer and CE follow them. -/
theorem State.follows_runMicros (ms : List Micro) (s : State) : s.follows (State.runMicros ms s) := by
  refine State.runMicros_induction (P := fun _ t => s.follows t) (Q := s.follows) ?_ ?_ ?_ ?_ ms s s.follows_refl
  · exact fun _ _ _ _ h hm => State.follows_trans h (State.follows_micro hm)
  · intro _ _ _ _ h hm
    obtain ⟨b, rest, _, _, rfl⟩ := State.micro_aborted hm
    exact State.follows_trans h (State.follows_abort _ b)
  · exact fun _ _ _ h _ => h
  · exact fun _ h => State.follows_trans h (State.follows_finish _)

/-- Where the events of a run are known, so is the peer. -/
theorem State.peer_of_trace {s t : State} {es : List Event} (h : s.follows t) (ht : t.trace = s.trace ++ es) :
    t.peer = Peer.follow s.params s.ce es s.peer := by
  obtain ⟨fs, hf, hp, -, -⟩ := h
  rw [hf] at ht
  rw [hp, List.append_cancel_left ht]

/-! ### On a bus that neither fails nor hangs -/

/-- The reference peer's reaction to a completed micro-op: the byte shifted in plays no part. -/
def Micro.reactPeer (p : Params) (ce : Level) (m : Micro) (r : Peer) : Peer :=
  match m with
  | .csnLow => r.onCsnLow
  | .csnHigh _ => r.onCsnHigh p
  | .ce l _ => if ce = .low ∧ l = .high then r.onCeRise p else r
  | .out b => r.onXfer p b
  | .recv => r.onXfer p p.fillByte
  | .dwell => r

/-- The CE level after a micro-op. -/
def Micro.ceAfter (m : Micro) (ce : Level) : Level :=
  match m with
  | .csnLow => ce
  | .csnHigh _ => ce
  | .ce l _ => l
  | .out _ => ce
  | .recv => ce
  | .dwell => ce

/-- The reference peer's reaction to completed micro-ops in order. -/
def peerAfter (p : Params) : List Micro → Level → Peer → Peer
  | [], _, r => r
  | m :: ms, ce, r => peerAfter p ms (m.ceAfter ce) (m.reactPeer p ce r)

theorem State.micro_reactPeer {m : Micro} {s t : State} (h : s.micro m = .done t) :
    t.peer = m.reactPeer s.params s.ce s.peer ∧ t.ce = m.ceAfter s.ce := by
  obtain ⟨e, he⟩ := State.micro_done h
  have hem := he.emits
  rw [he.peer, he.ceAfter]
  cases m <;> simp only [Micro.emits] at hem
  · subst hem; exact ⟨rfl, rfl⟩
  · subst hem; exact ⟨rfl, rfl⟩
  · subst hem; exact ⟨rfl, rfl⟩
  · obtain ⟨x, rfl⟩ := hem; exact ⟨rfl, rfl⟩
  · obtain ⟨x, rfl⟩ := hem; exact ⟨rfl, rfl⟩
  · obtain ⟨x, rfl, _⟩ := hem; exact ⟨rfl, rfl⟩

/-- A run on a good bus comes to its end, with the peer, the lines and the mode that its micro-sequence gives. -/
theorem State.runMicros_good (ms : List Micro) (s : State) (h : s.busGood) :
    ∃ u : State, State.runMicros ms s = u.finish ∧ u.peer = peerAfter s.params ms s.ce s.peer ∧
      ({ csn := u.csn, ce := u.ce, mode := u.mode } : Lines) =
        linesAfter ms { csn := s.csn, ce := s.ce, mode := s.mode } ∧
      u.cur = s.cur ∧ u.params = s.params ∧ u.busFault = s.busFault ∧ u.busGood := by
  induction ms generalizing s with
  | nil => exact ⟨s, rfl, rfl, rfl, rfl, rfl, rfl, h⟩
  | cons m ms ih =>
    obtain ⟨t, ht, hg⟩ := State.micro_good (m := m) h
    obtain ⟨u, h1, h2, h3, h4, h5, h6, h7⟩ := ih t hg
    obtain ⟨e, he⟩ := State.micro_done ht
    obtain ⟨r1, r2⟩ := State.micro_reactPeer ht
    refine ⟨u, by rw [State.runMicros_cons_done ht, h1], by rw [h2, he.params, r1, r2]; rfl, ?_, by rw [h4, he.cur],
      by rw [h5, he.params], by rw [h6, he.busFault], h7⟩
    rw [h3]; exact congrArg (linesAfter ms) he.lines

theorem peerAfter_append (p : Params) (as bs : List Micro) (ce : Level) (r : Peer) :
    peerAfter p (as ++ bs) ce r = peerAfter p bs (as.foldl (fun c m => m.ceAfter c) ce) (peerAfter p as ce r) := by
  induction as generalizing ce r with
  | nil => rfl
  | cons m as ih => exact ih _ _

/-- A transaction leaves CE. -/
theorem ceAfter_txn (cmd : Byte) (outs : List Byte) (n : Nat) (act : ModeAct) (ce : Level) :
    (txn cmd outs n act).foldl (fun c m => m.ceAfter c) ce = ce := by
  have hr : (List.replicate n Micro.recv).foldl (fun c m => m.ceAfter c) ce = ce := by
    induction n with
    | zero => rfl
    | succ n ih => exact ih
  have ho : (outs.map Micro.out).foldl (fun c m => m.ceAfter c) ce = ce := by
    induction outs with
    | nil => rfl
    | cons b bs ih => exact ih
  show (outs.map Micro.out ++ (List.replicate n Micro.recv ++ [Micro.csnHigh act])).foldl (fun c m => m.ceAfter c) ce = ce
  rw [List.foldl_append, ho, List.foldl_append, hr]; rfl

/-- A transaction of the block is a transaction at the peer. -/
theorem peerAfter_txn (p : Params) (cmd : Byte) (outs : List Byte) (n : Nat) (act : ModeAct) (ce : Level) (r : Peer) :
    peerAfter p (txn cmd outs n act) ce r = r.transaction p (cmd :: (outs ++ List.replicate n p.fillByte)) := by
  have hr : ∀ r : Peer, peerAfter p (List.replicate n Micro.recv ++ [.csnHigh act]) ce r =
      ((List.replicate n p.fillByte).foldl (fun r b => r.onXfer p b) r).onCsnHigh p := by
    induction n with
    | zero => intro r; rfl
    | succ n ih => intro r; exact ih _
  have ho : ∀ r : Peer, peerAfter p (outs.map Micro.out ++ (List.replicate n Micro.recv ++ [.csnHigh act])) ce r =
      ((outs ++ List.replicate n p.fillByte).foldl (fun r b => r.onXfer p b) r).onCsnHigh p := by
    induction outs with
    | nil => exact hr
    | cons b bs ih => intro r; exact ih _
  exact ho _

/-- A transaction ends with CSN high and its act on the mode. -/
theorem linesAfter_txn (cmd : Byte) (outs : List Byte) (n : Nat) (act : ModeAct) (l : Lines) :
    linesAfter (txn cmd outs n act) l = { l with csn := .high, mode := act.apply l.mode } := by
  have hr : ∀ l : Lines, linesAfter (List.replicate n Micro.recv ++ [.csnHigh act]) l =
      { l with csn := .high, mode := act.apply l.mode } := by
    induction n with
    | zero => intro l; rfl
    | succ n ih => intro l; exact ih l
  have ho : ∀ l : Lines, linesAfter (outs.map Micro.out ++ (List.replicate n Micro.recv ++ [.csnHigh act])) l =
      { l with csn := .high, mode := act.apply l.mode } := by
    induction outs with
    | nil => exact hr
    | cons b bs ih => intro l; exact ih l
  exact ho { l with csn := .low }

theorem linesAfter_append (as bs : List Micro) (l : Lines) : linesAfter (as ++ bs) l = linesAfter bs (linesAfter as l) := by
  induction as generalizing l with
  | nil => rfl
  | cons m as ih => exact ih _

end Sys2Proof.Machine
end

