-- ==== Sys2Proof/Tests/Slice0.lean ====
section
/-! SUPPORT. Tests: well-formedness, decoding of words written out from spec/30_encoding.md, one-step tests whose expected
results are the vectors of spec/95_test_vectors.md, and for each obligation a witness of its hypotheses. -/

namespace Sys2Proof.Tests

open Sys2Proof Sys2Proof.Machine

/-- The example instance `EX` and peer of spec/95_test_vectors.md. -/
def ex : Params where
  enAaVal := 0x3F
  enRxaddrVal := 0x01
  setupRetrVal := 0x2F
  rfSetupVal := 0x06
  rfChVal := 0x4C
  fillByte := 0xFF
  rxPopOnRead := true
  fifoDepth := 3
  peerReset := Vector.replicate 32 0

/-- Reset with the example instance and a bus side that answers as listed, then as the peer. -/
def start (answers : List Answer) : State := { State.reset with params := ex, answers := answers }

/-- The rest state of `ReceiveMode`. -/
def receiving (answers : List Answer) : State := { start answers with mode := .receiveMode, ce := .high }

/-- The rest state of `TransmitMode`. -/
def transmitting (answers : List Answer) : State := { start answers with mode := .transmitMode }

/-- A state whose peer holds FIFO entries. -/
def holding (rx tx : List (List Byte)) (s : State) : State := { s with peer := { s.peer with rxFifo := rx, txFifo := tx } }

/-- The next state of an outcome, if it is one, seen through a view. -/
def view {α : Type} (f : State → α) (o : Host.Outcome State Fault Refusal) : Option α :=
  match o with
  | .next s => some (f s)
  | .fault _ => none
  | .refused _ => none

/-- A bus side that answers 0 `n` times. -/
def zeros (n : Nat) : List Answer := List.replicate n (.byte 0)

/-- `Xfer` events that all shifted 0 in. -/
def xfers (bytes : List Byte) : List Event := bytes.map fun b => .xfer b 0

/-- One frame whose transfers all shifted 0 in. -/
def frame (bytes : List Byte) : List Event := .csn .low :: (xfers bytes ++ [.csn .high])

/-! ### WellFormed -/

theorem test_wf_rx_slots : (Instr.cmdRRxPayload 33).wellFormed = false := by decide
theorem test_wf_tx_slots : (Instr.cmdWTxPayload (List.replicate 33 0)).wellFormed = false := by decide
theorem test_wf_write_length : (Instr.writeTxPayload (List.replicate 256 0)).wellFormed = false := by decide +kernel
theorem test_wf_transmit_length : (Instr.transmitOne (List.replicate 256 0)).wellFormed = false := by decide +kernel
theorem test_wf_boundary : ([.cmdRRxPayload 32, .cmdWTxPayload (List.replicate 32 0), .writeTxPayload (List.replicate 255 0),
    .transmitOne (List.replicate 33 0), .writeRegister 0x20 0] : List Instr).all Instr.wellFormed = true := by decide +kernel

/-! ### Decoding: words written out from R84 and R95 -/

theorem test_decode_cmdRRegister : decode (.wire [0b00010101, 0b11111111]) = .ok (.cmdRRegister 0b10101) := by rfl
theorem test_decode_cmdWRegister : decode (.wire [0b00100000, 0b00001011]) = .ok (.cmdWRegister 0b00000 0b00001011) := by rfl
theorem test_decode_cmdRRxPayload : decode (.wire [0b01100001, 0b11111111]) = .ok (.cmdRRxPayload 1) := by rfl
theorem test_decode_cmdWTxPayload :
    decode (.wire [0b10100000, 0b01001000, 0b01101001]) = .ok (.cmdWTxPayload [0b01001000, 0b01101001]) := by rfl
theorem test_decode_cmdFlushTx : decode (.wire [0b11100001]) = .ok .cmdFlushTx := by rfl
theorem test_decode_cmdFlushRx : decode (.wire [0b11100010]) = .ok .cmdFlushRx := by rfl
theorem test_decode_cmdReuseTxPl : decode (.wire [0b11100011]) = .ok .cmdReuseTxPl := by rfl
theorem test_decode_cmdNop : decode (.wire [0b11111111]) = .ok .cmdNop := by rfl
theorem test_decode_init : decode (.host ⟨0b0000, 0, 0, 0, []⟩) = .ok .init := by rfl
theorem test_decode_configureReceiveMode : decode (.host ⟨0b0001, 0, 0, 0, []⟩) = .ok .configureReceiveMode := by rfl
theorem test_decode_configureTransmitMode : decode (.host ⟨0b0010, 0, 0, 0, []⟩) = .ok .configureTransmitMode := by rfl
theorem test_decode_readRxPayload : decode (.host ⟨0b0011, 0, 0, 4, []⟩) = .ok (.readRxPayload 4) := by rfl
theorem test_decode_writeTxPayload : decode (.host ⟨0b0100, 0, 0, 2, [0x48, 0x69]⟩) = .ok (.writeTxPayload [0x48, 0x69]) := by rfl
theorem test_decode_transmitOne : decode (.host ⟨0b0101, 0, 0, 1, [0x48]⟩) = .ok (.transmitOne [0x48]) := by rfl
theorem test_decode_writeRegister : decode (.host ⟨0b0110, 0x05, 0x4C, 0, []⟩) = .ok (.writeRegister 0x05 0x4C) := by rfl
theorem test_decode_readRegister : decode (.host ⟨0b0111, 0x20, 0, 0, []⟩) = .ok (.readRegister 0x20) := by rfl
theorem test_decode_flushRx : decode (.host ⟨0b1000, 0, 0, 0, []⟩) = .ok .flushRx := by rfl
theorem test_decode_flushTx : decode (.host ⟨0b1001, 0, 0, 0, []⟩) = .ok .flushTx := by rfl
theorem test_decode_writeRegisterVerified :
    decode (.host ⟨0b1010, 0x04, 0x2F, 0, []⟩) = .ok (.writeRegisterVerified 0x04 0x2F) := by rfl

/-- V16 and V18. -/
theorem test_reserved_bytes :
    ([0x40, 0x60, 0x62, 0x9F, 0xA1, 0xE0, 0xE4, 0xFE] : List Byte).all (fun b => (decodeCmd b).isNone) = true ∧
    (((List.range 256).map (BitVec.ofNat 8)).filter fun b => (decodeCmd b).isNone).length = 186 := by decide +kernel

theorem test_reject_slots : decode (.wire [0x61, 0, 0]) = .ok (.cmdRRxPayload 2) ∧
    decode (.wire [0x00]) = .error (.wrongSlots 0x00 0) ∧ decode (.wire [0x3F, 1, 2]) = .error (.wrongSlots 0x3F 2) ∧
    decode (.wire [0xE1, 0]) = .error (.wrongSlots 0xE1 1) ∧ decode (.wire []) = .error .emptyFrame := by decide
theorem test_reject_long_payload : decode (.wire (0xA0 :: List.replicate 33 0)) = .error (.wrongSlots 0xA0 33) ∧
    decode (.wire (0x61 :: List.replicate 33 0)) = .error (.wrongSlots 0x61 33) := by decide
theorem test_reject_op : decode (.host ⟨11, 0, 0, 0, []⟩) = .error (.illegalOp 11) ∧
    decode (.host ⟨15, 0, 0, 0, []⟩) = .error (.illegalOp 15) := by decide
theorem test_reject_length : decode (.host ⟨4, 0, 0, 2, [1]⟩) = .error (.lengthMismatch 2 1) := by decide

/-! ### The words of the opcode table, and that a step from reset runs them -/

theorem test_table_wire : [0x20, 0x61, 0xA0, 0xE1, 0xE2, 0xE3, 0xFF].map (decodeTableWord 8) =
    [some (.cmdWRegister 0 0), some (.cmdRRxPayload 0), some (.cmdWTxPayload []), some .cmdFlushTx, some .cmdFlushRx,
      some .cmdReuseTxPl, some .cmdNop] := by decide
theorem test_table_rRegister : decodeTableWord 8 0x1F = some (.cmdRRegister 0x1F) := by decide
theorem test_table_host : (List.range 11).map (decodeTableWord 8) =
    [some .init, some .configureReceiveMode, some .configureTransmitMode, some (.readRxPayload 0),
      some (.writeTxPayload []), some (.transmitOne []), some (.writeRegister 0 0), some (.readRegister 0),
      some .flushRx, some .flushTx, some (.writeRegisterVerified 0 0)] := by decide
theorem test_fetch_wire : [0x1F, 0x20, 0x61, 0xA0, 0xE1, 0xE2, 0xE3, 0xFF].all (fun w =>
    (view (fun t => t.exchanged.head?.map Prod.fst) (step (State.reset.withFetchWord 8 w))) =
      some (some (BitVec.ofNat 8 w))) = true := by decide
theorem test_fetch_host : [0, 1, 2, 3, 4, 6, 7, 8, 9].all (fun w =>
    (view (fun t => (t.busy, some t.cur, t.upc, t.trace)) (step (State.reset.withFetchWord 8 w))) =
      some (true, decodeTableWord 8 w, 0, [])) = true := by decide
theorem test_fetch_transmit : view State.status? (step (State.reset.withFetchWord 8 5)) = some (some .wrongMode) := by decide

/-! ### One step: the vectors of spec/95_test_vectors.md -/

/-- V35. -/
theorem test_init_receiving : view (fun t => (t.mode, t.ce, t.trace, t.status?)) (exec .init (receiving [])) =
    some (.standby, .low, [.ce .low], some .ok) := by decide
/-- V34. -/
theorem test_init_reset : view (fun t => (t.mode, t.ce, t.trace)) (exec .init (start [])) =
    some (.powerDown, .low, [.ce .low]) := by decide
/-- V30. -/
theorem test_configureReceiveMode : view (fun t => (t.mode, t.csn, t.ce, t.trace, t.peer.regs))
    (exec .configureReceiveMode (start (zeros 12))) =
    some (.receiveMode, .high, .high,
      .ce .low :: (frame [0x20, 0x0B] ++ frame [0x21, 0x3F] ++ frame [0x22, 0x01] ++ frame [0x24, 0x2F] ++
        frame [0x26, 0x06] ++ frame [0x25, 0x4C] ++ [.ce .high]),
      [(0, 0x0B), (1, 0x3F), (2, 0x01), (4, 0x2F), (5, 0x4C), (6, 0x06)]) := by rfl
/-- V63. -/
theorem test_configureReceiveMode_fifth_fails : view (fun t => (t.mode, t.ce, t.busFault, t.status?, t.trace, t.peer.regs))
    (exec .configureReceiveMode (start (zeros 4 ++ [.fail]))) =
    some (.standby, .low, true, some .busTransportFailure,
      .ce .low :: (frame [0x20, 0x0B] ++ frame [0x21, 0x3F] ++ [.csn .low, .xferFail 0x22, .csn .high]),
      [(0, 0x0B), (1, 0x3F)]) := by rfl
/-- V32. -/
theorem test_configureTransmitMode : view (fun t => (t.mode, t.ce, t.trace.length, t.trace.getLast?, t.peer.regs))
    (exec .configureTransmitMode (receiving (zeros 12))) =
    some (.transmitMode, .low, 25, some (.csn .high),
      [(0, 0x0A), (1, 0x3F), (2, 0x01), (4, 0x2F), (5, 0x4C), (6, 0x06)]) := by rfl
/-- V64. -/
theorem test_configureTransmitMode_first_fails : view (fun t => (t.mode, t.ce, t.trace))
    (exec .configureTransmitMode (receiving [.fail])) =
    some (.standby, .low, [.ce .low, .csn .low, .xferFail 0x20, .csn .high]) := by decide
/-- V40. -/
theorem test_readRxPayload : view (fun t => (t.resp.map fun r => (r.status, r.rdata), t.peer.rxFifo))
    (exec (.readRxPayload 2) (holding [[0x48, 0x69]] [] (start []))) = some (some (.ok, [0x48, 0x69]), []) := by decide
/-- V45. -/
theorem test_readRxPayload_third_fails : view (fun t => (t.resp.map fun r => (r.status, r.rdata), t.busFault, t.trace))
    (exec (.readRxPayload 3) (start [.byte 1, .byte 2, .fail])) =
    some (some (.busTransportFailure, []), true,
      [.csn .low, .xfer 0x61 1, .xfer 0xFF 2, .xferFail 0xFF, .csn .high]) := by decide
/-- V46. -/
theorem test_writeTxPayload : view (fun t => (t.trace, t.status?, t.peer.txFifo, t.peer.air))
    (exec (.writeTxPayload [0x48, 0x69]) (start (zeros 3))) =
    some (frame [0xA0, 0x48, 0x69], some .ok, [[0x48, 0x69]], []) := by decide
/-- V54. -/
theorem test_writeTxPayload_full : view (fun t => (t.status?, t.peer.txFifo))
    (exec (.writeTxPayload [0x01]) (holding [] [[1], [2], [3]] (start []))) = some (some .ok, [[1], [2], [3]]) := by decide
/-- V36. -/
theorem test_transmitOne : view (fun t => (t.mode, t.ce, t.trace.length, t.peer.txFifo, t.peer.air))
    (exec (.transmitOne [0x48, 0x69]) { transmitting [] with peer := { Peer.atReset with regs := [(0, 0x0A)] } }) =
    some (.transmitMode, .low, 8, [[0x48, 0x69]], [[0x48, 0x69]]) := by rfl
/-- V37 and V39. -/
theorem test_transmitOne_receiving :
    view (fun t => (t.status?, t.ce, t.trace)) (exec (.transmitOne [0x48]) (receiving [])) =
      some (some .wrongMode, .high, []) ∧
    view State.status? (exec (.transmitOne (List.replicate 40 0)) (receiving [])) = some (some .invalidArgument) := by decide
/-- V21. -/
theorem test_writeRegister : view (fun t => (t.trace, t.status?, t.peer.regs))
    (exec (.writeRegister 0x1F 0xFF) (start (zeros 2))) = some (frame [0x3F, 0xFF], some .ok, [(0x1F, 0xFF)]) := by decide
/-- V27. -/
theorem test_writeRegister_second_fails : view (fun t => (t.trace, t.status?, t.busFault, t.csn))
    (exec (.writeRegister 0x05 0x4C) (start [.byte 0, .fail])) =
    some ([.csn .low, .xfer 0x25 0, .xferFail 0x4C, .csn .high], some .busTransportFailure, true, .high) := by decide
/-- V25. -/
theorem test_readRegister : view (fun t => (t.trace, t.resp)) (exec (.readRegister 0x00) (start [.byte 0xAA, .byte 0x55])) =
    some ([.csn .low, .xfer 0x00 0xAA, .xfer 0xFF 0x55, .csn .high], some ⟨.ok, 0x55, []⟩) := by decide
/-- V26. -/
theorem test_readRegister_illegal : view (fun t => (t.trace, t.status?)) (exec (.readRegister 0x20) (start [])) =
    some ([], some .invalidArgument) := by decide
/-- V50. -/
theorem test_flushRx : view (fun t => (t.trace, t.peer.rxFifo)) (exec .flushRx (holding [[1], [2]] [] (start (zeros 1)))) =
    some (frame [0xE2], []) := by decide
/-- V53. -/
theorem test_flushTx_fails : view (fun t => (t.trace, t.status?, t.busFault, t.peer.txFifo))
    (exec .flushTx (holding [] [[1]] (start [.fail]))) =
    some ([.csn .low, .xferFail 0xE1, .csn .high], some .busTransportFailure, true, [[1]]) := by decide
/-- V52. -/
theorem test_flushTx : view (fun t => (t.status?, t.peer.txFifo)) (exec .flushTx (holding [] [[1]] (start []))) =
    some (some .ok, []) := by decide
/-- V29. -/
theorem test_writeRegisterVerified : view (fun t => t.resp) (exec (.writeRegisterVerified 0x04 0x2F) (start [])) =
    some (some ⟨.ok, 0x2F, []⟩) := by decide
/-- V29a. -/
theorem test_writeRegisterVerified_dead_bus : view (fun t => (t.trace, t.resp))
    (exec (.writeRegisterVerified 0x04 0x2F) (start (zeros 4))) =
    some (frame [0x24, 0x2F] ++ frame [0x04, 0xFF], some ⟨.unconfirmedRadioState, 0x00, []⟩) := by decide
/-- The worked example of R114: bytes out `00 FF`, bytes in `_ 0B`. -/
theorem test_cmdRRegister : view (fun t => t.exchanged.getLast?)
    (exec (.cmdRRegister 0) { start [] with peer := { Peer.atReset with regs := [(0, 0x0B)] } }) =
    some (some (0xFF, 0x0B)) := by decide
/-- The worked example of R113. -/
theorem test_cmdWRegister : view (fun t => (t.peer.regs, t.exchanged.map Prod.fst)) (exec (.cmdWRegister 0 0x0B) (start [])) =
    some ([(0, 0x0B)], [0x20, 0x0B]) := by decide
/-- The worked example of R131. -/
theorem test_cmdRRxPayload : view (fun t => (t.exchanged.tail, t.peer.rxFifo))
    (exec (.cmdRRxPayload 2) (holding [[0x48, 0x69], [0x01]] [] (start []))) =
    some ([(0xFF, 0x48), (0xFF, 0x69)], [[0x01]]) := by decide
/-- The worked example of R133. -/
theorem test_cmdWTxPayload : view (fun t => (t.exchanged.map Prod.fst, t.peer.txFifo, t.peer.air))
    (exec (.cmdWTxPayload [0x48, 0x69]) (start [])) = some ([0xA0, 0x48, 0x69], [[0x48, 0x69]], []) := by decide
theorem test_cmdFlushTx : view (fun t => (t.exchanged.map Prod.fst, t.peer.rxFifo, t.peer.txFifo))
    (exec .cmdFlushTx (holding [[1]] [[2]] (start []))) = some ([0xE1], [[1]], []) := by decide
theorem test_cmdFlushRx : view (fun t => (t.exchanged.map Prod.fst, t.peer.rxFifo, t.peer.txFifo))
    (exec .cmdFlushRx (holding [[1]] [[2]] (start []))) = some ([0xE2], [], [[2]]) := by decide
theorem test_cmdReuseTxPl : view (fun t => (t.exchanged.map Prod.fst, t.peer.rxFifo, t.peer.txFifo))
    (exec .cmdReuseTxPl (holding [[1]] [[2]] (start []))) = some ([0xE3], [[1]], [[2]]) := by decide
theorem test_cmdNop : view (fun t => (t.exchanged.map Prod.fst, t.peer.rxFifo, t.peer.txFifo))
    (exec .cmdNop (holding [[1]] [[2]] (start []))) = some ([0xFF], [[1]], [[2]]) := by decide
/-- V19. -/
theorem test_illegal_op : view (fun t => (t.status?, t.trace, t.offers))
    (step { start [] with offers := [⟨11, 0, 0, 0, []⟩] }) = some (some .invalidArgument, [], []) := by decide
/-- V70. -/
theorem test_hang : view (fun t => (t.trace, t.busy, t.csn, t.upc, t.resp))
    (exec (.readRegister 0x07) (start [.byte 0, .never])) =
    some ([.csn .low, .xfer 0x07 0], true, .low, 2, none) := by decide

/-- D24: the first micro-op of `read_register` after its acceptance. -/
theorem test_micro_step : view (fun t => (t.busy, t.upc, t.csn, t.trace)) (step ((start []).accept (.readRegister 0x07))) =
    some (true, 1, .low, [.csn .low]) := by decide
/-- R201: the radio stays as it was. -/
theorem test_resetBlock : (fun s : State => (s.mode, s.ce, s.peer.regs)) ({ receiving [] with
    peer := { Peer.atReset with regs := [(0, 0x0B)] } } : State).resetBlock = (.powerDown, .low, [(0, 0x0B)]) := by decide

/-! ### Witnesses: states and operands that meet the hypotheses of each obligation, at the boundary values -/

/-- An operation in progress. -/
def running : State := (start []).accept (.readRegister 0x05)

/-- A bus side that answers with bytes and then fails. -/
def failsAt (k : Nat) : State := start (bytesFrom k (fun _ => 0) ++ [.fail])

theorem start_atRest (answers : List Answer) : (start answers).atRest :=
  ⟨rfl, rfl, rfl, rfl, by simp [ceDerived, start, State.reset]⟩
theorem receiving_atRest (answers : List Answer) : (receiving answers).atRest :=
  ⟨rfl, rfl, rfl, rfl, by simp [ceDerived, receiving]⟩

theorem witness_DecodeEncodeRoundTrip : (Instr.cmdRRxPayload 0).wellFormed = true ∧
    (Instr.cmdRRxPayload 32).wellFormed = true ∧ (Instr.cmdWTxPayload []).wellFormed = true := by decide
theorem witness_CommandByteRoundTrip : decodeCmd 0x00 = some (.rRegister 0) ∧ decodeCmd 0x1F = some (.rRegister 0x1F) ∧
    decodeCmd 0x20 = some (.wRegister 0) ∧ decodeCmd 0x3F = some (.wRegister 0x1F) ∧ decodeCmd 0xFF = some .nop := by decide
theorem witness_ReservedCommandBytesRefused : ∃ s : State, ∃ rest, s.busy = false ∧
    s.bench = (0x40 :: []) :: rest ∧ decodeCmd 0x40 = none ∧ decodeCmd 0xFE = none ∧ decodeCmd 0x3F ≠ none :=
  ⟨{ start [] with bench := [[0x40]] }, [], rfl, rfl, rfl, rfl, by decide⟩
theorem witness_DecodedTransactionLength : decode (.wire [0xE1]) = .ok .cmdFlushTx ∧
    decode (.wire (0xA0 :: List.replicate 32 0)) = .ok (.cmdWTxPayload (List.replicate 32 0)) := ⟨rfl, rfl⟩
theorem witness_StepRunsDecodedInstruction :
    (∃ s : State, ∃ r rest i, s.busy = false ∧ s.bench = [] ∧ s.offers = r :: rest ∧ decode (.host r) = .ok i ∧
      acceptCheck i s.mode = none) ∧
    (∃ s : State, ∃ r rest i, s.busy = false ∧ s.bench = [] ∧ s.offers = r :: rest ∧ decode (.host r) = .ok i ∧
      acceptCheck i s.mode ≠ none) ∧
    (∃ s : State, ∃ f rest i, s.busy = false ∧ s.bench = f :: rest ∧ decode (.wire f) = .ok i) ∧
    (∃ s : State, s.busy = false ∧ s.bench = [] ∧ s.offers = []) ∧ ∃ s : State, s.busy = true :=
  ⟨⟨{ start [] with offers := [⟨3, 0, 0, 32, []⟩] }, _, [], .readRxPayload 32, rfl, rfl, rfl, rfl, rfl⟩,
    ⟨{ start [] with offers := [⟨3, 0, 0, 33, []⟩] }, _, [], .readRxPayload 33, rfl, rfl, rfl, rfl, by decide⟩,
    ⟨{ start [] with bench := [[0xFF]] }, _, [], .cmdNop, rfl, rfl, rfl⟩, ⟨start [], rfl, rfl, rfl⟩, ⟨running, rfl⟩⟩
theorem witness_IllegalOperationCodeIsInvalidArgument : ∃ s : State, ∃ r r' : Request, s.busy = false ∧ s.bench = [] ∧
    s.offers = r :: [r'] ∧ r.op = 11 ∧ 11 ≤ r.op.toNat ∧ r'.op = 15 ∧ 11 ≤ r'.op.toNat :=
  ⟨{ start [] with offers := [⟨11, 0, 0, 0, []⟩, ⟨15, 0, 0, 0, []⟩] }, ⟨11, 0, 0, 0, []⟩, ⟨15, 0, 0, 0, []⟩,
    rfl, rfl, rfl, rfl, by decide, rfl, by decide⟩
theorem witness_BusyBlockAcceptsNothing : running.busy = true ∧ step running = .next running.microStep ∧
    (∃ r, encode .init = .host r) ∧ ∃ f, encode .cmdNop = .wire f := ⟨rfl, rfl, ⟨_, rfl⟩, _, rfl⟩
theorem witness_MicroSequenceLengths : acceptCheck (.transmitOne (List.replicate 32 0)) .transmitMode = none ∧
    acceptCheck (.readRxPayload 32) .powerDown = none ∧ acceptCheck (.readRxPayload 0) .powerDown = none := by decide
theorem witness_ExecIsItsMicroSteps : ∃ s : State, ∃ r r' : Request, s.busy = false ∧ s.bench = [] ∧
    s.offers = r :: [r'] ∧ decode (.host r) = .ok (.transmitOne (List.replicate 32 0)) ∧
    decode (.host r') = .ok (.readRegister 0x20) ∧ acceptCheck (.transmitOne (List.replicate 32 0)) s.mode = none :=
  ⟨{ transmitting [] with offers := [⟨5, 0, 0, 32, List.replicate 32 0⟩, ⟨7, 0x20, 0, 0, []⟩] }, _, _, rfl, rfl, rfl, rfl,
    rfl, rfl⟩
theorem running_inOperation : running.inOperation :=
  ⟨rfl, rfl, by decide, .low, .powerDown, by simp [ceDerived], rfl, rfl⟩
theorem witness_UpcOnlyAdvances : running.inOperation ∧ ∃ s : State, ∃ r rest, s.busy = false ∧ s.bench = [] ∧
    s.offers = r :: rest ∧ decode (.host r) = .ok .init ∧ acceptCheck .init s.mode = none :=
  ⟨running_inOperation, { start [] with offers := [⟨0, 0, 0, 0, []⟩] }, _, [], rfl, rfl, rfl, rfl, rfl⟩
theorem witness_ResetOfBlockAlone : (receiving [.byte 0]).busGood := by simp [State.busGood, receiving, start]
theorem witness_FiniteRunsEnd : ∃ s : State, s.bench = [] ∧ s.offers ≠ [] ∧ s.busGood ∧
    (∀ r ∈ s.offers, ∀ len given, decode (.host r) ≠ .error (.lengthMismatch len given)) ∧
    ∃ t, Sys2Proof.core.run 3 s.resetBlock = .next t ∧ t.busy = false ∧ t.offers = [] := by
  refine ⟨{ receiving [] with offers := [⟨11, 0, 0, 0, []⟩, ⟨0, 0, 0, 0, []⟩] }, rfl, by simp,
    by simp [State.busGood, receiving, start], ?_, _, rfl, rfl, rfl⟩
  intro r hr len given h
  have hr' : r = ⟨11, 0, 0, 0, []⟩ ∨ r = ⟨0, 0, 0, 0, []⟩ := by simpa using hr
  rcases hr' with rfl | rfl <;> cases h
theorem witness_StepKeepsLineInvariant : (start []).lineInv ∧ step (start []) = .next (start []) :=
  ⟨⟨.inl (start_atRest []), rfl⟩, rfl⟩
theorem witness_StepKeepsLineInvariant_running : running.lineInv ∧ step running = .next running.microStep :=
  ⟨⟨.inr running_inOperation, rfl⟩, rfl⟩
theorem witness_InstructionsEndAtRestOrHang : (receiving []).atRest ∧ ∃ t, exec .init (receiving []) = .next t :=
  ⟨receiving_atRest [], _, rfl⟩
theorem witness_StepKeepsPeerInvariant_frame : ∃ t u, step running = .next t ∧ step t = .next u ∧ t.peerInv ∧
    t.peer.frame.isSome = true ∧ running.peerInv := by
  refine ⟨_, _, rfl, rfl, ⟨⟨rfl, by decide, by decide, by decide⟩, by decide, ?_, fun _ => ⟨.powerDown, rfl⟩, rfl⟩, rfl,
    ⟨⟨rfl, by decide, by decide, by decide⟩, by decide, fun f h => (by cases h), fun _ => ⟨.powerDown, rfl⟩, rfl⟩⟩
  intro f h
  cases h
  exact ⟨⟨by decide, by decide⟩, rfl⟩
theorem witness_StepKeepsPeerInvariant :
    Peer.wf ex (holding [[1], List.replicate 32 0] [[]] (start [])).peer ∧ ∃ t, step (start []) = .next t :=
  ⟨⟨rfl, by decide, by decide, by decide⟩, _, rfl⟩
theorem witness_StepNeverUndoes : ∃ s t : State, step s = .next t ∧ s.busFault = true ∧ t.mode = .powerDown :=
  ⟨{ start [] with busFault := true }, { start [] with busFault := true }, rfl, rfl, rfl⟩
theorem witness_EveryInstructionAnswersNext : (start [.byte 0, .never]).atRest ∧ (Instr.readRegister 0x1F).isHost = true :=
  ⟨start_atRest _, rfl⟩
theorem witness_InterruptLineHasNoEffect : ∃ t, step { start [] with offers := [⟨8, 0, 0, 0, []⟩] } = .next t := ⟨_, rfl⟩
theorem witness_PeerFollowsTrace : ∃ s t u : State, s.bench = [] ∧ step s = .next t ∧ t.busy = true ∧
    step { t with bench := [[0xFF]] } = .next u :=
  ⟨{ start [] with offers := [⟨1, 0, 0, 0, []⟩] }, _, _, rfl, rfl, rfl, rfl⟩
theorem witness_CommandBytesOfBlockAreClosed : (start []).busy = false ∧
    (∃ t, exec .configureReceiveMode (start []) = .next t) ∧ ∃ t, exec .configureTransmitMode (start []) = .next t :=
  ⟨rfl, ⟨_, rfl⟩, _, rfl⟩
theorem witness_NothingElseReachesNextOperation : ∃ s s' t : State, s.atRest ∧ s'.atRest ∧ s'.mode = s.mode ∧
    s'.answers = s.answers ∧ s'.peer = s.peer ∧ s'.params = s.params ∧ s'.draws = s.draws ∧ s ≠ s' ∧
    exec .flushTx s = .next t :=
  ⟨start [], { start [] with busFault := true, cur := .flushRx, trace := [.ce .low] }, _, start_atRest [],
    ⟨rfl, rfl, rfl, rfl, by simp [ceDerived, start, State.reset]⟩, rfl, rfl, rfl, rfl, rfl, fun h => absurd (congrArg State.busFault h) (by decide), rfl⟩
theorem witness_OnlyModeFamilyMovesModeAndCe : ∃ t u, exec (.writeRegister 0x00 0x0B) (transmitting []) = .next t ∧
    exec (.transmitOne []) (transmitting []) = .next u := ⟨_, _, rfl, rfl⟩
theorem witness_ModeTransitionTable : ∃ t, (start []).busy = false ∧ exec .configureTransmitMode (start []) = .next t ∧
    t.status? = some .ok := ⟨_, rfl, rfl, rfl⟩
theorem witness_ModeTransitionTable_init : ∃ t u, exec .init (receiving []) = .next t ∧ t.status? = some .ok ∧
    exec (.transmitOne []) (transmitting []) = .next u ∧ u.status? = some .ok := ⟨_, _, rfl, rfl, rfl, rfl⟩
theorem witness_OnlyTransmitOneReachesAir : ∃ t, (start []).atRest ∧ exec .configureReceiveMode (start []) = .next t :=
  ⟨_, start_atRest [], rfl⟩
theorem witness_RefusedAtAcceptance : (0x1F : Byte) < 0x20 ∧ (0x1F : Byte) < 0xFF ∧ (32 : Byte) < 33 ∧ (32 : Byte) < 255 ∧
    32 < (List.replicate 33 (0 : Byte)).length ∧ (List.replicate 32 (0 : Byte)).length ≤ 32 ∧
    (receiving []).busy = false ∧ (receiving []).mode ≠ .transmitMode := by decide
theorem witness_FailedTransferAborts : (failsAt 0).busy = false ∧
    acceptCheck (.readRxPayload 32) (failsAt 0).mode = none ∧ 0 < transferCount (.readRxPayload 32) ∧
    (failsAt 0).answers = bytesFrom 0 (fun _ => 0) ++ .fail :: [] ∧ 32 < transferCount (.readRxPayload 32) ∧
    (failsAt 32).answers = bytesFrom 32 (fun _ => 0) ++ .fail :: [] := ⟨rfl, rfl, by decide, rfl, by decide, rfl⟩
theorem witness_FailedTransmitOneStaysOffAir : (transmitting [.fail]).busy = false ∧ ([] : List Byte).length ≤ 32 ∧
    (transmitting [.fail]).mode = .transmitMode ∧ 0 < 1 + ([] : List Byte).length ∧
    (transmitting [.fail]).answers = bytesFrom 0 (fun _ => 0) ++ .fail :: [] ∧
    (transmitting (bytesFrom 32 (fun _ => 0) ++ [.fail])).answers = bytesFrom 32 (fun _ => 0) ++ .fail :: [] ∧
    32 < 1 + (List.replicate 32 (0 : Byte)).length := ⟨rfl, by decide, rfl, by decide, rfl, rfl, by decide⟩
theorem witness_FailedConfigurationLeavesStandby : ∀ k ∈ [0, 1, 2, 11], k < 12 ∧ (failsAt k).busy = false ∧
    (failsAt k).answers = bytesFrom k (fun _ => 0) ++ .fail :: [] := by
  intro k hk
  exact ⟨by revert k; decide, rfl, rfl⟩
theorem witness_GoodBusEndsOperations : (start [.byte 1, .peer]).busGood ∧ (start [.byte 1, .peer]).busy = false ∧
    acceptCheck (.writeRegisterVerified 0x1F 0) .powerDown = none ∧ Instr.init.isHost = true := by
  refine ⟨?_, rfl, rfl, rfl⟩
  simp [State.busGood, start]
theorem witness_HungBlockStaysHung : ({ running with csn := .low, upc := 2, answers := [.never] } : State).hung :=
  ⟨rfl, ⟨0, .inr rfl⟩, rfl⟩
theorem witness_ReadRegisterCanHang : (start [.byte 0, .never]).busy = false ∧ (0x00 : Byte) ≤ 0x1F ∧ (0x1F : Byte) ≤ 0x1F ∧
    (start [.byte 0, .never]).answers = .byte 0 :: .never :: [] := ⟨rfl, by decide, by decide, rfl⟩
theorem witness_InitResult : (receiving []).busy = false ∧ (start []).busy = false := ⟨rfl, rfl⟩
theorem witness_ConfigureResults : (start (zeros 12)).busy = false ∧
    (start (zeros 12)).answers = bytesFrom 12 (fun _ => 0) ++ [] := ⟨rfl, rfl⟩
theorem witness_ConfiguredRegisters : (start []).busy = false ∧ (start []).busGood := ⟨rfl, by simp [State.busGood, start]⟩
theorem witness_TransmitOneResult : (transmitting (zeros 1)).busy = false ∧ ([] : List Byte).length ≤ 32 ∧
    (transmitting (zeros 1)).mode = .transmitMode ∧
    (transmitting (zeros 1)).answers = bytesFrom (1 + ([] : List Byte).length) (fun _ => 0) ++ [] ∧
    (transmitting (zeros 33)).answers = bytesFrom (1 + (List.replicate 32 (0 : Byte)).length) (fun _ => 0) ++ [] :=
  ⟨rfl, by decide, rfl, rfl, rfl⟩
theorem witness_TransmitOneReachesAir : ∃ s : State, s.busy = false ∧ s.ce = .low ∧ s.mode = .transmitMode ∧ s.busGood ∧
    1 ≤ s.params.fifoDepth ∧ s.peer.txFifo = [] ∧ Memory.read s.params s.peer.regs 0x00 = 0x0A :=
  ⟨{ transmitting [] with peer := { Peer.atReset with regs := [(0, 0x0A)] } }, rfl, rfl, rfl,
    by simp [State.busGood, transmitting, start], by decide, rfl, rfl⟩
theorem witness_TransmitOneReachesAir_queue : ∃ s : State, s.busy = false ∧ s.ce = .low ∧ s.mode = .transmitMode ∧
    s.busGood ∧ s.peer.txFifo.length = s.params.fifoDepth ∧ Memory.read s.params s.peer.regs 0x00 = 0x08 :=
  ⟨{ transmitting [] with peer := { Peer.atReset with regs := [(0, 0x08)], txFifo := [[1], [2], [3]] } }, rfl, rfl, rfl,
    by simp [State.busGood, transmitting, start], rfl, rfl⟩
theorem witness_RegisterResults : (receiving (zeros 2)).busy = false ∧ (0x1F : Byte) ≤ 0x1F ∧ (0x00 : Byte) ≤ 0x1F ∧
    (receiving (zeros 2)).answers = bytesFrom 2 (fun _ => 0) ++ [] ∧
    (receiving (zeros 4)).answers = bytesFrom 4 (fun _ => 0) ++ [] := ⟨rfl, by decide, by decide, rfl, rfl⟩
theorem witness_PayloadResults : (start (zeros 33)).busy = false ∧ (0 : Byte) ≤ 32 ∧ (32 : Byte) ≤ 32 ∧
    (start (zeros 33)).answers = bytesFrom (1 + (32 : Byte).toNat) (fun _ => 0) ++ [] ∧
    (start (zeros 1)).answers = bytesFrom (1 + (0 : Byte).toNat) (fun _ => 0) ++ [] ∧
    (start (zeros 33)).answers = bytesFrom (1 + (List.replicate 32 (0 : Byte)).length) (fun _ => 0) ++ [] :=
  ⟨rfl, by decide, by decide, rfl, rfl, rfl⟩
theorem witness_FlushResults : (start (zeros 1)).busy = false ∧ (start (zeros 1)).answers = .byte 0 :: [] := ⟨rfl, rfl⟩
theorem witness_RegisterRoundTrip : ∃ t, (start [.peer]).busy = false ∧ (start [.peer]).busIsPeer ∧ (0x1F : Byte) ≤ 0x1F ∧
    (∀ i ∈ ([.flushTx, .writeRegister 0x00 1] : List Instr), writesRegister (regOf 0x1F) i = false) ∧
    execAll (.writeRegister 0x1F 7 :: ([.flushTx, .writeRegister 0x00 1] ++ [.readRegister 0x1F])) (start [.peer]) = .next t :=
  ⟨_, rfl, by simp [State.busIsPeer, start], by decide, by decide, rfl⟩
theorem witness_FifoReadback : (start []).busy = false ∧ (start []).busGood ∧ (List.replicate 32 (0 : Byte)).length ≤ 32 ∧
    (start []).peer.txFifo.length < (start []).params.fifoDepth :=
  ⟨rfl, by simp [State.busGood, start], by decide, by decide⟩
theorem witness_FifoReadback_read : ∃ s : State, s.busy = false ∧ s.busIsPeer ∧ (2 : Byte) ≤ 32 ∧
    s.peer.rxFifo = [0x48, 0x69] :: [] ∧ (2 : Byte).toNat ≤ ([0x48, 0x69] : List Byte).length ∧ (0 : Byte).toNat ≤ 2 :=
  ⟨holding [[0x48, 0x69]] [] (start []), rfl, by simp [State.busIsPeer, start, holding], by decide, rfl, by decide, by decide⟩
theorem witness_PeerCommandEffects : ([0] : List Byte).length = 1 + 0 ∧ (List.replicate 33 (0 : Byte)).length = 1 + 32 ∧
    ([0, 0, 0] : List Byte).length = 1 + ([0x48, 0x69] : List Byte).length := by decide
theorem witness_WireResults : (start []).busy = false := rfl
theorem witness_HostOperationIsItsWireRow : (start [.peer, .peer]).busy = false ∧ (start [.peer, .peer]).busIsPeer ∧
    (0x00 : Byte) ≤ 0x1F ∧ (0x1F : Byte) ≤ 0x1F := ⟨rfl, by simp [State.busIsPeer, start], by decide, by decide⟩

end Sys2Proof.Tests
end

/-! SUPPORT. The reset values of spec/10_state.md R39. -/

namespace Sys2Proof.Machine

/-- The peer's parameter vector lists `PEER_RESET` in address order. -/
theorem Params.atReset_peerReset (a : RegAddr) :
    Params.atReset.peerReset[a.toNat]'a.isLt = Config.peerReset a.toNat := by
  simp [Params.atReset]

/-- With no register listed, every register but CONFIG reads as `PEER_RESET` has it. -/
theorem State.reset_read {a : RegAddr} (h : a ≠ 0) :
    Memory.read State.reset.params State.reset.peer.regs a = Config.peerReset a.toNat := by
  show Memory.read Params.atReset [] a = _
  rw [Memory.read_nil, Memory.unlisted, if_neg h, Params.atReset_peerReset]

/-- The machine begins at rest: `PowerDown` with CE low. -/
theorem State.reset_atRest : State.reset.atRest :=
  ⟨rfl, rfl, rfl, rfl, by simp [ceDerived, State.reset]⟩

/-- Settles O12: each item is the value `State.reset` gives it, and the registers are `State.reset_read`. -/
theorem resetState : Obligations.ResetState :=
  ⟨State.reset_atRest, rfl, rfl, rfl, rfl, rfl, rfl, rfl, rfl, rfl, fun _ => State.reset_read⟩

end Sys2Proof.Machine

/-! SUPPORT. The line discipline of a micro-sequence: at which lines each micro-op may run, that the micro-sequence of
every accepted operation meets this from any rest state, and what it makes of the trace. -/

namespace Sys2Proof.Machine

/-! ### The mode and CE -/

@[simp] theorem ceDerived_low (m : Mode) : ceDerived .low m ↔ m ≠ .receiveMode := by simp [ceDerived]

@[simp] theorem ceDerived_high (m : Mode) : ceDerived .high m ↔ m = .receiveMode := by simp [ceDerived]

@[simp] theorem ModeAct.apply_keep (m : Mode) : ModeAct.keep.apply m = m := rfl

@[simp] theorem ModeAct.apply_become (m m' : Mode) : (ModeAct.become m').apply m = m' := rfl

theorem ModeAct.activeToStandby_ne_receiveMode (m : Mode) : ModeAct.activeToStandby.apply m ≠ .receiveMode := by
  cases m <;> decide

theorem ModeAct.wakeToStandby_ne_receiveMode {m : Mode} (h : m ≠ .receiveMode) :
    ModeAct.wakeToStandby.apply m ≠ .receiveMode := by
  cases m <;> simp_all [ModeAct.apply]

/-! ### When a micro-op may run -/

/-- The lines at which a micro-op may run: CSN falls from 1 and rises from 0 (spec/10_state.md R33), CE drives and dwells
happen with CSN high (spec/30_encoding.md R83), transfers with CSN low (spec/70_reset_and_hazards.md R215). A transfer can
fail and end the operation where it is, so CE must be as the mode derives it there too (R32). -/
def Micro.allowed (m : Micro) (l : Lines) : Prop :=
  match m with
  | .csnLow => l.csn = .high
  | .csnHigh _ => l.csn = .low
  | .ce _ _ => l.csn = .high
  | .dwell => l.csn = .high
  | .out _ => l.csn = .low ∧ ceDerived l.ce l.mode
  | .recv => l.csn = .low ∧ ceDerived l.ce l.mode

/-- Micro-ops that, run in order from some lines, are each allowed where they stand, and end with the lines of a rest
state. -/
def disciplined : Lines → List Micro → Prop
  | l, [] => l.csn = .high ∧ ceDerived l.ce l.mode
  | l, m :: ms => m.allowed l ∧ disciplined (m.lines l) ms

theorem disciplined_append_right {as bs : List Micro} {l : Lines} (h : disciplined l (as ++ bs)) :
    disciplined (linesAfter as l) bs := by
  induction as generalizing l with
  | nil => exact h
  | cons m as ih => exact ih h.2

/-- What is left of disciplined micro-ops from the `k`-th on is disciplined at the lines reached there. -/
theorem disciplined_at {ops : List Micro} {l : Lines} {k : Nat} {m : Micro} (h : disciplined l ops)
    (hm : ops[k]? = some m) : disciplined (linesAfter (ops.take k) l) (m :: ops.drop (k + 1)) := by
  obtain ⟨hk, rfl⟩ := List.getElem?_eq_some_iff.1 hm
  rw [← List.drop_eq_getElem_cons hk]
  exact disciplined_append_right (by rwa [List.take_append_drop])

/-! ### The micro-sequences -/

/-- Transfers leave the lines as they are, so any number of them may stand in an open frame. -/
theorem disciplined_transfers {ts next : List Micro} {l : Lines} (ht : ∀ m ∈ ts, m.isTransfer = true)
    (hcsn : l.csn = .low) (hce : ceDerived l.ce l.mode) (h : disciplined l next) : disciplined l (ts ++ next) := by
  induction ts with
  | nil => exact h
  | cons m ts ih =>
    have hts := ih fun x hx => ht x (List.mem_cons_of_mem m hx)
    cases m with
    | out b => exact ⟨⟨hcsn, hce⟩, hts⟩
    | recv => exact ⟨⟨hcsn, hce⟩, hts⟩
    | csnLow => exact absurd (ht _ List.mem_cons_self) Bool.false_ne_true
    | csnHigh act => exact absurd (ht _ List.mem_cons_self) Bool.false_ne_true
    | ce v act => exact absurd (ht _ List.mem_cons_self) Bool.false_ne_true
    | dwell => exact absurd (ht _ List.mem_cons_self) Bool.false_ne_true

/-- A transaction may stand where CSN is high and CE is as the mode derives it. -/
theorem disciplined_txn {cmd : Byte} {outs : List Byte} {n : Nat} {act : ModeAct} {next : List Micro} {l : Lines}
    (hcsn : l.csn = .high) (hce : ceDerived l.ce l.mode)
    (h : disciplined { csn := .high, ce := l.ce, mode := act.apply l.mode } next) :
    disciplined l (txn cmd outs n act ++ next) := by
  have hsplit : txn cmd outs n act ++ next =
      .csnLow :: ((.out cmd :: (outs.map Micro.out ++ List.replicate n Micro.recv)) ++ (.csnHigh act :: next)) := by
    simp [txn]
  have htransfers : ∀ m ∈ Micro.out cmd :: (outs.map Micro.out ++ List.replicate n Micro.recv), m.isTransfer = true := by
    simp only [List.mem_cons, List.mem_append, List.mem_map, List.mem_replicate]
    rintro m (rfl | ⟨b, _, rfl⟩ | ⟨_, rfl⟩) <;> rfl
  rw [hsplit]
  exact ⟨hcsn, disciplined_transfers htransfers rfl hce ⟨rfl, h⟩⟩

/-- A transaction that ends an operation leaves CE as the mode it ends in derives it. -/
theorem disciplined_txn_last {cmd : Byte} {outs : List Byte} {n : Nat} {act : ModeAct} {l : Lines}
    (hcsn : l.csn = .high) (hce : ceDerived l.ce l.mode) (hend : ceDerived l.ce (act.apply l.mode)) :
    disciplined l (txn cmd outs n act) := by
  have h := disciplined_txn (cmd := cmd) (outs := outs) (n := n) (act := act) (next := []) hcsn hce ⟨rfl, hend⟩
  rwa [List.append_nil] at h

/-- The micro-sequence of an operation that passes its checks in the mode of a rest state is disciplined from there. -/
theorem disciplined_microSeq (p : Params) {i : Instr} {ce0 : Level} {m0 : Mode} (hi : i.isHost = true)
    (hce : ceDerived ce0 m0) (hcheck : acceptCheck i m0 = none) :
    disciplined { csn := .high, ce := ce0, mode := m0 } (microSeq p i) := by
  have hstop : ceDerived .low (ModeAct.activeToStandby.apply m0) :=
    (ceDerived_low _).2 (ModeAct.activeToStandby_ne_receiveMode m0)
  have hwake : ceDerived .low (ModeAct.wakeToStandby.apply (ModeAct.activeToStandby.apply m0)) :=
    (ceDerived_low _).2 (ModeAct.wakeToStandby_ne_receiveMode (ModeAct.activeToStandby_ne_receiveMode m0))
  cases i with
  | init => exact ⟨rfl, rfl, hstop⟩
  | configureReceiveMode =>
    exact ⟨rfl, disciplined_txn rfl hstop <| disciplined_txn rfl hwake <| disciplined_txn rfl hwake <|
      disciplined_txn rfl hwake <| disciplined_txn rfl hwake <| disciplined_txn rfl hwake
      ⟨rfl, rfl, (ceDerived_high _).2 rfl⟩⟩
  | configureTransmitMode =>
    exact ⟨rfl, disciplined_txn rfl hstop <| disciplined_txn rfl hwake <| disciplined_txn rfl hwake <|
      disciplined_txn rfl hwake <| disciplined_txn rfl hwake <| disciplined_txn_last rfl hwake
      (by simp [Micro.lines])⟩
  | transmitOne bytes =>
    obtain ⟨-, rfl⟩ := (checkTransmit_eq_none _ _).1 hcheck
    exact disciplined_txn rfl hce ⟨rfl, rfl, rfl, rfl, by simp [Micro.lines]⟩
  | writeRegisterVerified addr value => exact disciplined_txn rfl hce (disciplined_txn_last rfl hce hce)
  | readRxPayload _ | writeTxPayload _ | writeRegister _ _ | readRegister _ | flushRx | flushTx =>
    exact disciplined_txn_last rfl hce hce
  | cmdRRegister _ | cmdWRegister _ _ | cmdRRxPayload _ | cmdWTxPayload _ | cmdFlushTx | cmdFlushRx | cmdReuseTxPl
  | cmdNop => cases hi

/-- Every host operation has a micro-op. -/
theorem microSeq_length_pos (p : Params) {i : Instr} (h : i.isHost = true) : 0 < (microSeq p i).length := by
  cases i with
  | cmdRRegister _ | cmdWRegister _ _ | cmdRRxPayload _ | cmdWTxPayload _ | cmdFlushTx | cmdFlushRx | cmdReuseTxPl
  | cmdNop => cases h
  | _ => exact Nat.succ_pos _

/-- The micro-sequence of an operation that passes its checks has at most 38 micro-ops (spec/10_state.md R27), so `upc`
never wraps. -/
theorem microSeq_length_le (p : Params) {i : Instr} {m : Mode} (h : acceptCheck i m = none) :
    (microSeq p i).length ≤ 38 := by
  cases i with
  | readRxPayload len =>
    have := (checkLen_eq_none _).1 h
    rw [microSeq_length_readRxPayload]; omega
  | writeTxPayload bytes =>
    have := (checkLen_eq_none _).1 h
    rw [microSeq_length_writeTxPayload]; omega
  | transmitOne bytes =>
    have := ((checkTransmit_eq_none _ _).1 h).1
    rw [microSeq_length_transmitOne]; omega
  | _ => exact of_decide_eq_true rfl

/-! ### The trace -/

theorem frameWalk_append (l : Level) (es fs : List Event) :
    frameWalk l (es ++ fs) = (frameWalk l es).bind fun l' => frameWalk l' fs := by
  induction l, es using frameWalk.induct <;> simp_all [frameWalk]

/-- The event of an allowed micro-op keeps the line discipline and leaves CSN as the micro-op does. -/
theorem frameWalk_of_allowed {p : Params} {m : Micro} {e : Event} {l : Lines} (ha : m.allowed l) (he : m.emits p e) :
    frameWalk l.csn [e] = some (m.lines l).csn := by
  obtain ⟨csn, ce, mode⟩ := l
  cases m with
  | csnLow => cases ha; cases he; rfl
  | csnHigh act => cases ha; cases he; rfl
  | ce v act => cases ha; cases he; rfl
  | out b => obtain ⟨x, rfl⟩ := he; cases ha.1; rfl
  | recv => obtain ⟨x, rfl⟩ := he; cases ha.1; rfl
  | dwell => obtain ⟨ns, rfl, -⟩ := he; cases ha; rfl

end Sys2Proof.Machine

/-! SUPPORT. The invariant of the lines: what keeps a state at rest, what one micro-op of an operation in progress does,
and that every step keeps the invariant. -/

namespace Sys2Proof.Machine

/-! ### At rest -/

/-- An operation that ends with CSN high and CE as the mode derives it ends at rest. -/
theorem State.finish_atRest {s : State} (hcsn : s.csn = .high) (hce : ceDerived s.ce s.mode) : s.finish.atRest := by
  obtain ⟨r, d, h⟩ := s.finish_eq
  rw [h]
  exact ⟨rfl, hcsn, rfl, rfl, hce⟩

theorem State.finish_csn (s : State) : s.finish.csn = s.csn := by
  obtain ⟨r, d, h⟩ := s.finish_eq
  rw [h]

theorem State.finish_trace (s : State) : s.finish.trace = s.trace := by
  obtain ⟨r, d, h⟩ := s.finish_eq
  rw [h]

/-- A failed transfer ends at rest wherever CE is as the mode derives it (spec/60_exceptions.md R176). -/
theorem State.abort_atRest {s : State} (b : Byte) (hce : ceDerived s.ce s.mode) : (s.abort b).atRest := by
  obtain ⟨-, hcsn, hbusy, hupc, hrxbuf, hmode, hce', -⟩ := s.abort_fields b
  exact ⟨hbusy, hcsn, hupc, hrxbuf, by rwa [hmode, hce']⟩

/-- A refusal at acceptance leaves the block at rest, its lines and its trace. -/
theorem State.lineInv_refuseWith {s : State} (st : Status) (hr : s.atRest) (hw : frameWalk .high s.trace = some s.csn) :
    (s.refuseWith st).lineInv := by
  obtain ⟨-, hcsn, -, hrxbuf, hce⟩ := hr
  exact ⟨.inl ⟨rfl, hcsn, rfl, hrxbuf, hce⟩, hw⟩

/-- Acceptance from rest is the place before the first micro-op. -/
theorem State.accept_inOperation {i : Instr} {s : State} (hr : s.atRest) (hi : i.isHost = true)
    (hcheck : acceptCheck i s.mode = none) : (s.accept i).inOperation := by
  obtain ⟨-, hcsn, -, -, hce⟩ := hr
  refine ⟨rfl, hi, microSeq_length_pos s.params hi, s.ce, s.mode, hce, hcheck, ?_⟩
  show ({ csn := .high, ce := s.ce, mode := s.mode } : Lines) = { csn := s.csn, ce := s.ce, mode := s.mode }
  rw [hcsn]

/-! ### Inside an operation -/

/-- Everything the step of a micro-op can do: it completes, before the end of the operation or at it, or its transfer
fails, or its transfer never returns. -/
theorem State.microStep_cases {s : State} {m : Micro} (hm : (microSeq s.params s.cur)[s.upc.toNat]? = some m) :
    (∃ t, s.micro m = .done t ∧ t.upc.toNat < (microSeq s.params s.cur).length ∧ s.microStep = t) ∨
    (∃ t, s.micro m = .done t ∧ (microSeq s.params s.cur).length ≤ t.upc.toNat ∧ s.microStep = t.finish) ∨
    (∃ t, s.micro m = .aborted t ∧ s.microStep = t) ∨
    (s.micro m = .stuck ∧ s.microStep = s) := by
  simp only [State.microStep, hm]
  cases hmicro : s.micro m with
  | done t =>
    by_cases hlt : t.upc.toNat < (microSeq s.params s.cur).length
    · exact .inl ⟨t, rfl, hlt, by simp [hlt]⟩
    · exact .inr (.inl ⟨t, rfl, Nat.le_of_not_lt hlt, by simp [hlt]⟩)
  | aborted t => exact .inr (.inr (.inl ⟨t, rfl, rfl⟩))
  | stuck => exact .inr (.inr (.inr ⟨rfl, rfl⟩))

/-- The place of an operation in progress: a micro-op stands at `upc`, it and those after it are disciplined from the
lines as they are, and `upc` does not wrap. -/
theorem State.inOperation_next {s : State} (h : s.inOperation) :
    ∃ m, (microSeq s.params s.cur)[s.upc.toNat]? = some m ∧ (s.upc + 1).toNat = s.upc.toNat + 1 ∧
      disciplined { csn := s.csn, ce := s.ce, mode := s.mode } (m :: (microSeq s.params s.cur).drop (s.upc.toNat + 1)) := by
  obtain ⟨-, hi, hupc, ce0, m0, hce, hcheck, hlines⟩ := h
  have hm := List.getElem?_eq_getElem hupc
  have hlen := microSeq_length_le s.params hcheck
  refine ⟨_, hm, ?_, hlines ▸ disciplined_at (disciplined_microSeq s.params hi hce hcheck) hm⟩
  rw [BitVec.toNat_add, show (1 : BitVec 6).toNat = 1 from rfl]
  omega

/-- A completed micro-op that is not the last leaves the operation in progress at its next place. -/
theorem State.inOperation_of_microDone {s t : State} {m : Micro} {e : Event} (h : s.inOperation)
    (hm : (microSeq s.params s.cur)[s.upc.toNat]? = some m) (hsucc : (s.upc + 1).toNat = s.upc.toNat + 1)
    (hd : MicroDone m s t e) (hlt : t.upc.toNat < (microSeq s.params s.cur).length) : t.inOperation := by
  obtain ⟨hbusy, hi, -, ce0, m0, hce, hcheck, hlines⟩ := h
  refine ⟨hd.busy.trans hbusy, by rwa [hd.cur], by rwa [hd.params, hd.cur], ce0, m0, hce, by rwa [hd.cur], ?_⟩
  rw [hd.lines, hd.params, hd.cur, hd.upc, hsucc, List.take_add_one, hm, Option.toList_some, linesAfter_append, hlines]
  rfl

/-- The event of a completed micro-op continues a trace that keeps the line discipline. -/
theorem frameWalk_microDone {s t : State} {m : Micro} {e : Event} (hd : MicroDone m s t e)
    (ha : m.allowed { csn := s.csn, ce := s.ce, mode := s.mode }) (hw : frameWalk .high s.trace = some s.csn) :
    frameWalk .high t.trace = some t.csn := by
  rw [hd.trace, frameWalk_append, hw, show t.csn = _ from congrArg Lines.csn hd.lines]
  exact frameWalk_of_allowed ha hd.emits

/-- A failed transfer in an open frame ends at rest, with the frame closed. -/
theorem State.lineInv_of_aborted {s t : State} {m : Micro} (h : s.micro m = .aborted t)
    (ha : m.allowed { csn := s.csn, ce := s.ce, mode := s.mode }) (hw : frameWalk .high s.trace = some s.csn) :
    t.lineInv := by
  obtain ⟨b, rest, hm, -, rfl⟩ := State.micro_aborted h
  obtain ⟨hcsn, hce⟩ : s.csn = .low ∧ ceDerived s.ce s.mode := by
    rcases hm with rfl | ⟨rfl, -⟩ <;> exact ha
  refine ⟨.inl (State.abort_atRest b hce), ?_⟩
  obtain ⟨r, d, heq⟩ := State.abort_eq (s := { s with answers := rest }) b hcsn
  rw [heq, frameWalk_append, hw, hcsn]
  rfl

/-- A micro-op of the operation in progress keeps the invariant of the lines. -/
theorem State.lineInv_microStep {s : State} (h : s.inOperation) (hw : frameWalk .high s.trace = some s.csn) :
    s.microStep.lineInv := by
  obtain ⟨m, hm, hsucc, ha, hrest⟩ := State.inOperation_next h
  rcases State.microStep_cases hm with ⟨t, hdone, hlt, heq⟩ | ⟨t, hdone, hle, heq⟩ | ⟨t, habort, heq⟩ | ⟨-, heq⟩ <;>
    rw [heq]
  · obtain ⟨e, hd⟩ := State.micro_done hdone
    exact ⟨.inr (State.inOperation_of_microDone h hm hsucc hd hlt), frameWalk_microDone hd ha hw⟩
  · obtain ⟨e, hd⟩ := State.micro_done hdone
    have hend : disciplined { csn := t.csn, ce := t.ce, mode := t.mode } [] := by
      rw [hd.upc, hsucc] at hle
      rwa [List.drop_eq_nil_of_le hle, ← hd.lines] at hrest
    obtain ⟨hcsn, hce⟩ := hend
    refine ⟨.inl (State.finish_atRest hcsn hce), ?_⟩
    rw [State.finish_trace, State.finish_csn]
    exact frameWalk_microDone hd ha hw
  · exact State.lineInv_of_aborted habort ha hw
  · exact ⟨.inr h, hw⟩

/-! ### A step -/

/-- An instruction that does not start as an operation keeps a state at rest and its trace: it is refused at acceptance,
or it is a wire row, which touches nothing of the block. -/
theorem lineInv_exec_of_not_starts {i : Instr} {s t : State} (hr : s.atRest)
    (hw : frameWalk .high s.trace = some s.csn) (hs : s.starts i = false) (h : exec i s = .next t) : t.lineInv := by
  rcases exec_cases i s with ⟨hbusy, -⟩ | ⟨-, -, st, -, heq⟩ | ⟨-, hi, hcheck, -⟩ | ⟨-, -, heq⟩
  · simp [hr.1] at hbusy
  · cases heq.symm.trans h
    exact State.lineInv_refuseWith st hr hw
  · simp [State.starts_iff.2 ⟨hi, hcheck⟩] at hs
  · cases heq.symm.trans h
    obtain ⟨io, d, hframe, -⟩ := State.wireFrame_eq (wireBytes s.params i) s
    rw [hframe]
    exact ⟨.inl hr, hw⟩

/-- An offer that is no instruction is answered from rest with a refusal at acceptance, or no next state. -/
theorem State.lineInv_rejectOffer {r : Reject} {s t : State} (hr : s.atRest)
    (hw : frameWalk .high s.trace = some s.csn) (h : s.rejectOffer r = .next t) : t.lineInv := by
  cases r with
  | illegalOp op => cases h; exact State.lineInv_refuseWith _ hr hw
  | emptyFrame | reservedCommand _ | wrongSlots _ _ | lengthMismatch _ _ => cases h

/-- Taking an offer leaves the block and its trace alone. -/
theorem State.nextOffer_keeps_rest {s t : State} {o : Offer} (h : s.nextOffer = some (o, t)) (hr : s.atRest)
    (hw : frameWalk .high s.trace = some s.csn) : t.atRest ∧ frameWalk .high t.trace = some t.csn := by
  obtain ⟨offers, bench, rfl, -⟩ := State.nextOffer_eq h
  exact ⟨hr, hw⟩

/-- Every step from rest keeps the invariant of the lines. -/
theorem State.lineInv_step_of_atRest {s t : State} (hr : s.atRest) (hw : frameWalk .high s.trace = some s.csn)
    (h : step s = .next t) : t.lineInv := by
  rcases step_cases s with ⟨hbusy, -⟩ | ⟨-, -, -, heq⟩ | ⟨o, u, i, -, hn, -, hi, hcheck, heq⟩ |
    ⟨o, u, i, -, hn, -, hs, heq⟩ | ⟨o, u, r, -, hn, -, heq⟩
  · simp [hr.1] at hbusy
  · cases heq.symm.trans h
    exact ⟨.inl hr, hw⟩
  · cases heq.symm.trans h
    obtain ⟨hru, hwu⟩ := State.nextOffer_keeps_rest hn hr hw
    exact ⟨.inr (State.accept_inOperation hru hi hcheck), hwu⟩
  · obtain ⟨hru, hwu⟩ := State.nextOffer_keeps_rest hn hr hw
    exact lineInv_exec_of_not_starts hru hwu hs (heq ▸ h)
  · obtain ⟨hru, hwu⟩ := State.nextOffer_keeps_rest hn hr hw
    exact State.lineInv_rejectOffer hru hwu (heq ▸ h)

/-- Every step of an operation in progress is its next micro-op. -/
theorem step_of_busy {s : State} (h : s.busy = true) : step s = .next s.microStep := by
  simp [step, State.fetch, h]

/-- Settles O16: a step from rest leaves the lines and the trace alone or accepts an operation, and one inside an operation
is a micro-op that the discipline of the micro-sequence allows there. -/
theorem stepKeepsLineInvariant : Obligations.StepKeepsLineInvariant := by
  rintro s t ⟨hplace, hw⟩ h
  rcases hplace with hr | hop
  · exact State.lineInv_step_of_atRest hr hw h
  · cases (step_of_busy hop.1).symm.trans h
    exact State.lineInv_microStep hop hw

end Sys2Proof.Machine

/-! SUPPORT. Command bytes (spec/30_encoding.md R84 to R92): that decoding and encoding one are inverse, and which of them
the micro-sequences put on the bus, whatever the bus answers. -/

namespace Sys2Proof.Machine

/-! ### The round trip -/

/-- The address field of a command byte survives its decoding and encoding (spec/30_encoding.md R86). -/
theorem setWidth_addressField (b : Byte) : ((b &&& 0x1F).setWidth 5 : RegAddr).setWidth 8 = b &&& 0x1F := by
  revert b; decide

/-- A byte is its class bits 7:5 and its address field, bits 4:0. -/
theorem classBits_or_addressField (b : Byte) : b &&& 0xE0 ||| b &&& 0x1F = b := by
  revert b; decide

theorem decodeCmd_encodeCmd (c : WireCmd) : decodeCmd (encodeCmd c) = some c := by
  cases c with
  | rRegister a => exact decodeCmd_rRegister a
  | wRegister a => exact decodeCmd_wRegister a
  | rRxPayload | wTxPayload | flushTx | flushRx | reuseTxPl | nop => rfl

theorem encodeCmd_of_decodeCmd {b : Byte} {c : WireCmd} (h : decodeCmd b = some c) : encodeCmd c = b := by
  have hregister : ∀ k : Byte, b &&& 0xE0 = k → k ||| ((b &&& 0x1F).setWidth 5 : RegAddr).setWidth 8 = b := by
    rintro k rfl
    rw [setWidth_addressField, classBits_or_addressField]
  unfold decodeCmd at h
  split at h
  next hb => cases h; exact hregister _ hb
  split at h
  next hb => cases h; exact hregister _ hb
  repeat
    split at h
    next hb => cases h; exact hb.symm
  cases h

/-- Settles O2: `decodeCmd_encodeCmd` and `encodeCmd_of_decodeCmd`. -/
theorem commandByteRoundTrip : Obligations.CommandByteRoundTrip :=
  ⟨decodeCmd_encodeCmd, fun _ _ => encodeCmd_of_decodeCmd⟩

/-! ### The command bytes of a micro-sequence -/

/-- The command bytes of micro-ops that all complete: what the first transfer after each `CSN <- 0` shifts out. The flag is
that of `commandBytes`. -/
def microCommands (fill : Byte) : Bool → List Micro → List Byte
  | _, [] => []
  | _, .csnLow :: ms => microCommands fill true ms
  | true, .out b :: ms => b :: microCommands fill false ms
  | true, .recv :: ms => fill :: microCommands fill false ms
  | w, _ :: ms => microCommands fill w ms

theorem microCommands_outs (fill : Byte) (bs : List Byte) (next : List Micro) :
    microCommands fill false (bs.map Micro.out ++ next) = microCommands fill false next := by
  induction bs with
  | nil => rfl
  | cons b bs ih => exact ih

theorem microCommands_recvs (fill : Byte) (n : Nat) (next : List Micro) :
    microCommands fill false (List.replicate n Micro.recv ++ next) = microCommands fill false next := by
  induction n with
  | zero => rfl
  | succ n ih => exact ih

/-- A transaction has one command byte, its own. -/
theorem microCommands_txn_append (fill cmd : Byte) (outs : List Byte) (n : Nat) (act : ModeAct) (next : List Micro) :
    microCommands fill false (txn cmd outs n act ++ next) = cmd :: microCommands fill false next := by
  simp only [txn, List.cons_append, List.append_assoc, microCommands, microCommands_outs, microCommands_recvs,
    List.nil_append]

theorem microCommands_txn (fill cmd : Byte) (outs : List Byte) (n : Nat) (act : ModeAct) :
    microCommands fill false (txn cmd outs n act) = [cmd] := by
  simpa [microCommands] using microCommands_txn_append fill cmd outs n act []

/-- The command bytes of a configuration sequence, in order (spec/42_mode_configuration.md R152, R153). -/
theorem microCommands_configuration (p : Params) {i : Instr}
    (hi : i = .configureReceiveMode ∨ i = .configureTransmitMode) :
    microCommands p.fillByte false (microSeq p i) = [0x20, 0x21, 0x22, 0x24, 0x26, 0x25] := by
  rcases hi with rfl | rfl <;>
    simp only [microSeq, seqConfigureReceiveMode, seqConfigureTransmitMode, writeTxn, microCommands,
      microCommands_txn_append, microCommands_txn] <;> rfl

theorem configurationSends_of_mem_microCommands {p : Params} {i : Instr} {b : Byte}
    (hi : i = .configureReceiveMode ∨ i = .configureTransmitMode)
    (hb : b ∈ microCommands p.fillByte false (microSeq p i)) : configurationSends b := by
  rw [microCommands_configuration p hi] at hb
  revert b; unfold configurationSends; decide

theorem blockSends_of_configurationSends {b : Byte} (h : configurationSends b) : blockSends b := by
  revert b; unfold configurationSends blockSends; decide

/-- The command bytes the block can send are those of every command but `REUSE_TX_PL` and `NOP`. -/
theorem blockSends_encodeCmd {c : WireCmd} (hreuse : c ≠ .reuseTxPl) (hnop : c ≠ .nop) : blockSends (encodeCmd c) := by
  cases c with
  | rRegister a => exact .inl (by revert a; decide)
  | wRegister a => exact .inl (by revert a; decide)
  | rRxPayload | wTxPayload | flushTx | flushRx => unfold blockSends; decide
  | reuseTxPl => exact absurd rfl hreuse
  | nop => exact absurd rfl hnop

/-- The command byte of a transaction in front of others may be sent where theirs may. -/
theorem blockSends_txn_append {fill : Byte} {c : WireCmd} {outs : List Byte} {n : Nat} {act : ModeAct} {next : List Micro}
    (hreuse : c ≠ .reuseTxPl) (hnop : c ≠ .nop) (h : ∀ b ∈ microCommands fill false next, blockSends b) :
    ∀ b ∈ microCommands fill false (txn (encodeCmd c) outs n act ++ next), blockSends b := by
  rw [microCommands_txn_append]
  exact List.forall_mem_cons.2 ⟨blockSends_encodeCmd hreuse hnop, h⟩

theorem blockSends_txn {fill : Byte} {c : WireCmd} {outs : List Byte} {n : Nat} {act : ModeAct}
    (hreuse : c ≠ .reuseTxPl) (hnop : c ≠ .nop) :
    ∀ b ∈ microCommands fill false (txn (encodeCmd c) outs n act), blockSends b := by
  rw [microCommands_txn]
  exact List.forall_mem_singleton.2 (blockSends_encodeCmd hreuse hnop)

/-- The command bytes of every micro-sequence are in the closed set of R92. -/
theorem blockSends_of_mem_microCommands (p : Params) (i : Instr) :
    ∀ b ∈ microCommands p.fillByte false (microSeq p i), blockSends b := by
  cases i with
  | configureReceiveMode =>
    exact fun b hb => blockSends_of_configurationSends (configurationSends_of_mem_microCommands (.inl rfl) hb)
  | configureTransmitMode =>
    exact fun b hb => blockSends_of_configurationSends (configurationSends_of_mem_microCommands (.inr rfl) hb)
  | readRxPayload _ | writeTxPayload _ | writeRegister _ _ | readRegister _ | flushRx | flushTx =>
    exact blockSends_txn nofun nofun
  | transmitOne bytes => exact blockSends_txn_append nofun nofun nofun
  | writeRegisterVerified addr value => exact blockSends_txn_append nofun nofun (blockSends_txn nofun nofun)
  | init | cmdRRegister _ | cmdWRegister _ _ | cmdRRxPayload _ | cmdWTxPayload _ | cmdFlushTx | cmdFlushRx | cmdReuseTxPl
  | cmdNop => exact nofun

/-! ### The command bytes of a run -/

/-- The event of a completed micro-op shows the command byte the micro-op has, and no other. -/
theorem commandBytes_cons_prefix {p : Params} {m : Micro} {e : Event} (he : m.emits p e) {es : List Event}
    {ms : List Micro} (h : ∀ w, commandBytes w es <+: microCommands p.fillByte w ms) (w : Bool) :
    commandBytes w (e :: es) <+: microCommands p.fillByte w (m :: ms) := by
  cases m with
  | csnLow => cases he; exact h true
  | csnHigh _ | ce _ _ => cases he; cases w <;> exact h _
  | dwell => obtain ⟨ns, rfl, -⟩ := he; cases w <;> exact h _
  | out _ | recv =>
    obtain ⟨x, rfl⟩ := he
    cases w with
    | false => exact h false
    | true => exact List.cons_prefix_cons.2 ⟨rfl, h false⟩

/-- A failed transfer that is the first of its frame shifts out the frame's command byte, and is the last of its operation. -/
theorem State.commandBytes_aborted {m : Micro} {s t : State} (h : s.micro m = .aborted t) (ms : List Micro) :
    ∃ es, t.trace = s.trace ++ es ∧ ∀ w, commandBytes w es <+: microCommands s.params.fillByte w (m :: ms) := by
  obtain ⟨b, rest, hm, -, rfl⟩ := State.micro_aborted h
  obtain ⟨-, -, -, -, -, -, -, -, -, -, -, -, -, htrace, -⟩ := State.abort_fields { s with answers := rest } b
  refine ⟨_, htrace, fun w => ?_⟩
  have hbytes : commandBytes w (if s.csn = .low then [.xferFail b, .csn .high] else [.xferFail b]) =
      if w then [b] else [] := by
    cases w <;> cases s.csn <;> rfl
  refine hbytes ▸ ?_
  rcases hm with rfl | ⟨rfl, rfl⟩ <;> cases w <;> simp [microCommands]

/-- The command bytes of a run are those of its micro-sequence, up to where the run ends. -/
theorem State.commandBytes_runMicros (ms : List Micro) (s : State) :
    ∃ es, (State.runMicros ms s).trace = s.trace ++ es ∧
      ∀ w, commandBytes w es <+: microCommands s.params.fillByte w ms := by
  induction ms generalizing s with
  | nil => exact ⟨[], by simp [State.runMicros, State.finish_trace], fun _ => List.nil_prefix⟩
  | cons m ms ih =>
    unfold State.runMicros
    split
    next t hdone =>
      obtain ⟨e, hd⟩ := State.micro_done hdone
      obtain ⟨es, htrace, hes⟩ := ih t
      rw [hd.params] at hes
      exact ⟨e :: es, by simp [htrace, hd.trace], commandBytes_cons_prefix hd.emits hes⟩
    next t habort => exact State.commandBytes_aborted habort ms
    next => exact ⟨[], by simp, fun _ => List.nil_prefix⟩

/-- The command bytes an instruction taken at rest puts on the bus are those of its micro-sequence, or the first of them. -/
theorem exec_commandBytes {i : Instr} {s t : State} (hb : s.busy = false) (h : exec i s = .next t) :
    ∃ es, t.trace = s.trace ++ es ∧ commandBytes false es <+: microCommands s.params.fillByte false (microSeq s.params i) := by
  rcases exec_cases i s with ⟨hbusy, -⟩ | ⟨-, -, st, -, heq⟩ | ⟨-, -, -, heq⟩ | ⟨-, -, heq⟩
  · simp [hb] at hbusy
  · cases heq.symm.trans h
    exact ⟨[], by simp, List.nil_prefix⟩
  · cases heq.symm.trans h
    obtain ⟨es, htrace, hes⟩ := State.commandBytes_runMicros (microSeq s.params i) (s.accept i)
    exact ⟨es, htrace, hes false⟩
  · cases heq.symm.trans h
    obtain ⟨io, d, hframe, -⟩ := State.wireFrame_eq (wireBytes s.params i) s
    exact ⟨[], by simp [hframe], List.nil_prefix⟩

/-- Settles O23: a run sends the first of the command bytes of its micro-sequence, or all of them, whatever the bus answers, and these are
known for every instruction. -/
theorem commandBytesOfBlockAreClosed : Obligations.CommandBytesOfBlockAreClosed := by
  intro i s t hb h
  obtain ⟨es, htrace, hes⟩ := exec_commandBytes hb h
  exact ⟨es, htrace, fun b hmem => blockSends_of_mem_microCommands _ i b (hes.subset hmem),
    fun hi b hmem => configurationSends_of_mem_microCommands hi (hes.subset hmem)⟩

end Sys2Proof.Machine

/-! SUPPORT. An offer at the host port that is no instruction (spec/30_encoding.md R96). -/

namespace Sys2Proof.Machine

theorem decodeRequest_of_illegal_op {r : Request} (h : 11 ≤ r.op.toNat) : decodeRequest r = .error (.illegalOp r.op) := by
  obtain ⟨k, hk⟩ := Nat.exists_eq_add_of_le' h
  simp only [decodeRequest, hk]

theorem State.nextOffer_host {s : State} {r : Request} {rest : List Request} (hbench : s.bench = [])
    (ho : s.offers = r :: rest) : s.nextOffer = some (.host r, { s with offers := rest }) := by
  simp [State.nextOffer, hbench, ho]

/-- A step at rest turns away what is no instruction. -/
theorem step_of_rejected {s t : State} {o : Offer} {r : Reject} (hb : s.busy = false) (hn : s.nextOffer = some (o, t))
    (hd : decode o = .error r) : step s = t.rejectOffer r := by
  simp [step, State.fetch, hb, hn, hd]

/-- A refusal at acceptance changes `upc`, the response and the count of free values (spec/60_exceptions.md R176). -/
theorem State.refuseWith_eq {s : State} (st : Status) (hb : s.busy = false) :
    s.refuseWith st = { s with
      upc := 0
      resp := some { status := st, rbyte := s.freeByte, rdata := [] }
      draws := s.draws + 1 } := by
  simp [State.refuseWith, State.respond, State.freeByte, hb]

/-- Settles O7: the offer decodes to no instruction, and what is no instruction for its operation code is refused as at
acceptance. -/
theorem illegalOperationCodeIsInvalidArgument : Obligations.IllegalOperationCodeIsInvalidArgument := by
  intro s r rest hb hbench ho hop
  have hstep : step s = .next (({ s with offers := rest } : State).refuseWith .invalidArgument) :=
    step_of_rejected hb (State.nextOffer_host hbench ho) (decodeRequest_of_illegal_op hop)
  exact ⟨s.freeByte, s.draws + 1, hstep.trans (congrArg Host.Outcome.next (State.refuseWith_eq _ hb))⟩

end Sys2Proof.Machine

/-! SUPPORT. The reference peer along the events of one transaction (spec/20_memory.md R57): what its command byte does, the
byte it is bound to, and the whole transaction as `Peer.transaction`. -/

namespace Sys2Proof.Machine

/-- Along the events of a transaction the peer takes the transaction. -/
theorem Peer.follow_frameTrace (p : Params) (ce : Level) (r : Peer) {mosi miso : List Byte}
    (h : miso.length = mosi.length) : Peer.follow p ce (frameTrace mosi miso) r = r.transaction p mosi :=
  Peer.follow_frame p ce mosi miso h r

/-- The command byte of a command that flushes no FIFO only opens its frame. -/
theorem Peer.onXfer_command (p : Params) (r : Peer) {c : WireCmd} (hrx : c ≠ .flushRx) (htx : c ≠ .flushTx) :
    r.onCsnLow.onXfer p (encodeCmd c) = { r with frame := some { cmd := some c, pos := 1, build := [] } } := by
  simp [Peer.onXfer, Peer.onCsnLow, Peer.onCommand, decodeCmd_encodeCmd, hrx, htx]

/-- In data slot 1 of `R_REGISTER` the peer is bound to the register (spec/40_register_access.md R114). -/
theorem Peer.miso_rRegister (p : Params) (r : Peer) (a : RegAddr) :
    (r.onCsnLow.onXfer p (encodeCmd (.rRegister a))).miso p = some (Memory.read p r.regs a) := by
  rw [Peer.onXfer_command p r (c := .rRegister a) nofun nofun]
  rfl

/-- After `R_RX_PAYLOAD` and some data slots the peer is bound to the next byte of the top entry, if there is one
(spec/41_payload_transfer.md R131). -/
theorem Peer.miso_rRxPayload (p : Params) (r : Peer) (bytes : List Byte) :
    ((encodeCmd .rRxPayload :: bytes).foldl (fun r b => r.onXfer p b) r.onCsnLow).miso p =
      r.rxFifo.head?.bind fun entry => entry[bytes.length]? := by
  rw [List.foldl_cons, Peer.onXfer_command p r (c := .rRxPayload) nofun nofun, Peer.data_rRxPayload p bytes _ 0 [] rfl,
    Nat.zero_add, Nat.add_comm]
  rfl

/-- A rise of CE sends the head of the TX FIFO, if there is one, from a powered transmitter. -/
theorem Peer.onCeRise_eq (p : Params) (r : Peer) :
    r.onCeRise p = { r with air := r.air ++
      (if pwrUp (Memory.read p r.regs 0) = true ∧ primRx (Memory.read p r.regs 0) = false
        then r.txFifo.head?.toList else []) } := by
  obtain ⟨regs, rxFifo, txFifo, air, frame⟩ := r
  cases txFifo with
  | nil => simp [Peer.onCeRise]
  | cons entry queue =>
    simp only [Peer.onCeRise]
    split
    · rfl
    · simp

/-- Settles O49: a transaction's events are `Peer.transaction`, which is known for each command, and outside a transaction
only a rise of CE is an event that the peer reacts to. -/
theorem peerCommandEffects : Obligations.PeerCommandEffects := by
  refine ⟨fun p ce r a v m0 m1 => ?_, fun p ce r a m0 m1 => ⟨?_, Peer.miso_rRegister p r a⟩,
    fun p ce r n miso hlen => ?_, fun p ce r bytes miso hlen => ?_, fun p ce l r b ns => ?_, fun p ce r m => ?_⟩
  · exact ⟨Memory.write p r.regs a v,
      (Peer.follow_frameTrace p ce r rfl).trans (Peer.transaction_wRegister p r a v),
      fun b => Memory.read_write p r.regs a b v⟩
  · exact (Peer.follow_frameTrace p ce r rfl).trans (Peer.transaction_rRegister p r a p.fillByte)
  · have hslots : miso.length = (0x61 :: List.replicate n p.fillByte : List Byte).length := by
      simp [hlen, Nat.add_comm]
    constructor
    · rw [Peer.follow_frameTrace p ce r hslots]
      exact (Peer.transaction_rRxPayload p r (List.replicate n p.fillByte)).trans (by rw [List.length_replicate])
    · rw [Peer.follow, Peer.follow_xfers p _ _ miso hslots]
      exact (Peer.miso_rRxPayload p r (List.replicate n p.fillByte)).trans (by rw [List.length_replicate])
  · rw [Peer.follow_frameTrace p ce r (by simp [hlen, Nat.add_comm])]
    exact Peer.transaction_wTxPayload p r bytes
  · exact ⟨Peer.onCeRise_eq p r, rfl, by simp [Peer.follow, Peer.react], rfl, rfl⟩
  · have hone (cmd : Byte) : Peer.follow p ce (frameTrace [cmd] [m]) r = r.transaction p [cmd] :=
      Peer.follow_frameTrace p ce r rfl
    exact ⟨(hone 0xE2).trans (Peer.transaction_flushRx p r), (hone 0xE1).trans (Peer.transaction_flushTx p r),
      (hone 0xE3).trans (Peer.transaction_reuseTxPl p r), (hone 0xFF).trans (Peer.transaction_nop p r)⟩

end Sys2Proof.Machine

/-! SUPPORT. Which transactions and which operations leave a register of the reference peer (spec/20_memory.md R57). -/

namespace Sys2Proof.Machine

/-! ### A transaction -/

/-- The peer is inside a transaction whose command, already seen, does not write register `a`. -/
def Peer.sparing (a : RegAddr) (r : Peer) : Prop :=
  ∃ f, r.frame = some f ∧ f.pos ≠ 0 ∧ f.cmd ≠ some (.wRegister a)

/-- A data byte of another command leaves the register, and the transaction goes on. -/
theorem Peer.onXfer_sparing {a : RegAddr} {r : Peer} (p : Params) (b : Byte) (h : r.sparing a) :
    (r.onXfer p b).sparing a ∧ Memory.read p (r.onXfer p b).regs a = Memory.read p r.regs a := by
  obtain ⟨⟨cmd, pos, build⟩, hframe, hpos, hcmd⟩ := h
  simp only [Peer.onXfer, hframe, if_neg hpos]
  match cmd with
  | some (.wRegister c) =>
    have hac : a ≠ c := fun hac => hcmd (by rw [hac])
    refine ⟨⟨_, rfl, Nat.succ_ne_zero _, hcmd⟩, ?_⟩
    show Memory.read p (if pos = 1 then Memory.write p r.regs c b else r.regs) a = Memory.read p r.regs a
    split
    · rw [Memory.read_write, if_neg hac]
    · rfl
  | none | some (.rRegister _) | some .rRxPayload | some .wTxPayload | some .flushTx | some .flushRx | some .reuseTxPl
  | some .nop => exact ⟨⟨_, rfl, Nat.succ_ne_zero _, hcmd⟩, rfl⟩

theorem Peer.read_foldl_onXfer {a : RegAddr} (p : Params) (bytes : List Byte) {r : Peer} (h : r.sparing a) :
    Memory.read p (bytes.foldl (fun r b => r.onXfer p b) r).regs a = Memory.read p r.regs a := by
  induction bytes generalizing r with
  | nil => rfl
  | cons b bs ih =>
    obtain ⟨hsparing, hread⟩ := Peer.onXfer_sparing p b h
    exact (ih hsparing).trans hread

/-- The chip-select rise writes no register. -/
theorem Peer.onCsnHigh_regs (p : Params) (r : Peer) : (r.onCsnHigh p).regs = r.regs := by
  unfold Peer.onCsnHigh
  split
  · rfl
  · split <;> rfl

/-- A transaction leaves every register that its command does not write. -/
theorem Peer.read_transaction {a : RegAddr} {c : WireCmd} (p : Params) (bytes : List Byte) (r : Peer)
    (h : c ≠ .wRegister a) :
    Memory.read p (r.transaction p (encodeCmd c :: bytes)).regs a = Memory.read p r.regs a := by
  have hcommand : r.onCsnLow.onXfer p (encodeCmd c) =
      ({ r with frame := some { cmd := none, pos := 0, build := [] } } : Peer).onCommand (encodeCmd c) := rfl
  have hsparing : (r.onCsnLow.onXfer p (encodeCmd c)).sparing a :=
    ⟨_, rfl, Nat.one_ne_zero, by rw [decodeCmd_encodeCmd]; simpa using h⟩
  rw [Peer.transaction, Peer.onCsnHigh_regs, List.foldl_cons, Peer.read_foldl_onXfer p bytes hsparing, hcommand]
  rfl

theorem Peer.onCeRise_regs (p : Params) (r : Peer) : (r.onCeRise p).regs = r.regs := by
  rw [Peer.onCeRise_eq]

/-- A wire row leaves every register that it does not write. -/
theorem Peer.read_transaction_wireBytes {a : RegAddr} {i : Instr} (p : Params) (r : Peer) (hi : i.isHost = false)
    (h : writesRegister a i = false) :
    Memory.read p (r.transaction p (wireBytes p i)).regs a = Memory.read p r.regs a := by
  cases i with
  | cmdWRegister b value =>
    exact Peer.read_transaction (c := .wRegister b) p [value] r (by simpa [writesRegister] using h)
  | cmdRRegister b => exact Peer.read_transaction (c := .rRegister b) p _ r nofun
  | cmdRRxPayload n => exact Peer.read_transaction (c := .rRxPayload) p _ r nofun
  | cmdWTxPayload bytes => exact Peer.read_transaction (c := .wTxPayload) p _ r nofun
  | cmdFlushTx => exact Peer.read_transaction (c := .flushTx) p _ r nofun
  | cmdFlushRx => exact Peer.read_transaction (c := .flushRx) p _ r nofun
  | cmdReuseTxPl => exact Peer.read_transaction (c := .reuseTxPl) p _ r nofun
  | cmdNop => exact Peer.read_transaction (c := .nop) p _ r nofun
  | _ => cases hi

/-! ### A micro-sequence -/

/-- Micro-ops that, all completed, leave register `a` of the peer. -/
def sparesRegister (p : Params) (a : RegAddr) (ms : List Micro) : Prop :=
  ∀ ce r, Memory.read p (peerAfter p ms ce r).regs a = Memory.read p r.regs a

theorem sparesRegister_append {p : Params} {a : RegAddr} {as bs : List Micro} (ha : sparesRegister p a as)
    (hb : sparesRegister p a bs) : sparesRegister p a (as ++ bs) := fun ce r => by
  rw [peerAfter_append, hb, ha]

theorem sparesRegister_txn {p : Params} {a : RegAddr} {c : WireCmd} {outs : List Byte} {n : Nat} {act : ModeAct}
    (h : c ≠ .wRegister a) : sparesRegister p a (txn (encodeCmd c) outs n act) := fun ce r => by
  rw [peerAfter_txn]
  exact Peer.read_transaction p _ r h

theorem sparesRegister_ce (p : Params) (a : RegAddr) (l : Level) (act : ModeAct) : sparesRegister p a [.ce l act] := by
  intro ce r
  show Memory.read p (if ce = .low ∧ l = .high then r.onCeRise p else r).regs a = _
  split
  · rw [Peer.onCeRise_regs]
  · rfl

/-- A register write leaves every other register. -/
theorem sparesRegister_seqWriteRegister {p : Params} {a : RegAddr} {addr value : Byte} (hcheck : checkAddr addr = none)
    (h : (addrLegal addr && decide (regOf addr = a)) = false) : sparesRegister p a (seqWriteRegister addr value) := by
  have hlegal : addrLegal addr = true := decide_eq_true ((checkAddr_eq_none addr).1 hcheck)
  exact sparesRegister_txn (c := .wRegister (regOf addr)) (by simpa [hlegal] using h)

/-- The micro-sequence of an operation leaves every register that the operation does not write. -/
theorem sparesRegister_microSeq {p : Params} {a : RegAddr} {i : Instr} {m : Mode} (hcheck : acceptCheck i m = none)
    (h : writesRegister a i = false) : sparesRegister p a (microSeq p i) := by
  have hwrite {b : RegAddr} {v : Byte} {act : ModeAct} (hb : a ≠ b) : sparesRegister p a (writeTxn b v act) :=
    sparesRegister_txn (c := .wRegister b) (by simpa using hb.symm)
  cases i with
  | init => exact sparesRegister_ce p a _ _
  | configureReceiveMode =>
    simp only [writesRegister, decide_eq_false_iff_not, List.mem_cons, not_or] at h
    obtain ⟨h0, h1, h2, h4, h5, h6, -⟩ := h
    exact sparesRegister_append (sparesRegister_ce p a _ _) <|
      sparesRegister_append (hwrite h0) <| sparesRegister_append (hwrite h1) <|
      sparesRegister_append (hwrite h2) <| sparesRegister_append (hwrite h4) <|
      sparesRegister_append (hwrite h6) <| sparesRegister_append (hwrite h5) <|
      sparesRegister_ce p a _ _
  | configureTransmitMode =>
    simp only [writesRegister, decide_eq_false_iff_not, List.mem_cons, not_or] at h
    obtain ⟨h0, h1, h2, h4, h5, h6, -⟩ := h
    exact sparesRegister_append (sparesRegister_ce p a _ _) <|
      sparesRegister_append (hwrite h0) <| sparesRegister_append (hwrite h1) <|
      sparesRegister_append (hwrite h2) <| sparesRegister_append (hwrite h4) <|
      sparesRegister_append (hwrite h6) (hwrite h5)
  | readRxPayload len => exact sparesRegister_txn (c := .rRxPayload) nofun
  | writeTxPayload bytes => exact sparesRegister_txn (c := .wTxPayload) nofun
  | transmitOne bytes =>
    have hdwell : sparesRegister p a [.dwell] := fun _ _ => rfl
    exact sparesRegister_append (sparesRegister_txn (c := .wTxPayload) nofun) <|
      sparesRegister_append (sparesRegister_ce p a _ _) <| sparesRegister_append hdwell (sparesRegister_ce p a _ _)
  | writeRegister addr value => exact sparesRegister_seqWriteRegister hcheck h
  | writeRegisterVerified addr value =>
    exact sparesRegister_append (sparesRegister_seqWriteRegister hcheck h)
      (sparesRegister_txn (c := .rRegister (regOf addr)) nofun)
  | readRegister addr => exact sparesRegister_txn (c := .rRegister (regOf addr)) nofun
  | flushRx => exact sparesRegister_txn (c := .flushRx) nofun
  | flushTx => exact sparesRegister_txn (c := .flushTx) nofun
  | cmdRRegister _ | cmdWRegister _ _ | cmdRRxPayload _ | cmdWTxPayload _ | cmdFlushTx | cmdFlushRx | cmdReuseTxPl
  | cmdNop => exact fun _ _ => rfl

end Sys2Proof.Machine

/-! SUPPORT. Runs on a bus that the reference peer answers (spec/20_memory.md R57, R68): they come to their end, the bytes
received are the peer's, and the bus stays so. -/

namespace Sys2Proof.Machine

/-! ### A run -/

/-- What the peer is bound to, if to anything, in the byte that a micro-op receives: none but `In` receives one. -/
def Micro.boundBytes (p : Params) (r : Peer) : Micro → List (Option Byte)
  | .recv => [r.miso p]
  | .csnLow => []
  | .csnHigh _ => []
  | .ce _ _ => []
  | .out _ => []
  | .dwell => []

/-- The same for micro-ops that all complete, byte by byte in the order received. -/
def boundBytes (p : Params) : List Micro → Level → Peer → List (Option Byte)
  | [], _, _ => []
  | m :: ms, ce, r => m.boundBytes p r ++ boundBytes p ms (m.ceAfter ce) (m.reactPeer p ce r)

/-- A byte received is the one the peer is bound to, where it is bound to one. -/
def meetsBound (x : Byte) (bound : Option Byte) : Prop := ∀ y, bound = some y → x = y

/-- A micro-op on a bus that the peer answers completes, and the peer answers on. -/
theorem State.micro_peer (m : Micro) {s : State} (h : s.busIsPeer) :
    ∃ (t : State) (bs : List Byte), s.micro m = .done t ∧ t.busIsPeer ∧ t.rxbuf = s.rxbuf ++ bs ∧
      List.Forall₂ meetsBound bs (m.boundBytes s.params s.peer) := by
  cases m with
  | out b =>
    obtain ⟨x, t, hx, hpeer, -⟩ := State.spiXfer_peer (b := b) h
    have hrx : t.rxbuf = s.rxbuf := by obtain ⟨as, d, rfl⟩ := State.spiXfer_ok hx; rfl
    exact ⟨t.completed .keep, [], by simp only [State.micro, State.outByte, hx], hpeer, by simp [hrx], .nil⟩
  | recv =>
    obtain ⟨x, t, hx, hpeer, hbound⟩ := State.spiXfer_peer (b := s.params.fillByte) h
    have hrx : t.rxbuf = s.rxbuf := by obtain ⟨as, d, rfl⟩ := State.spiXfer_ok hx; rfl
    exact ⟨({ t with rxbuf := t.rxbuf ++ [x] } : State).completed .keep, [x],
      by simp only [State.micro, State.inByte, hx], hpeer, by simp [hrx], .cons hbound .nil⟩
  | csnLow | csnHigh _ | ce _ _ | dwell => exact ⟨_, [], rfl, h, (List.append_nil _).symm, .nil⟩

/-- A run on a bus that the peer answers comes to its end. -/
theorem State.runMicros_peer (ms : List Micro) {s : State} (h : s.busIsPeer) :
    ∃ (u : State) (bs : List Byte), State.runMicros ms s = u.finish ∧ u.busIsPeer ∧ u.cur = s.cur ∧
      u.rxbuf = s.rxbuf ++ bs ∧ List.Forall₂ meetsBound bs (boundBytes s.params ms s.ce s.peer) := by
  induction ms generalizing s with
  | nil => exact ⟨s, [], rfl, h, rfl, (List.append_nil _).symm, .nil⟩
  | cons m ms ih =>
    obtain ⟨t, bs, hdone, ht, hrx, hbs⟩ := State.micro_peer m h
    obtain ⟨u, cs, hrun, hu, hcur, hrx', hcs⟩ := ih ht
    obtain ⟨e, hd⟩ := State.micro_done hdone
    obtain ⟨hpeer, hce⟩ := State.micro_reactPeer hdone
    rw [hd.params, hpeer, hce] at hcs
    exact ⟨u, bs ++ cs, by rw [State.runMicros_cons_done hdone, hrun], hu, hcur.trans hd.cur,
      by rw [hrx', hrx, List.append_assoc], List.rel_append hbs hcs⟩

theorem State.busIsPeer.busGood {s : State} (h : s.busIsPeer) : s.busGood := fun a ha => by
  rw [h a ha]
  exact ⟨nofun, nofun⟩

/-- On a bus that neither fails nor hangs the peer after a run is a function of the micro-sequence. -/
theorem State.runMicros_good_peer (ms : List Micro) {s : State} (h : s.busGood) :
    (State.runMicros ms s).peer = peerAfter s.params ms s.ce s.peer ∧ (State.runMicros ms s).params = s.params := by
  obtain ⟨u, hrun, hpeer, -, -, hparams, -, -⟩ := State.runMicros_good ms s h
  obtain ⟨r, d, hfinish⟩ := State.finish_eq u
  rw [hrun, hfinish]
  exact ⟨hpeer, hparams⟩

/-! ### An instruction -/

/-- An instruction taken at rest, on a bus that the peer answers, ends at rest, the peer answers on, and the registers that
it does not write stay. -/
theorem exec_sparesRegister (i : Instr) {s : State} (hb : s.busy = false) (h : s.busIsPeer) :
    ∃ t, exec i s = .next t ∧ t.busy = false ∧ t.busIsPeer ∧
      ∀ a, writesRegister a i = false → Memory.read t.params t.peer.regs a = Memory.read s.params s.peer.regs a := by
  rcases exec_cases i s with ⟨hbusy, -⟩ | ⟨-, -, st, -, heq⟩ | ⟨-, -, hcheck, heq⟩ | ⟨-, hi, heq⟩
  · simp [hb] at hbusy
  · exact ⟨_, heq, rfl, h, fun _ _ => rfl⟩
  · have hstart : (s.accept i).busIsPeer := h
    obtain ⟨hpeer, hparams⟩ := State.runMicros_good_peer (microSeq s.params i) hstart.busGood
    obtain ⟨u, -, hrun, hu, -⟩ := State.runMicros_peer (microSeq s.params i) hstart
    obtain ⟨r, d, hfinish⟩ := State.finish_eq u
    refine ⟨_, heq, by rw [hrun, hfinish], by rw [hrun, hfinish]; exact hu, fun a ha => ?_⟩
    rw [hpeer, hparams]
    exact sparesRegister_microSeq hcheck ha _ _
  · obtain ⟨io, d, hframe, -⟩ := State.wireFrame_eq (wireBytes s.params i) s
    rw [hframe] at heq
    exact ⟨_, heq, hb, h, fun a ha => Peer.read_transaction_wireBytes s.params s.peer hi ha⟩

/-- Instructions taken one after another. -/
theorem execAll_sparesRegister (is : List Instr) {s : State} (hb : s.busy = false) (h : s.busIsPeer) :
    ∃ t, execAll is s = .next t ∧ t.busy = false ∧ t.busIsPeer ∧ ∀ a, (∀ i ∈ is, writesRegister a i = false) →
      Memory.read t.params t.peer.regs a = Memory.read s.params s.peer.regs a := by
  induction is generalizing s with
  | nil => exact ⟨s, rfl, hb, h, fun _ _ => rfl⟩
  | cons i is ih =>
    obtain ⟨t, hexec, htb, ht, hread⟩ := exec_sparesRegister i hb h
    obtain ⟨u, hall, hub, hu, hread'⟩ := ih htb ht
    refine ⟨u, by simp only [execAll, hexec, hall], hub, hu, fun a ha => ?_⟩
    obtain ⟨hi, his⟩ := List.forall_mem_cons.1 ha
    exact (hread' a his).trans (hread a hi)

theorem execAll_append {is js : List Instr} {s t : State} (h : execAll is s = .next t) :
    execAll (is ++ js) s = execAll js t := by
  induction is generalizing s with
  | nil => cases h; rfl
  | cons i is ih =>
    simp only [execAll] at h
    cases hexec : exec i s with
    | next u =>
      rw [hexec] at h
      simp only [List.cons_append, execAll, hexec]
      exact ih h
    | fault r => rw [hexec] at h; cases h
    | refused r => rw [hexec] at h; cases h

end Sys2Proof.Machine

/-! SUPPORT. Register access (spec/40_register_access.md): what the peer answers to the register operations, and what they
deliver of it (R115). -/

namespace Sys2Proof.Machine

/-! ### The byte received -/

theorem boundBytes_append (p : Params) (as bs : List Micro) (ce : Level) (r : Peer) :
    boundBytes p (as ++ bs) ce r =
      boundBytes p as ce r ++ boundBytes p bs (as.foldl (fun c m => m.ceAfter c) ce) (peerAfter p as ce r) := by
  induction as generalizing ce r with
  | nil => rfl
  | cons m as ih => simp only [List.cons_append, boundBytes, ih, List.append_assoc, List.foldl_cons, peerAfter]

/-- A register write receives nothing. -/
theorem boundBytes_seqWriteRegister (p : Params) (addr value : Byte) (ce : Level) (r : Peer) :
    boundBytes p (seqWriteRegister addr value) ce r = [] := rfl

/-- A register read receives the register (R114). -/
theorem boundBytes_seqReadRegister (p : Params) (addr : Byte) (ce : Level) (r : Peer) :
    boundBytes p (seqReadRegister addr) ce r = [some (Memory.read p r.regs (regOf addr))] :=
  congrArg (fun bound => [bound]) (Peer.miso_rRegister p r (regOf addr))

/-- A register write puts its value into the register (R113). -/
theorem read_peerAfter_seqWriteRegister (p : Params) (addr value : Byte) (ce : Level) (r : Peer) :
    Memory.read p (peerAfter p (seqWriteRegister addr value) ce r).regs (regOf addr) = value := by
  have htxn : peerAfter p (seqWriteRegister addr value) ce r =
      r.transaction p [encodeCmd (.wRegister (regOf addr)), value] := peerAfter_txn p _ [value] 0 .keep ce r
  rw [htxn, Peer.transaction_wRegister, Memory.read_write, if_pos rfl]

/-- A verified write receives the value written. -/
theorem boundBytes_seqWriteRegisterVerified (p : Params) (addr value : Byte) (ce : Level) (r : Peer) :
    boundBytes p (seqWriteRegisterVerified addr value) ce r = [some value] := by
  have hseq : seqWriteRegisterVerified addr value = seqWriteRegister addr value ++ seqReadRegister addr := rfl
  rw [hseq, boundBytes_append, boundBytes_seqWriteRegister, boundBytes_seqReadRegister,
    read_peerAfter_seqWriteRegister, List.nil_append]

/-! ### The operations -/

/-- The response of an operation that defines `rbyte` and received one byte (spec/10_state.md R22). -/
theorem State.finish_resp {s : State} {x : Byte} (hdef : definesRbyte s.cur = true) (hrx : s.rxbuf = [x]) :
    s.finish.resp = some { status := endStatus s.cur x, rbyte := x, rdata := endRdata s.cur [x] } := by
  rw [State.finish_rbyte hdef, hrx]
  rfl

/-- An operation that defines `rbyte` and for whose one received byte the peer is bound to a value delivers that value. -/
theorem exec_resp_of_boundBytes {i : Instr} {s : State} {x : Byte} (hi : i.isHost = true)
    (hdef : definesRbyte i = true) (hb : s.busy = false) (h : s.busIsPeer) (hcheck : acceptCheck i s.mode = none)
    (hbound : boundBytes s.params (microSeq s.params i) s.ce s.peer = [some x]) :
    ∃ t, exec i s = .next t ∧ t.resp = some { status := endStatus i x, rbyte := x, rdata := endRdata i [x] } := by
  have hstart : (s.accept i).busIsPeer := h
  obtain ⟨u, bs, hrun, -, hcur, hrx, hbs⟩ := State.runMicros_peer (microSeq s.params i) hstart
  have hcur' : u.cur = i := hcur
  have hrx' : u.rxbuf = [x] := by
    rw [show boundBytes (s.accept i).params _ (s.accept i).ce (s.accept i).peer = [some x] from hbound,
      List.forall₂_cons_right_iff] at hbs
    obtain ⟨y, ys, hy, hys, rfl⟩ := hbs
    rw [hrx, List.forall₂_nil_right_iff.1 hys, hy x rfl]
    rfl
  refine ⟨_, exec_runs hi hb hcheck, ?_⟩
  rw [hrun, State.finish_resp (hcur'.symm ▸ hdef) hrx', hcur']

/-- A register read delivers the register. -/
theorem exec_readRegister_peer {s : State} {addr : Byte} (hb : s.busy = false) (h : s.busIsPeer) (ha : addr ≤ 0x1F) :
    ∃ t, exec (.readRegister addr) s = .next t ∧ t.resp = some {
      status := .ok
      rbyte := Memory.read s.params s.peer.regs (regOf addr)
      rdata := [] } :=
  exec_resp_of_boundBytes rfl rfl hb h ((checkAddr_eq_none addr).2 ha)
    (boundBytes_seqReadRegister s.params addr s.ce s.peer)

/-- A verified write delivers the value and ends `Ok` (R115). -/
theorem exec_writeRegisterVerified_peer {s : State} {addr value : Byte} (hb : s.busy = false) (h : s.busIsPeer)
    (ha : addr ≤ 0x1F) :
    ∃ t, exec (.writeRegisterVerified addr value) s = .next t ∧
      t.resp = some { status := .ok, rbyte := value, rdata := [] } := by
  have hok : endStatus (.writeRegisterVerified addr value) value = .ok := if_pos rfl
  rw [← hok]
  exact exec_resp_of_boundBytes rfl rfl hb h ((checkAddr_eq_none addr).2 ha)
    (boundBytes_seqWriteRegisterVerified s.params addr value s.ce s.peer)

/-- After a register write the register reads as the value. -/
theorem exec_writeRegister_read {s t : State} {addr value : Byte} (hb : s.busy = false) (h : s.busIsPeer)
    (ha : addr ≤ 0x1F) (hexec : exec (.writeRegister addr value) s = .next t) :
    Memory.read t.params t.peer.regs (regOf addr) = value := by
  have hstart : (s.accept (.writeRegister addr value)).busIsPeer := h
  obtain ⟨hpeer, hparams⟩ := State.runMicros_good_peer (seqWriteRegister addr value) hstart.busGood
  have hruns := exec_runs (i := .writeRegister addr value) rfl hb ((checkAddr_eq_none addr).2 ha)
  cases hruns.symm.trans hexec
  simp only [microSeq, hpeer, hparams]
  exact read_peerAfter_seqWriteRegister _ addr value _ _

/-- A register read delivers whatever byte the bus side answers in its data slot. -/
theorem exec_readRegister_byte {s : State} {addr cmd x : Byte} {rest : List Answer} (hb : s.busy = false)
    (ha : addr ≤ 0x1F) (hanswers : s.answers = .byte cmd :: .byte x :: rest) :
    ∃ t, exec (.readRegister addr) s = .next t ∧ t.resp = some { status := .ok, rbyte := x, rdata := [] } := by
  have htxn := State.runMicros_txn (readCmd addr) cmd [] [] [x] .keep [] (s.accept (.readRegister addr)) rest rfl hanswers
  rw [List.append_nil] at htxn
  refine ⟨_, exec_runs rfl hb ((checkAddr_eq_none addr).2 ha), ?_⟩
  exact (congrArg State.resp htxn).trans (State.finish_resp rfl rfl)

/-! ### The round trip -/

/-- The whole round trip: it runs through, and where the address is legal and nothing between writes the register, the read
delivers the value written. -/
theorem execAll_roundTrip {s : State} (addr value : Byte) (between : List Instr) (hb : s.busy = false)
    (h : s.busIsPeer) :
    ∃ t, execAll (.writeRegister addr value :: (between ++ [.readRegister addr])) s = .next t ∧
      (addr ≤ 0x1F → (∀ i ∈ between, writesRegister (regOf addr) i = false) →
        t.resp = some { status := .ok, rbyte := value, rdata := [] }) := by
  obtain ⟨u, hwrite, hub, hu, -⟩ := exec_sparesRegister (.writeRegister addr value) hb h
  obtain ⟨v, hbetween, hvb, hv, hspares⟩ := execAll_sparesRegister between hub hu
  obtain ⟨t, hread, -⟩ := exec_sparesRegister (.readRegister addr) hvb hv
  refine ⟨t, by simp only [execAll, hwrite, execAll_append hbetween, hread], fun ha hfree => ?_⟩
  obtain ⟨t', hread', hresp⟩ := exec_readRegister_peer hvb hv ha
  cases hread.symm.trans hread'
  rw [hresp, hspares _ hfree, exec_writeRegister_read hb h ha hwrite]

/-- Settles O47: the write leaves the value in the register, what runs between spares it, and the read is bound to it. -/
theorem registerRoundTrip : Obligations.RegisterRoundTrip := by
  refine ⟨fun s t addr value between hb h ha hfree hall => ?_, fun s addr value between hb h => ?_,
    fun s addr value hb h ha => exec_writeRegisterVerified_peer hb h ha, fun s addr any hb ha => ?_⟩
  · obtain ⟨t', hall', hresp⟩ := execAll_roundTrip addr value between hb h
    cases hall.symm.trans hall'
    exact hresp ha hfree
  · obtain ⟨t, hall, -⟩ := execAll_roundTrip addr value between hb h
    exact ⟨t, hall⟩
  · exact ⟨[.byte 0, .byte any], exec_readRegister_byte (s := { s with answers := _ }) (rest := []) hb ha rfl⟩

end Sys2Proof.Machine

/-! SUPPORT. Payload transfer (spec/41_payload_transfer.md): the bytes that the peer answers to a payload read, and what the
two payload operations leave in its FIFOs (R140). -/

namespace Sys2Proof.Machine

/-! ### The bytes received -/

/-- Bytes that are each bound are the bytes they are bound to. -/
theorem eq_of_meetsBound_some {bs xs : List Byte} (h : List.Forall₂ meetsBound bs (xs.map some)) : bs = xs := by
  rw [List.forall₂_map_right_iff] at h
  have heq : List.Forall₂ (· = ·) bs xs := h.imp fun b x hbound => hbound x rfl
  rwa [List.forall₂_eq_eq_eq] at heq

/-- After `R_RX_PAYLOAD` and some data slots the next slots receive the next bytes of the top entry, as far as it reaches
(R131). -/
theorem boundBytes_rRxPayload_slots {entry : List Byte} {others : List (List Byte)} {r : Peer} (p : Params) (ce : Level)
    (act : ModeAct) (n : Nat) (bytes : List Byte) (hfifo : r.rxFifo = entry :: others)
    (hlen : bytes.length + n ≤ entry.length) :
    boundBytes p (List.replicate n .recv ++ [.csnHigh act]) ce
        ((encodeCmd .rRxPayload :: bytes).foldl (fun r b => r.onXfer p b) r.onCsnLow) =
      ((entry.drop bytes.length).take n).map some := by
  induction n generalizing bytes with
  | zero => rfl
  | succ n ih =>
    have hlt : bytes.length < entry.length := by omega
    have hmiso : ((encodeCmd .rRxPayload :: bytes).foldl (fun r b => r.onXfer p b) r.onCsnLow).miso p =
        some entry[bytes.length] := by
      rw [Peer.miso_rRxPayload, hfifo]
      exact List.getElem?_eq_getElem hlt
    have hrest := ih (bytes ++ [p.fillByte]) (by rw [List.length_append, List.length_singleton]; omega)
    rw [← List.cons_append, List.foldl_append, List.length_append, List.length_singleton] at hrest
    rw [List.drop_eq_getElem_cons hlt, List.take_succ_cons, List.map_cons, ← hmiso, ← hrest]
    rfl

/-- A payload read within the top entry receives the entry's first bytes. -/
theorem boundBytes_seqReadRxPayload {entry : List Byte} {others : List (List Byte)} {r : Peer} {len : Byte} (p : Params)
    (ce : Level) (hfifo : r.rxFifo = entry :: others) (hlen : len.toNat ≤ entry.length) :
    boundBytes p (seqReadRxPayload len) ce r = (entry.take len.toNat).map some :=
  boundBytes_rRxPayload_slots p ce .keep len.toNat [] hfifo (by rwa [List.length_nil, Nat.zero_add])

/-! ### The operations -/

/-- An operation accepted on a bus that neither fails nor hangs leaves the peer where its micro-sequence does. -/
theorem runMicros_accept_peer (i : Instr) {s : State} (h : s.busGood) :
    (State.runMicros (microSeq s.params i) (s.accept i)).peer = peerAfter s.params (microSeq s.params i) s.ce s.peer :=
  have hstart : (s.accept i).busGood := h
  (State.runMicros_good_peer _ hstart).1

/-- A payload write is one `W_TX_PAYLOAD` transaction at the peer. -/
theorem runMicros_writeTxPayload_peer {s : State} (bytes : List Byte) (h : s.busGood) :
    (State.runMicros (microSeq s.params (.writeTxPayload bytes)) (s.accept (.writeTxPayload bytes))).peer =
      s.peer.transaction s.params (encodeCmd .wTxPayload :: bytes) := by
  rw [runMicros_accept_peer _ h, microSeq, seqWriteTxPayload, peerAfter_txn, List.replicate_zero, List.append_nil]

/-- A payload read is one `R_RX_PAYLOAD` transaction at the peer. -/
theorem runMicros_readRxPayload_peer {s : State} (len : Byte) (h : s.busGood) :
    (State.runMicros (microSeq s.params (.readRxPayload len)) (s.accept (.readRxPayload len))).peer =
      s.peer.transaction s.params (encodeCmd .rRxPayload :: List.replicate len.toNat s.params.fillByte) := by
  rw [runMicros_accept_peer _ h, microSeq, seqReadRxPayload, peerAfter_txn, List.nil_append]

/-- A payload read within the top entry delivers the entry's first bytes. -/
theorem runMicros_readRxPayload_resp {s : State} {len : Byte} {entry : List Byte} {others : List (List Byte)}
    (h : s.busIsPeer) (hfifo : s.peer.rxFifo = entry :: others) (hlen : len.toNat ≤ entry.length) :
    ∃ r, (State.runMicros (microSeq s.params (.readRxPayload len)) (s.accept (.readRxPayload len))).resp =
      some { status := .ok, rbyte := r, rdata := entry.take len.toNat } := by
  have hstart : (s.accept (.readRxPayload len)).busIsPeer := h
  obtain ⟨u, bs, hrun, -, hcur, hrx, hbs⟩ := State.runMicros_peer (microSeq s.params (.readRxPayload len)) hstart
  have hbound : boundBytes s.params (microSeq s.params (.readRxPayload len)) s.ce s.peer =
      (entry.take len.toNat).map some := boundBytes_seqReadRxPayload s.params s.ce hfifo hlen
  have hbytes : u.rxbuf = entry.take len.toNat := hrx.trans (eq_of_meetsBound_some (hbound ▸ hbs))
  have hcur' : u.cur = .readRxPayload len := hcur
  obtain ⟨r, d, hfinish⟩ := State.finish_eq u
  exact ⟨r, by rw [hrun, hfinish, hcur', hbytes]; rfl⟩

/-- Settles O48: a payload operation is one transaction at the peer, which queues the payload written where there is room,
and is bound to the first bytes of the entry read. -/
theorem fifoReadback : Obligations.FifoReadback := by
  refine ⟨fun s bytes hb h hlen hroom => ?_, fun s len entry others hb h hlegal hfifo hlen => ?_⟩
  · refine ⟨_, exec_runs rfl hb ((checkLen_eq_none _).2 hlen), ?_⟩
    rw [runMicros_writeTxPayload_peer bytes h, Peer.transaction_wTxPayload, if_pos hroom]
    exact ⟨rfl, rfl⟩
  · obtain ⟨r, hresp⟩ := runMicros_readRxPayload_resp h hfifo hlen
    refine ⟨_, r, exec_runs rfl hb ((checkLen_eq_none _).2 (BitVec.le_def.1 hlegal)), hresp, ?_⟩
    rw [runMicros_readRxPayload_peer len h.busGood, Peer.transaction_rRxPayload, List.length_replicate, hfifo,
      List.tail_cons]

end Sys2Proof.Machine

/-! SUPPORT. A run up to a failed transfer (spec/60_exceptions.md R176): the micro-ops before it, which all complete, and the
abort after them. -/

namespace Sys2Proof.Machine

/-! ### The micro-ops before a transfer -/

theorem bytesFrom_succ (n : Nat) (m : Nat → Byte) :
    bytesFrom (n + 1) m = .byte (m 0) :: bytesFrom n fun k => m (k + 1) := by
  simp [bytesFrom, List.range_succ_eq_map, Function.comp_def]

/-- The micro-op is a transfer that shifts `b` out. -/
def Micro.sends (fill b : Byte) (m : Micro) : Prop := m = .out b ∨ (m = .recv ∧ b = fill)

/-- Micro-ops with more than `k` transfers are those before the transfer that `k` transfers precede, that transfer, and
others. -/
theorem beforeTransfer_split {fill : Byte} {k : Nat} {ms : List Micro} (h : k < (transferBytes fill ms).length) :
    ∃ (b : Byte) (m : Micro) (next : List Micro), ms = beforeTransfer k ms ++ m :: next ∧ m.sends fill b ∧
      (transferBytes fill ms)[k]? = some b ∧ (transferBytes fill (beforeTransfer k ms)).length = k := by
  induction ms generalizing k with
  | nil => cases h
  | cons m ms ih =>
    cases m with
    | out _ | recv =>
      cases k with
      | zero => exact ⟨_, _, ms, rfl, by simp [Micro.sends], rfl, rfl⟩
      | succ k =>
        obtain ⟨b, m, next, hms, hm, hb, hlen⟩ := ih (Nat.lt_of_succ_lt_succ h)
        exact ⟨b, m, next, congrArg (_ :: ·) hms, hm, hb, congrArg (· + 1) hlen⟩
    | csnLow | csnHigh _ | ce _ _ | dwell =>
      obtain ⟨b, m, next, hms, hm, hb, hlen⟩ := ih h
      cases k <;> exact ⟨b, m, next, congrArg (_ :: ·) hms, hm, hb, hlen⟩

theorem beforeTransfer_subset (k : Nat) (ms : List Micro) : beforeTransfer k ms ⊆ ms := by
  induction ms generalizing k with
  | nil => cases k <;> exact List.Subset.refl _
  | cons m ms ih =>
    cases k with
    | zero =>
      unfold beforeTransfer
      split
      · exact List.nil_subset _
      · exact List.cons_subset_cons m (ih 0)
    | succ k => exact List.cons_subset_cons m (ih _)

/-! ### The run -/

/-- A completed micro-op did what its event in the trace says. -/
theorem State.microDone_of_trace {m : Micro} {s t : State} {e : Event} (h : s.micro m = .done t)
    (ht : t.trace = s.trace ++ [e]) : MicroDone m s t e := by
  obtain ⟨e', hd⟩ := State.micro_done h
  cases List.append_cancel_left (hd.trace.symm.trans ht)
  exact hd

/-- The first of micro-ops whose transfers are all answered with bytes completes, with its event, and leaves the answers of
the others. -/
theorem State.micro_bytes {m : Micro} {ms : List Micro} {s : State} {x : Nat → Byte} {rest : List Answer} (ns : Nat)
    (hm : m ≠ .dwell) (ha : s.answers = bytesFrom (transferBytes s.params.fillByte (m :: ms)).length x ++ rest) :
    ∃ t e y, s.micro m = .done t ∧ MicroDone m s t e ∧ t.draws = s.draws ∧
      t.answers = bytesFrom (transferBytes s.params.fillByte ms).length y ++ rest ∧
      eventsOf s.params.fillByte ns x (m :: ms) = e :: eventsOf s.params.fillByte ns y ms := by
  cases m with
  | csnLow | csnHigh _ | ce _ _ => exact ⟨_, _, x, rfl, State.microDone_of_trace rfl rfl, rfl, ha, rfl⟩
  | out b =>
    have hdone := State.micro_out_byte (b := b) (ha.trans (congrArg (· ++ rest) (bytesFrom_succ _ x)))
    exact ⟨_, _, _, hdone, State.microDone_of_trace hdone rfl, rfl, rfl, rfl⟩
  | recv =>
    have hdone := State.micro_recv_byte (ha.trans (congrArg (· ++ rest) (bytesFrom_succ _ x)))
    exact ⟨_, _, _, hdone, State.microDone_of_trace hdone rfl, rfl, rfl, rfl⟩
  | dwell => exact absurd rfl hm

/-- Micro-ops without a dwell whose transfers are answered with bytes all complete: they leave the lines and the mode as
they make them, their events, and the peer that follows these. -/
theorem State.runMicros_bytes {ms : List Micro} {s : State} {x : Nat → Byte} {rest : List Answer} (ns : Nat)
    (next : List Micro) (hms : Micro.dwell ∉ ms)
    (ha : s.answers = bytesFrom (transferBytes s.params.fillByte ms).length x ++ rest) :
    ∃ u rx, State.runMicros (ms ++ next) s = State.runMicros next { s with
      mode := (linesAfter ms { csn := s.csn, ce := s.ce, mode := s.mode }).mode
      csn := (linesAfter ms { csn := s.csn, ce := s.ce, mode := s.mode }).csn
      ce := (linesAfter ms { csn := s.csn, ce := s.ce, mode := s.mode }).ce
      upc := u
      rxbuf := rx
      answers := rest
      trace := s.trace ++ eventsOf s.params.fillByte ns x ms
      peer := Peer.follow s.params s.ce (eventsOf s.params.fillByte ns x ms) s.peer } := by
  induction ms generalizing s x with
  | nil =>
    have hrest : s.answers = rest := ha
    exact ⟨s.upc, s.rxbuf, by simp [← hrest, linesAfter, eventsOf, Peer.follow]⟩
  | cons m ms ih =>
    obtain ⟨hm, hms⟩ := not_or.1 (List.mem_cons.not.1 hms)
    obtain ⟨t, e, y, hdone, hd, hdraws, hanswers, hevents⟩ := State.micro_bytes ns (Ne.symm hm) ha
    obtain ⟨u, rx, hrun⟩ := ih hms (hd.params ▸ hanswers)
    refine ⟨u, rx, (State.runMicros_cons_done hdone).trans (hrun.trans ?_)⟩
    congr 1
    simp only [hevents, linesAfter, ← hd.lines, Peer.follow, ← hd.peer, ← hd.ceAfter, hd.params, hd.trace, hd.busy,
      hd.cur, hd.busFault, hd.offers, hd.resp, hd.irq, hd.bench, hd.exchanged, hdraws, List.append_assoc,
      List.cons_append, List.nil_append]

/-- A transfer that fails inside a frame ends the operation with the abort (R176). -/
theorem State.runMicros_cons_failed {m : Micro} {s : State} {b : Byte} {rest : List Answer} (next : List Micro)
    (hm : m.sends s.params.fillByte b) (ha : s.answers = .fail :: rest) (hcsn : s.csn = .low) :
    ∃ r d, State.runMicros (m :: next) s = { s with
      csn := .high
      busy := false
      upc := 0
      rxbuf := []
      busFault := true
      resp := some { status := .busTransportFailure, rbyte := r, rdata := [] }
      answers := rest
      trace := s.trace ++ [.xferFail b, .csn .high]
      peer := s.peer.onCsnHigh s.params
      draws := d } := by
  obtain ⟨r, d, habort⟩ := State.abort_eq (s := { s with answers := rest }) b hcsn
  refine ⟨r, d, Eq.trans ?_ habort⟩
  rcases hm with rfl | ⟨rfl, rfl⟩
  · simp only [State.runMicros, State.micro, State.outByte, State.spiXfer_failed ha]
  · simp only [State.runMicros, State.micro, State.inByte, State.spiXfer_failed ha]

/-- The peer sees the frame of a failed transfer close, and nothing of the transfer. -/
theorem Peer.follow_abort (p : Params) (ce : Level) (es : List Event) (b : Byte) (r : Peer) :
    Peer.follow p ce (es ++ [.xferFail b, .csn .high]) r = (Peer.follow p ce es r).onCsnHigh p := by
  rw [Peer.follow_append]
  rfl

/-- AN OPERATION UP TO A FAILED TRANSFER, once: where the transfer after the first `k` fails, inside a frame, and no dwell
comes before it, the micro-ops before it complete and the operation ends with the abort. -/
theorem exec_failed {i : Instr} {s : State} {k : Nat} {x : Nat → Byte} {rest : List Answer} (ns : Nat)
    (hi : i.isHost = true) (hb : s.busy = false) (hcheck : acceptCheck i s.mode = none)
    (hk : k < (transferBytes s.params.fillByte (microSeq s.params i)).length)
    (hdwell : Micro.dwell ∉ beforeTransfer k (microSeq s.params i))
    (hcsn : (linesAfter (beforeTransfer k (microSeq s.params i))
      { csn := s.csn, ce := s.ce, mode := s.mode }).csn = .low)
    (ha : s.answers = bytesFrom k x ++ .fail :: rest) :
    ∃ b, (transferBytes s.params.fillByte (microSeq s.params i))[k]? = some b ∧ ∃ r d, exec i s = .next { s with
      mode := (linesAfter (beforeTransfer k (microSeq s.params i)) { csn := s.csn, ce := s.ce, mode := s.mode }).mode
      csn := .high
      ce := (linesAfter (beforeTransfer k (microSeq s.params i)) { csn := s.csn, ce := s.ce, mode := s.mode }).ce
      cur := i
      upc := 0
      rxbuf := []
      busFault := true
      resp := some { status := .busTransportFailure, rbyte := r, rdata := [] }
      answers := rest
      trace := s.trace ++ (eventsOf s.params.fillByte ns x (beforeTransfer k (microSeq s.params i)) ++
        [.xferFail b, .csn .high])
      peer := Peer.follow s.params s.ce (eventsOf s.params.fillByte ns x (beforeTransfer k (microSeq s.params i)) ++
        [.xferFail b, .csn .high]) s.peer
      draws := d } := by
  obtain ⟨b, m, next, hms, hm, hbyte, hlen⟩ := beforeTransfer_split hk
  obtain ⟨u, rx, hrun⟩ := State.runMicros_bytes (s := s.accept i) ns (m :: next) hdwell (hlen.symm ▸ ha)
  refine ⟨b, hbyte, ?_⟩
  rw [← hms] at hrun
  simp only [exec_runs hi hb hcheck, hrun, Peer.follow_abort, ← List.append_assoc, hb, Host.Outcome.next.injEq]
  exact State.runMicros_cons_failed next hm rfl hcsn

end Sys2Proof.Machine

/-! SUPPORT. Mode configuration (spec/42_mode_configuration.md): `init`, and the two configuration sequences up to one of
their transfers. -/

namespace Sys2Proof.Machine

/-! ### `init` -/

/-- Settles O35: its one micro-op makes no transfer, so it runs to its end whatever the bus answers. -/
theorem initResult : Obligations.InitResult := by
  intro s hb
  obtain ⟨r, d, hfinish⟩ := State.finish_eq (((s.accept .init).driveCe .low).completed .activeToStandby)
  have hrun : exec .init s = .next (((s.accept .init).driveCe .low).completed .activeToStandby).finish :=
    exec_runs rfl hb rfl
  refine ⟨r, d, ?_⟩
  rw [hrun, hfinish]
  simp [State.completed, State.driveCe, State.accept, ModeAct.apply, endStatus, endRdata, hb]

/-! ### The configuration sequences -/

/-- What the two configuration sequences share: the register writes, with what completing the last one does to `mode`, and
what follows them. -/
def configurationMicros (p : Params) (config : Byte) (act : ModeAct) (after : List Micro) : List Micro :=
  .ce .low .activeToStandby ::
    (writeTxn regCONFIG config .wakeToStandby ++ (writeTxn regEN_AA p.enAaVal .keep ++
    (writeTxn regEN_RXADDR p.enRxaddrVal .keep ++ (writeTxn regSETUP_RETR p.setupRetrVal .keep ++
    (writeTxn regRF_SETUP p.rfSetupVal .keep ++ (writeTxn regRF_CH p.rfChVal act ++ after))))))

/-- A configuration operation runs these micro-ops, and neither transfers nor dwells after the register writes. -/
theorem microSeq_configuration {i : Instr} {config : Byte} (p : Params)
    (h : (i = .configureReceiveMode ∧ config = 0x0B) ∨ (i = .configureTransmitMode ∧ config = 0x0A)) :
    ∃ act after, microSeq p i = configurationMicros p config act after ∧ transferBytes p.fillByte after = [] ∧
      Micro.dwell ∉ after := by
  rcases h with ⟨rfl, rfl⟩ | ⟨rfl, rfl⟩
  · exact ⟨.keep, [.ce .high (.become .receiveMode)], rfl, rfl, by decide⟩
  · exact ⟨.become .transmitMode, [], rfl, rfl, nofun⟩

theorem transferBytes_configurationMicros {p : Params} {after : List Micro} (config : Byte) (act : ModeAct)
    (h : transferBytes p.fillByte after = []) :
    transferBytes p.fillByte (configurationMicros p config act after) = configurationBytes p config :=
  congrArg (configurationBytes p config ++ ·) h

theorem dwell_notMem_configurationMicros {after : List Micro} (p : Params) (config : Byte) (act : ModeAct)
    (h : Micro.dwell ∉ after) : Micro.dwell ∉ configurationMicros p config act after := by
  simp [configurationMicros, writeTxn, txn, h]

/-- The events before a transfer are the first of R152's and R153's. -/
theorem eventsOf_beforeTransfer_configuration {k : Nat} (hk : k < 12) (p : Params) (config : Byte) (act : ModeAct)
    (after : List Micro) (ns : Nat) (x : Nat → Byte) :
    eventsOf p.fillByte ns x (beforeTransfer k (configurationMicros p config act after)) =
      (.ce .low :: configurationTrace p config x).take (2 + 4 * (k / 2) + k % 2) := by
  interval_cases k <;> rfl

/-- Driving CE low leaves a radio that was powered down there, and takes every other to standby. -/
theorem ModeAct.activeToStandby_apply (m : Mode) :
    ModeAct.activeToStandby.apply m = if m = .powerDown then .powerDown else .standby := by
  cases m <;> rfl

/-- Completing the CONFIG write after it takes every radio to standby. -/
theorem ModeAct.wakeToStandby_ite (m : Mode) :
    ModeAct.wakeToStandby.apply (if m = .powerDown then .powerDown else .standby) = .standby := by
  cases m <;> rfl

/-- Each transfer is inside a frame, with CE low and the mode as R155 has it: only completing the CONFIG write wakes a
radio that was powered down. -/
theorem linesAfter_beforeTransfer_configuration {k : Nat} (hk : k < 12) (p : Params) (config : Byte) (act : ModeAct)
    (after : List Micro) (l : Lines) :
    linesAfter (beforeTransfer k (configurationMicros p config act after)) l = {
      csn := .low
      ce := .low
      mode := if l.mode = .powerDown ∧ k < 2 then .powerDown else .standby } := by
  have hlines : linesAfter (beforeTransfer k (configurationMicros p config act after)) l = {
      csn := .low
      ce := .low
      mode := if k < 2 then ModeAct.activeToStandby.apply l.mode
        else ModeAct.wakeToStandby.apply (ModeAct.activeToStandby.apply l.mode) } := by
    interval_cases k <;> rfl
  rw [hlines, ModeAct.activeToStandby_apply, ModeAct.wakeToStandby_ite]
  by_cases h : k < 2 <;> simp [h]

/-- Settles O31: the micro-ops before the failed transfer complete, the abort drives no CE and leaves the mode, and the peer
follows the events. -/
theorem failedConfigurationLeavesStandby : Obligations.FailedConfigurationLeavesStandby := by
  intro i config s k x rest hi hb hk ha
  obtain ⟨hhost, hcheck⟩ : i.isHost = true ∧ acceptCheck i s.mode = none := by
    rcases hi with ⟨rfl, -⟩ | ⟨rfl, -⟩ <;> exact ⟨rfl, rfl⟩
  obtain ⟨act, after, hseq, hafter, hdwell⟩ := microSeq_configuration s.params hi
  have hbytes := transferBytes_configurationMicros config act hafter
  have hlines := linesAfter_beforeTransfer_configuration hk s.params config act after
  have hevents := eventsOf_beforeTransfer_configuration hk s.params config act after 0 x
  rw [← hseq] at hbytes hlines hevents
  have hdwell' : Micro.dwell ∉ beforeTransfer k (microSeq s.params i) := fun hmem =>
    dwell_notMem_configurationMicros s.params config act hdwell (hseq ▸ beforeTransfer_subset _ _ hmem)
  obtain ⟨b, hbyte, r, d, hexec⟩ :=
    exec_failed 0 hhost hb hcheck (by rw [hbytes]; exact hk) hdwell' (by rw [hlines]) ha
  rw [hlines, hevents] at hexec
  exact ⟨_, b, hexec, hbytes ▸ hbyte, rfl, rfl, rfl, rfl, rfl, rfl, rfl⟩

end Sys2Proof.Machine

/-! SUPPORT. What is refused at acceptance (spec/60_exceptions.md R171, R172, R175): the checks that fail, and the operation
they refuse. -/

namespace Sys2Proof.Machine

theorem checkAddr_of_lt {addr : Byte} (h : 0x1F < addr) : checkAddr addr = some .invalidArgument :=
  if_neg (mt of_decide_eq_true (BitVec.not_le.2 h))

theorem checkLen_of_lt {len : Nat} (h : 32 < len) : checkLen len = some .invalidArgument :=
  if_neg (mt of_decide_eq_true (Nat.not_le.2 h))

/-- The length is checked before the mode, so it is refused in every mode. -/
theorem checkTransmit_of_lt {len : Nat} (h : 32 < len) (m : Mode) : checkTransmit len m = some .invalidArgument :=
  if_neg (mt of_decide_eq_true (Nat.not_le.2 h))

theorem checkTransmit_of_mode_ne {len : Nat} {m : Mode} (h : len ≤ 32) (hm : m ≠ .transmitMode) :
    checkTransmit len m = some .wrongMode :=
  (if_pos (decide_eq_true h)).trans (if_neg hm)

/-- An operation at rest that fails a check is refused with the check's status, and nothing else changes. -/
theorem exec_refused {i : Instr} {s : State} {st : Status} (hi : i.isHost = true) (hb : s.busy = false)
    (hc : acceptCheck i s.mode = some st) :
    exec i s = .next { s with
      upc := 0
      resp := some { status := st, rbyte := s.freeByte, rdata := [] }
      draws := s.draws + 1 } := by
  rw [← State.refuseWith_eq st hb, exec_host hi]
  rcases State.operate_cases i s with ⟨hbusy, -⟩ | ⟨-, st', hc', hop⟩ | ⟨-, hnone, -⟩
  · simp [hb] at hbusy
  · obtain rfl : st = st' := Option.some.inj (hc.symm.trans hc')
    exact hop
  · simp [hc] at hnone

/-- Settles O28: each of the operations fails its check at acceptance, with the status of that check. -/
theorem refusedAtAcceptance : Obligations.RefusedAtAcceptance := by
  intro i s st hb hcase
  obtain ⟨hhost, hcheck⟩ : i.isHost = true ∧ acceptCheck i s.mode = some st := by
    rcases hcase with ⟨addr, value, rfl, h, rfl⟩ | ⟨addr, rfl, h, rfl⟩ | ⟨addr, value, rfl, h, rfl⟩ | ⟨len, rfl, h, rfl⟩ |
      ⟨bytes, rfl, h, rfl⟩ | ⟨bytes, rfl, h, rfl⟩ | ⟨bytes, rfl, h, hm, rfl⟩
    · exact ⟨rfl, checkAddr_of_lt h⟩
    · exact ⟨rfl, checkAddr_of_lt h⟩
    · exact ⟨rfl, checkAddr_of_lt h⟩
    · exact ⟨rfl, checkLen_of_lt (BitVec.lt_def.1 h)⟩
    · exact ⟨rfl, checkLen_of_lt h⟩
    · exact ⟨rfl, checkTransmit_of_lt h s.mode⟩
    · exact ⟨rfl, checkTransmit_of_mode_ne h hm⟩
  exact ⟨s.freeByte, s.draws + 1, exec_refused hhost hb hcheck⟩

end Sys2Proof.Machine

/-! SUPPORT. Offers and instructions (spec/30_encoding.md R81, R84 to R90, R95): the decoder on what the encoder gives, and
the encoder on what the decoder accepts. -/

namespace Sys2Proof.Machine

/-! ### The round trip of an instruction -/

/-- A transaction decodes by its command and its data slots. -/
theorem decode_wire_encodeCmd (c : WireCmd) (slots : List Byte) :
    decode (.wire (encodeCmd c :: slots)) = decodeSlots (encodeCmd c) slots c := by
  simp only [decode, decodeFrame, decodeCmd_encodeCmd]

/-- A host payload whose length fits the `len` field is read back. -/
theorem decodePayload_requestOf {bytes : List Byte} (op : BitVec 4) (mk : List Byte → Instr)
    (h : bytes.length ≤ hostPayloadMax) :
    decodePayload (requestOf op 0 0 (BitVec.ofNat 8 bytes.length) bytes) mk = .ok (mk bytes) := by
  have hlen : (BitVec.ofNat 8 bytes.length).toNat = bytes.length := Nat.mod_eq_of_lt (Nat.lt_succ_of_le h)
  exact if_pos hlen.symm

/-- Settles O1: a wire row is read back by its command and its number of data slots, a host operation by its operation
code. -/
theorem decodeEncodeRoundTrip : Obligations.DecodeEncodeRoundTrip := by
  intro i h
  cases i with
  | cmdRRegister a => exact decode_wire_encodeCmd (.rRegister a) _
  | cmdWRegister a value => exact decode_wire_encodeCmd (.wRegister a) [value]
  | cmdRRxPayload n =>
    have hslots : (List.replicate n Config.fillByteDefault).length ≤ Config.maxPayload := by
      simpa [Instr.wellFormed] using h
    rw [encode, decode_wire_encodeCmd .rRxPayload]
    exact (if_pos hslots).trans (by rw [List.length_replicate])
  | cmdWTxPayload bytes =>
    exact (decode_wire_encodeCmd .wTxPayload bytes).trans (if_pos (of_decide_eq_true h))
  | cmdFlushTx | cmdFlushRx | cmdReuseTxPl | cmdNop => exact decode_wire_encodeCmd _ []
  | writeTxPayload bytes => exact decodePayload_requestOf 4 .writeTxPayload (of_decide_eq_true h)
  | transmitOne bytes => exact decodePayload_requestOf 5 .transmitOne (of_decide_eq_true h)
  | init | configureReceiveMode | configureTransmitMode | readRxPayload _ | writeRegister _ _ | readRegister _ | flushRx
  | flushTx | writeRegisterVerified _ _ => rfl

/-! ### What decodes -/

/-- A transaction that decodes is a command byte and data slots, 0 to 32 of them, and its wire row's encoding begins with
that byte and has that many. -/
theorem encode_of_decodeSlots {c : WireCmd} {b : Byte} {slots : List Byte} {i : Instr}
    (h : decodeSlots b slots c = .ok i) :
    slots.length ≤ 32 ∧ i.wellFormed = true ∧
      ∃ again, encode i = .wire (encodeCmd c :: again) ∧ again.length = slots.length := by
  cases c with
  | wRegister a =>
    simp only [decodeSlots] at h
    split at h
    · cases h; exact ⟨by simp, rfl, _, rfl, rfl⟩
    · cases h
  | rRegister _ | rRxPayload | wTxPayload | flushTx | flushRx | reuseTxPl | nop =>
    simp only [decodeSlots] at h
    split at h
    next hlen => cases h; exact ⟨by omega, by simp [Instr.wellFormed, hlen], _, rfl, by simp [hlen]⟩
    next => cases h

/-- What the bench holds decodes through its command byte. -/
theorem decode_wire_ok {frame : List Byte} {i : Instr} (h : decode (.wire frame) = .ok i) :
    ∃ c slots, frame = encodeCmd c :: slots ∧ decodeSlots (encodeCmd c) slots c = .ok i := by
  cases frame with
  | nil => cases h
  | cons b slots =>
    cases hc : decodeCmd b with
    | none => simp [decode, decodeFrame, hc] at h
    | some c =>
      obtain rfl := encodeCmd_of_decodeCmd hc
      exact ⟨c, slots, rfl, by rwa [decode_wire_encodeCmd] at h⟩

/-- Settles O5: the data slots are 0 to 32, and encoding again gives the command byte and as many. -/
theorem decodedTransactionLength : Obligations.DecodedTransactionLength := by
  intro frame i h
  have hwire : i.isHost = false := decode_isHost h
  obtain ⟨c, slots, rfl, hslots⟩ := decode_wire_ok h
  obtain ⟨hle, -, again, henc, hlen⟩ := encode_of_decodeSlots hslots
  exact ⟨Nat.succ_pos _, Nat.succ_le_succ hle, hwire, _, henc, congrArg (· + 1) hlen, rfl⟩

/-! ### Reserved command bytes -/

/-- The reserved command bytes are the four ranges of R90. -/
theorem decodeCmd_eq_none_iff (b : Byte) : decodeCmd b = none ↔
    (0x40 ≤ b ∧ b ≤ 0x60) ∨ (0x62 ≤ b ∧ b ≤ 0x9F) ∨ (0xA1 ≤ b ∧ b ≤ 0xE0) ∨ (0xE4 ≤ b ∧ b ≤ 0xFE) := by
  revert b; decide

theorem State.nextOffer_bench {s : State} {frame : List Byte} {rest : List (List Byte)} (h : s.bench = frame :: rest) :
    s.nextOffer = some (.wire frame, { s with bench := rest }) := by
  simp [State.nextOffer, h]

/-- Settles O3: the ranges by looking at every byte, and what is no instruction for its command byte is refused by name. -/
theorem reservedCommandBytesRefused : Obligations.ReservedCommandBytesRefused := by
  refine ⟨decodeCmd_eq_none_iff, fun s b slots rest hb hbench hnone => ?_⟩
  have hdecode : decode (.wire (b :: slots)) = .error (.reservedCommand b) := by
    simp only [decode, decodeFrame, hnone]
  exact step_of_rejected hb (State.nextOffer_bench hbench) hdecode

/-- Settles O4: the decoder computes each. -/
theorem specWordsDecode : Obligations.SpecWordsDecode := ⟨rfl, rfl, rfl, rfl, rfl, rfl, rfl, rfl⟩

end Sys2Proof.Machine

/-! SUPPORT. The step (spec/10_state.md R26, R27, spec/60_exceptions.md R188): what it is for each thing it can take, and
what state it can lead to, said once. -/

namespace Sys2Proof.Machine

/-! ### What a step takes -/

theorem step_of_idle {s : State} (hb : s.busy = false) (hbench : s.bench = []) (ho : s.offers = []) : step s = .next s := by
  simp [step, State.fetch, State.nextOffer, hb, hbench, ho]

/-- A step at rest accepts an operation that passes its checks, and runs every other instruction whole. -/
theorem step_of_taken {s u : State} {o : Offer} {i : Instr} (hb : s.busy = false) (hn : s.nextOffer = some (o, u))
    (hd : decode o = .ok i) : step s = if u.starts i then .next (u.accept i) else exec i u := by
  simp [step, State.fetch, hb, hn, hd]

theorem step_of_accepted {s : State} {r : Request} {rest : List Request} {i : Instr} (hb : s.busy = false)
    (hbench : s.bench = []) (ho : s.offers = r :: rest) (hd : decode (.host r) = .ok i)
    (hcheck : acceptCheck i s.mode = none) : step s = .next (({ s with offers := rest } : State).accept i) :=
  have hhost : i.isHost = true := decode_isHost hd
  have hstarts : ({ s with offers := rest } : State).starts i = true := State.starts_iff.2 ⟨hhost, hcheck⟩
  (step_of_taken hb (State.nextOffer_host hbench ho) hd).trans (if_pos hstarts)

theorem step_of_checked {s : State} {r : Request} {rest : List Request} {i : Instr} (hb : s.busy = false)
    (hbench : s.bench = []) (ho : s.offers = r :: rest) (hd : decode (.host r) = .ok i)
    (hcheck : acceptCheck i s.mode ≠ none) : step s = exec i { s with offers := rest } :=
  have hstarts : ¬ ({ s with offers := rest } : State).starts i = true := fun h => hcheck (State.starts_iff.1 h).2
  (step_of_taken hb (State.nextOffer_host hbench ho) hd).trans (if_neg hstarts)

theorem step_of_wire {s : State} {frame : List Byte} {rest : List (List Byte)} {i : Instr} (hb : s.busy = false)
    (hbench : s.bench = frame :: rest) (hd : decode (.wire frame) = .ok i) : step s = exec i { s with bench := rest } := by
  have hwire : i.isHost = false := decode_isHost hd
  have hstarts : ¬ ({ s with bench := rest } : State).starts i = true := fun h =>
    Bool.false_ne_true (hwire.symm.trans (State.starts_iff.1 h).1)
  exact (step_of_taken hb (State.nextOffer_bench hbench) hd).trans (if_neg hstarts)

/-- Settles O6: one lemma for each thing that a step can take. -/
theorem stepRunsDecodedInstruction : Obligations.StepRunsDecodedInstruction :=
  ⟨fun _ _ _ _ hb hbench ho hd => ⟨step_of_accepted hb hbench ho hd, step_of_checked hb hbench ho hd⟩,
    fun _ _ _ _ => step_of_wire, fun _ => step_of_idle, fun _ => step_of_busy⟩

/-! ### Where a step can lead -/

/-- The ways from a state to a next state: a micro-op of the operation in progress; waiting; the acceptance of the first
offer; its refusal; a transaction of the bench. -/
inductive StepsTo (s : State) : State → Prop where
  | micro (hb : s.busy = true) : StepsTo s s.microStep
  | idle (hb : s.busy = false) (hbench : s.bench = []) (ho : s.offers = []) : StepsTo s s
  | accepted {r : Request} {rest : List Request} {i : Instr} (hb : s.busy = false) (hbench : s.bench = [])
      (ho : s.offers = r :: rest) (hi : i.isHost = true) (hcheck : acceptCheck i s.mode = none) :
      StepsTo s (({ s with offers := rest } : State).accept i)
  | refused {r : Request} {rest : List Request} (st : Status) (hb : s.busy = false) (hbench : s.bench = [])
      (ho : s.offers = r :: rest) : StepsTo s (({ s with offers := rest } : State).refuseWith st)
  | wire {frame : List Byte} {rest : List (List Byte)} {i : Instr} (hb : s.busy = false) (hbench : s.bench = frame :: rest)
      (hi : i.isHost = false) (hwf : i.wellFormed = true) :
      StepsTo s (({ s with bench := rest } : State).wireFrame (wireBytes s.params i))

/-- A transaction is never turned away for an operation code. -/
theorem decode_wire_ne_illegalOp (frame : List Byte) (op : BitVec 4) : decode (.wire frame) ≠ .error (.illegalOp op) := by
  intro h
  cases frame with
  | nil => cases h
  | cons b slots =>
    cases hc : decodeCmd b with
    | none => simp [decode, decodeFrame, hc] at h
    | some c =>
      simp only [decode, decodeFrame, hc] at h
      cases c <;> simp only [decodeSlots] at h <;> split at h <;> cases h

/-- What the host offers is accepted, refused by a check, or refused for its operation code. -/
theorem stepsTo_of_host {s t : State} {r : Request} {rest : List Request} (hb : s.busy = false) (hbench : s.bench = [])
    (ho : s.offers = r :: rest) (h : step s = .next t) : StepsTo s t := by
  cases hd : decode (.host r) with
  | ok i =>
    have hi : i.isHost = true := decode_isHost hd
    cases hcheck : acceptCheck i s.mode with
    | none =>
      cases (step_of_accepted hb hbench ho hd hcheck).symm.trans h
      exact .accepted hb hbench ho hi hcheck
    | some st =>
      have hexec : exec i { s with offers := rest } = .next t :=
        (step_of_checked hb hbench ho hd (by simp [hcheck])).symm.trans h
      rcases exec_cases i { s with offers := rest } with ⟨hbusy, -⟩ | ⟨-, -, st', -, heq⟩ | ⟨-, -, hnone, -⟩ | ⟨-, hw, -⟩
      · simp [hb] at hbusy
      · cases heq.symm.trans hexec
        exact .refused st' hb hbench ho
      · simp [hcheck] at hnone
      · simp [hi] at hw
  | error e =>
    have hreject : ({ s with offers := rest } : State).rejectOffer e = .next t :=
      (step_of_rejected hb (State.nextOffer_host hbench ho) hd).symm.trans h
    cases e with
    | illegalOp op => cases hreject; exact .refused _ hb hbench ho
    | emptyFrame | reservedCommand _ | wrongSlots _ _ | lengthMismatch _ _ => cases hreject

/-- A transaction of the bench is played or turned away without a next state. -/
theorem stepsTo_of_bench {s t : State} {frame : List Byte} {rest : List (List Byte)} (hb : s.busy = false)
    (hbench : s.bench = frame :: rest) (h : step s = .next t) : StepsTo s t := by
  cases hd : decode (.wire frame) with
  | ok i =>
    have hi : i.isHost = false := decode_isHost hd
    obtain ⟨c, slots, -, hslots⟩ := decode_wire_ok hd
    have hexec : exec i { s with bench := rest } = .next t := (step_of_wire hb hbench hd).symm.trans h
    have hrow : exec i { s with bench := rest } =
        .next (({ s with bench := rest } : State).wireFrame (wireBytes s.params i)) :=
      (exec_wire hi _).trans (if_neg (by simp [hb]))
    cases hrow.symm.trans hexec
    exact .wire hb hbench hi (encode_of_decodeSlots hslots).2.1
  | error e =>
    have hreject : ({ s with bench := rest } : State).rejectOffer e = .next t :=
      (step_of_rejected hb (State.nextOffer_bench hbench) hd).symm.trans h
    cases e with
    | illegalOp op => exact absurd hd (decode_wire_ne_illegalOp frame op)
    | emptyFrame | reservedCommand _ | wrongSlots _ _ | lengthMismatch _ _ => cases hreject

/-- INVERSION OF A STEP, once. -/
theorem stepsTo_of_step {s t : State} (h : step s = .next t) : StepsTo s t := by
  cases hb : s.busy with
  | true =>
    cases (step_of_busy hb).symm.trans h
    exact .micro hb
  | false =>
    rcases s.nextOffer_cases with ⟨hbench, ho, -⟩ | ⟨frame, rest, hbench, -⟩ | ⟨r, rest, hbench, ho, -⟩
    · cases (step_of_idle hb hbench ho).symm.trans h
      exact .idle hb hbench ho
    · exact stepsTo_of_bench hb hbench h
    · exact stepsTo_of_host hb hbench ho h

/-! ### The abort, field by field -/

theorem State.abort_mode (s : State) (b : Byte) : (s.abort b).mode = s.mode := by
  obtain ⟨-, -, -, -, -, h, -⟩ := s.abort_fields b
  exact h

theorem State.abort_ce (s : State) (b : Byte) : (s.abort b).ce = s.ce := by
  obtain ⟨-, -, -, -, -, -, h, -⟩ := s.abort_fields b
  exact h

theorem State.abort_busy (s : State) (b : Byte) : (s.abort b).busy = false := by
  obtain ⟨-, -, h, -⟩ := s.abort_fields b
  exact h

theorem State.abort_upc (s : State) (b : Byte) : (s.abort b).upc = 0 := by
  obtain ⟨-, -, -, h, -⟩ := s.abort_fields b
  exact h

theorem State.abort_rxbuf (s : State) (b : Byte) : (s.abort b).rxbuf = [] := by
  obtain ⟨-, -, -, -, h, -⟩ := s.abort_fields b
  exact h

theorem State.abort_busFault (s : State) (b : Byte) : (s.abort b).busFault = true := by
  obtain ⟨h, -⟩ := s.abort_fields b
  exact h

theorem State.abort_params (s : State) (b : Byte) : (s.abort b).params = s.params := by
  obtain ⟨-, -, -, -, -, -, -, h, -⟩ := s.abort_fields b
  exact h

theorem State.abort_status (s : State) (b : Byte) : (s.abort b).status? = some .busTransportFailure := by
  obtain ⟨-, -, -, -, -, -, -, -, -, -, -, -, ⟨r, h⟩, -⟩ := s.abort_fields b
  rw [State.status?, h]
  rfl

theorem State.abort_resp_isSome (s : State) (b : Byte) : (s.abort b).resp.isSome = true := by
  obtain ⟨-, -, -, -, -, -, -, -, -, -, -, -, ⟨r, h⟩, -⟩ := s.abort_fields b
  rw [h]
  rfl

theorem State.abort_peer (s : State) (b : Byte) :
    (s.abort b).peer = if s.csn = .low then s.peer.onCsnHigh s.params else s.peer := by
  obtain ⟨-, -, -, -, -, -, -, -, -, -, -, -, -, -, h⟩ := s.abort_fields b
  exact h

/-! ### A micro-op as a step -/

/-- What holds of every outcome of the operation's next micro-op, and of the operation's end, holds after its step. -/
theorem State.microStep_induction {Q : State → Prop} {s : State}
    (hdone : ∀ m t, m ∈ microSeq s.params s.cur → s.micro m = .done t → Q t)
    (habort : ∀ m t, s.micro m = .aborted t → Q t) (hstay : Q s) (hend : ∀ t, Q t → Q t.finish) : Q s.microStep := by
  cases hm : (microSeq s.params s.cur)[s.upc.toNat]? with
  | none =>
    simp only [State.microStep, hm]
    exact hend s hstay
  | some m =>
    rcases State.microStep_cases hm with ⟨t, h, -, heq⟩ | ⟨t, h, -, heq⟩ | ⟨t, h, heq⟩ | ⟨-, heq⟩ <;> rw [heq]
    · exact hdone m t (List.mem_of_getElem? hm) h
    · exact hend t (hdone m t (List.mem_of_getElem? hm) h)
    · exact habort m t h
    · exact hstay

/-- The parts of the state that no micro-op and no end of an operation touches. -/
structure State.SameOutside (s t : State) : Prop where
  params    : t.params = s.params
  irq       : t.irq = s.irq
  offers    : t.offers = s.offers
  bench     : t.bench = s.bench
  exchanged : t.exchanged = s.exchanged

theorem State.SameOutside.refl (s : State) : s.SameOutside s := ⟨rfl, rfl, rfl, rfl, rfl⟩

theorem State.SameOutside.trans {s t u : State} (h : s.SameOutside t) (h' : t.SameOutside u) : s.SameOutside u :=
  ⟨h'.params.trans h.params, h'.irq.trans h.irq, h'.offers.trans h.offers, h'.bench.trans h.bench,
    h'.exchanged.trans h.exchanged⟩

theorem State.sameOutside_finish (s : State) : s.SameOutside s.finish := by
  obtain ⟨r, d, hfinish⟩ := State.finish_eq s
  rw [hfinish]
  exact ⟨rfl, rfl, rfl, rfl, rfl⟩

theorem State.sameOutside_done {m : Micro} {s t : State} (h : s.micro m = .done t) : s.SameOutside t := by
  obtain ⟨e, hd⟩ := State.micro_done h
  exact ⟨hd.params, hd.irq, hd.offers, hd.bench, hd.exchanged⟩

theorem State.sameOutside_aborted {m : Micro} {s t : State} (h : s.micro m = .aborted t) : s.SameOutside t := by
  obtain ⟨b, rest, -, -, rfl⟩ := State.micro_aborted h
  obtain ⟨-, -, -, -, -, -, -, hparams, hirq, hoffers, hexchanged, -⟩ := State.abort_fields { s with answers := rest } b
  exact ⟨hparams, hirq, hoffers, State.abort_bench _ b, hexchanged⟩

theorem State.sameOutside_microStep (s : State) : s.SameOutside s.microStep :=
  State.microStep_induction (fun _ _ _ => State.sameOutside_done) (fun _ _ => State.sameOutside_aborted) (.refl s)
    fun t h => h.trans t.sameOutside_finish

theorem exec_of_busy {s : State} (i : Instr) (hb : s.busy = true) : exec i s = .next (s.offer (encode i)) := by
  rcases exec_cases i s with ⟨-, h⟩ | ⟨hrest, -⟩ | ⟨hrest, -⟩ | ⟨hrest, -⟩
  · exact h
  all_goals simp [hb] at hrest

/-- Settles O8: `exec` on a busy block is an offer of the encoding, and a step there is a micro-op. -/
theorem busyBlockAcceptsNothing : Obligations.BusyBlockAcceptsNothing := by
  refine ⟨fun i s r hb henc => ?_, fun i s frame hb henc => ?_, fun s t hb h => ?_⟩
  · rw [exec_of_busy i hb, henc, State.offer_host]
  · rw [exec_of_busy i hb, henc, State.offer_wire]
  · cases (step_of_busy hb).symm.trans h
    exact ⟨s.sameOutside_microStep.offers, s.sameOutside_microStep.bench⟩

/-! ### The peer, the trace and the bench -/

theorem State.follows_microStep (s : State) : s.follows s.microStep := by
  refine State.microStep_induction (fun m t _ h => State.follows_micro h) (fun m t h => ?_) s.follows_refl
    fun t h => State.follows_trans h t.follows_finish
  obtain ⟨b, rest, -, -, rfl⟩ := State.micro_aborted h
  exact State.follows_abort { s with answers := rest } b

/-- Settles O22: a step of the block appends events that the peer and CE follow, and only a step at rest takes what the
bench holds. -/
theorem peerFollowsTrace : Obligations.PeerFollowsTrace := by
  intro s t h
  have hnothing : ∃ es, s.trace = s.trace ++ es ∧ s.peer = Peer.follow s.params s.ce es s.peer ∧
      s.ce = es.foldl (fun l e => e.ceAfter l) s.ce := ⟨[], by simp, rfl, rfl⟩
  cases stepsTo_of_step h with
  | micro hb =>
    obtain ⟨es, htrace, hpeer, hce, -⟩ := s.follows_microStep
    exact ⟨fun _ => ⟨es, htrace, hpeer, hce⟩, .inl s.sameOutside_microStep.bench⟩
  | idle | accepted | refused => exact ⟨fun _ => hnothing, .inl rfl⟩
  | wire hb hbench hi hwf =>
    refine ⟨fun hplace => ?_, .inr ⟨hb, ?_⟩⟩
    · simp [hb, hbench] at hplace
    · obtain ⟨io, d, hframe, -⟩ := State.wireFrame_eq (wireBytes s.params _) ({ s with bench := _ } : State)
      rw [hframe, hbench]
      rfl

end Sys2Proof.Machine

/-! SUPPORT. Which micro-ops the operations are made of: transactions that leave the mode and CE, but for `init`, the two
configuration sequences and `transmit_one` (spec/10_state.md R25, spec/42_mode_configuration.md R157). -/

namespace Sys2Proof.Machine

/-- What completing a micro-op does to the mode. -/
def Micro.act : Micro → ModeAct
  | .csnHigh act => act
  | .ce _ act => act
  | .csnLow => .keep
  | .out _ => .keep
  | .recv => .keep
  | .dwell => .keep

theorem Micro.lines_mode (m : Micro) (l : Lines) : (m.lines l).mode = m.act.apply l.mode := by
  cases m <;> rfl

/-- A micro-op of a transaction that leaves the mode. -/
def Micro.plain : Micro → Bool
  | .csnHigh act => decide (act = .keep)
  | .csnLow => true
  | .out _ => true
  | .recv => true
  | .ce _ _ => false
  | .dwell => false

theorem Micro.act_of_plain {m : Micro} (h : m.plain = true) : m.act = .keep := by
  cases m with
  | csnHigh act => exact of_decide_eq_true h
  | csnLow | out _ | recv | dwell => rfl
  | ce _ _ => cases h

/-- What holds of the chip-select drives and of transfers holds of a transaction. -/
theorem forall_mem_txn {P : Micro → Prop} {cmd : Byte} {outs : List Byte} {n : Nat} {act : ModeAct} (hlow : P .csnLow)
    (hout : ∀ b, P (.out b)) (hrecv : P .recv) (hhigh : P (.csnHigh act)) : ∀ m ∈ txn cmd outs n act, P m := by
  simp only [txn, List.mem_cons, List.mem_append, List.mem_map, List.mem_replicate, List.not_mem_nil, or_false]
  rintro m (rfl | rfl | ⟨b, -, rfl⟩ | ⟨-, rfl⟩ | rfl)
  exacts [hlow, hout _, hout b, hrecv, hhigh]

theorem plain_txn {cmd : Byte} {outs : List Byte} {n : Nat} : ∀ m ∈ txn cmd outs n .keep, m.plain = true :=
  forall_mem_txn rfl (fun _ => rfl) rfl rfl

/-- The operations outside the mode configuration family are transactions that leave the mode. -/
theorem plain_microSeq (p : Params) {i : Instr} (hinit : i ≠ .init) (hrx : i ≠ .configureReceiveMode)
    (htx : i ≠ .configureTransmitMode) (hone : ∀ bytes, i ≠ .transmitOne bytes) : ∀ m ∈ microSeq p i, m.plain = true := by
  cases i with
  | init => exact absurd rfl hinit
  | configureReceiveMode => exact absurd rfl hrx
  | configureTransmitMode => exact absurd rfl htx
  | transmitOne bytes => exact absurd rfl (hone bytes)
  | readRxPayload _ | writeTxPayload _ | writeRegister _ _ | readRegister _ | flushRx | flushTx => exact plain_txn
  | writeRegisterVerified _ _ => exact List.forall_mem_append.2 ⟨plain_txn, plain_txn⟩
  | cmdRRegister _ | cmdWRegister _ _ | cmdRRxPayload _ | cmdWTxPayload _ | cmdFlushTx | cmdFlushRx | cmdReuseTxPl
  | cmdNop => exact nofun

/-- `transmit_one` leaves the mode too. -/
theorem act_microSeq (p : Params) {i : Instr} (hinit : i ≠ .init) (hrx : i ≠ .configureReceiveMode)
    (htx : i ≠ .configureTransmitMode) : ∀ m ∈ microSeq p i, m.act = .keep := by
  by_cases hone : ∀ bytes, i ≠ .transmitOne bytes
  · exact fun m hm => Micro.act_of_plain (plain_microSeq p hinit hrx htx hone m hm)
  · obtain ⟨bytes, rfl⟩ := not_forall_not.1 hone
    refine List.forall_mem_append.2 ⟨fun m hm => Micro.act_of_plain (plain_txn m hm), ?_⟩
    simp [Micro.act]

/-- No micro-op takes the radio into `PowerDown` (spec/42_mode_configuration.md R151). -/
theorem act_ne_become_powerDown (p : Params) (i : Instr) : ∀ m ∈ microSeq p i, m.act ≠ .become .powerDown := by
  by_cases hfamily : i = .init ∨ i = .configureReceiveMode ∨ i = .configureTransmitMode
  · rcases hfamily with rfl | rfl | rfl <;>
      simp [microSeq, seqInit, seqConfigureReceiveMode, seqConfigureTransmitMode, writeTxn, txn, Micro.act]
  · obtain ⟨hinit, hrx, htx⟩ : i ≠ .init ∧ i ≠ .configureReceiveMode ∧ i ≠ .configureTransmitMode := by
      simpa only [not_or] using hfamily
    exact fun m hm => by simp [act_microSeq p hinit hrx htx m hm]

end Sys2Proof.Machine

/-! SUPPORT. What no step undoes (spec/10_state.md R29, R40, spec/42_mode_configuration.md R151). -/

namespace Sys2Proof.Machine

/-- No act on the mode leads into `PowerDown` but the one that sets it. -/
theorem ModeAct.eq_powerDown_of_apply {act : ModeAct} {m : Mode} (hact : act ≠ .become .powerDown)
    (h : act.apply m = .powerDown) : m = .powerDown := by
  cases act with
  | keep => exact h
  | activeToStandby | wakeToStandby => cases m <;> simp_all [ModeAct.apply]
  | become m' => exact absurd (congrArg ModeAct.become h) hact

/-- A failed transfer and the end of an operation leave the mode; a completed micro-op does not enter `PowerDown`. -/
theorem State.powerDown_of_microStep {s : State} (h : s.microStep.mode = .powerDown) : s.mode = .powerDown := by
  revert h
  refine State.microStep_induction (Q := fun t => t.mode = .powerDown → s.mode = .powerDown) (fun m t hm hdone h => ?_)
    (fun m t habort h => ?_) id (fun t ht h => ht ?_)
  · obtain ⟨e, hd⟩ := State.micro_done hdone
    have hmode : t.mode = m.act.apply s.mode := (congrArg Lines.mode hd.lines).trans (m.lines_mode _)
    exact ModeAct.eq_powerDown_of_apply (act_ne_become_powerDown _ _ m hm) (hmode.symm.trans h)
  · obtain ⟨b, rest, -, -, rfl⟩ := State.micro_aborted habort
    rwa [State.abort_mode] at h
  · obtain ⟨r, d, hfinish⟩ := State.finish_eq t
    rwa [hfinish] at h

theorem State.busFault_microStep {s : State} (h : s.busFault = true) : s.microStep.busFault = true := by
  refine State.microStep_induction (Q := fun t => t.busFault = true) (fun m t _ hdone => ?_) (fun m t habort => ?_) h
    (fun t ht => ?_)
  · obtain ⟨e, hd⟩ := State.micro_done hdone
    exact hd.busFault.trans h
  · obtain ⟨b, rest, -, -, rfl⟩ := State.micro_aborted habort
    exact State.abort_busFault _ b
  · obtain ⟨r, d, hfinish⟩ := State.finish_eq t
    rwa [hfinish]

/-- Settles O19: a micro-op undoes nothing, and every other step leaves all of it. -/
theorem stepNeverUndoes : Obligations.StepNeverUndoes := by
  intro s t h
  cases stepsTo_of_step h with
  | micro hb =>
    obtain ⟨es, htrace, -⟩ := s.follows_microStep
    exact ⟨s.sameOutside_microStep.params, s.sameOutside_microStep.irq, State.busFault_microStep, ⟨es, htrace⟩,
      State.powerDown_of_microStep⟩
  | idle | accepted | refused => exact ⟨rfl, rfl, id, ⟨[], (List.append_nil _).symm⟩, id⟩
  | wire hb hbench hi hwf =>
    obtain ⟨io, d, hframe, -⟩ := State.wireFrame_eq (wireBytes s.params _) ({ s with bench := _ } : State)
    rw [hframe]
    exact ⟨rfl, rfl, id, ⟨[], (List.append_nil _).symm⟩, id⟩

/-- Settles O9: the lengths of `txn`, and the bound that the checks give. -/
theorem microSequenceLengths : Obligations.MicroSequenceLengths :=
  ⟨fun p => ⟨rfl, rfl, rfl, rfl, rfl, microSeq_length_readRxPayload p, microSeq_length_writeTxPayload p,
    microSeq_length_transmitOne p, fun _ _ => rfl, fun _ => rfl, fun _ _ => rfl⟩, fun p _ _ => microSeq_length_le p⟩

end Sys2Proof.Machine

/-! SUPPORT. The bounds of the reference peer (spec/20_memory.md R56): what it keeps by itself, whatever is shifted into it,
and that its frame in progress keeps room for what the operation in progress still transfers. -/

namespace Sys2Proof.Machine

/-! ### What the peer keeps by itself -/

theorem Peer.wf_onCsnHigh {p : Params} {r : Peer} (h : Peer.wf p r) : Peer.wf p (r.onCsnHigh p) := by
  obtain ⟨hregs, hrx, htx, hentries⟩ := h
  unfold Peer.onCsnHigh
  split
  · exact ⟨hregs, hrx, htx, hentries⟩
  split
  · refine ⟨hregs, hrx, ?_, hentries⟩
    show (if _ then _ else _ : List (List Byte)).length ≤ _
    split
    · rw [List.length_append, List.length_singleton]; omega
    · exact htx
  · refine ⟨hregs, ?_, htx, fun e he => hentries e ?_⟩
    · show (if _ then _ else _ : List (List Byte)).length ≤ _
      split
      · rw [List.length_tail]; omega
      · exact hrx
    · have he' : e ∈ (if _ then _ else _ : List (List Byte)) := he
      split at he'
      · exact List.mem_of_mem_tail he'
      · exact he'
  · exact ⟨hregs, hrx, htx, hentries⟩

theorem Peer.wf_onXfer {p : Params} {r : Peer} (b : Byte) (h : Peer.wf p r) : Peer.wf p (r.onXfer p b) := by
  obtain ⟨hregs, hrx, htx, hentries⟩ := h
  unfold Peer.onXfer
  split
  · exact ⟨hregs, hrx, htx, hentries⟩
  split
  · refine ⟨hregs, ?_, ?_, fun e he => hentries e ?_⟩
    · show (if _ then _ else _ : List (List Byte)).length ≤ _
      split
      · exact Nat.zero_le _
      · exact hrx
    · show (if _ then _ else _ : List (List Byte)).length ≤ _
      split
      · exact Nat.zero_le _
      · exact htx
    · have he' : e ∈ (if _ then _ else _ : List (List Byte)) := he
      split at he'
      · cases he'
      · exact he'
  unfold Peer.onData
  split
  · refine ⟨?_, hrx, htx, hentries⟩
    show Memory.wf p (if _ then _ else _) = true
    split
    · exact Memory.wf_write _ b hregs
    · exact hregs
  · exact ⟨hregs, hrx, htx, hentries⟩
  · exact ⟨hregs, hrx, htx, hentries⟩

theorem Peer.wf_foldl_onXfer {p : Params} {r : Peer} (bytes : List Byte) (h : Peer.wf p r) :
    Peer.wf p (bytes.foldl (fun r b => r.onXfer p b) r) := by
  induction bytes generalizing r with
  | nil => exact h
  | cons b bs ih => exact ih (Peer.wf_onXfer b h)

theorem Peer.wf_transaction {p : Params} {r : Peer} (bytes : List Byte) (h : Peer.wf p r) :
    Peer.wf p (r.transaction p bytes) :=
  have hopen : Peer.wf p r.onCsnLow := h
  Peer.wf_onCsnHigh (Peer.wf_foldl_onXfer bytes hopen)

theorem Peer.wf_onCeRise {p : Params} {r : Peer} (h : Peer.wf p r) : Peer.wf p (r.onCeRise p) := by
  rw [Peer.onCeRise_eq]
  exact h

theorem Peer.wf_reactPeer {p : Params} {r : Peer} (m : Micro) (ce : Level) (h : Peer.wf p r) :
    Peer.wf p (m.reactPeer p ce r) := by
  cases m with
  | csnLow | dwell => exact h
  | csnHigh act => exact Peer.wf_onCsnHigh h
  | out b => exact Peer.wf_onXfer b h
  | recv => exact Peer.wf_onXfer p.fillByte h
  | ce l act =>
    show Peer.wf p (if _ then _ else _)
    split
    · exact Peer.wf_onCeRise h
    · exact h

theorem State.peerWf_abort {s : State} (b : Byte) (h : Peer.wf s.params s.peer) :
    Peer.wf (s.abort b).params (s.abort b).peer := by
  rw [s.abort_params, s.abort_peer]
  split
  · exact Peer.wf_onCsnHigh h
  · exact h

theorem State.peerWf_done {s t : State} {m : Micro} (hdone : s.micro m = .done t) (h : Peer.wf s.params s.peer) :
    Peer.wf t.params t.peer := by
  obtain ⟨e, hd⟩ := State.micro_done hdone
  rw [hd.params, (State.micro_reactPeer hdone).1]
  exact Peer.wf_reactPeer m s.ce h

theorem State.peerWf_microStep {s : State} (h : Peer.wf s.params s.peer) :
    Peer.wf s.microStep.params s.microStep.peer := by
  refine State.microStep_induction (Q := fun t => Peer.wf t.params t.peer) (fun m t _ hdone => State.peerWf_done hdone h)
    (fun m t habort => ?_) h (fun t ht => ?_)
  · obtain ⟨b, rest, -, -, rfl⟩ := State.micro_aborted habort
    exact State.peerWf_abort b h
  · obtain ⟨r, d, hfinish⟩ := State.finish_eq t
    rwa [hfinish]

/-- What the peer keeps by itself, every step keeps in any state. -/
theorem peerWf_step {s t : State} (h : Peer.wf s.params s.peer) (hstep : step s = .next t) : Peer.wf t.params t.peer := by
  cases stepsTo_of_step hstep with
  | micro => exact State.peerWf_microStep h
  | idle | accepted | refused => exact h
  | wire hb hbench hi hwf =>
    obtain ⟨io, d, hframe, -⟩ := State.wireFrame_eq (wireBytes s.params _) ({ s with bench := _ } : State)
    rw [hframe]
    exact Peer.wf_transaction _ h

/-! ### The frame in progress -/

/-- The chip-select rise closes the frame. -/
theorem Peer.onCsnHigh_frame (p : Params) (r : Peer) : (r.onCsnHigh p).frame = none := by
  unfold Peer.onCsnHigh
  split
  next hframe => exact hframe
  next => split <;> rfl

/-- The chip-select rise queues the entry built, or nothing. -/
theorem Peer.mem_txFifo_onCsnHigh {p : Params} {r : Peer} {e : List Byte} (h : e ∈ (r.onCsnHigh p).txFifo) :
    e ∈ r.txFifo ∨ ∃ f, r.frame = some f ∧ e = f.build := by
  unfold Peer.onCsnHigh at h
  split at h
  next => exact .inl h
  next f hframe =>
    split at h
    · have h' : e ∈ (if _ then _ else _ : List (List Byte)) := h
      split at h'
      · rcases List.mem_append.1 h' with hmem | hmem
        · exact .inl hmem
        · exact .inr ⟨f, hframe, List.mem_singleton.1 hmem⟩
      · exact .inl h'
    · exact .inl h
    · exact .inl h

/-- A byte shifted in queues nothing. -/
theorem Peer.mem_txFifo_onXfer {p : Params} {r : Peer} {b : Byte} {e : List Byte} (h : e ∈ (r.onXfer p b).txFifo) :
    e ∈ r.txFifo := by
  unfold Peer.onXfer at h
  split at h
  · exact h
  split at h
  · have h' : e ∈ (if _ then _ else _ : List (List Byte)) := h
    split at h'
    · cases h'
    · exact h'
  unfold Peer.onData at h
  split at h <;> exact h

/-- A byte shifted into a frame counts, and the frame stays within the formats where it has room for it. -/
theorem Peer.onXfer_frame {r : Peer} {f : Frame} (p : Params) (b : Byte) (hframe : r.frame = some f) (hwf : f.wf)
    (hroom : f.pos < 33) : ∃ f', (r.onXfer p b).frame = some f' ∧ f'.pos = f.pos + 1 ∧ f'.wf := by
  obtain ⟨-, hbuild⟩ := hwf
  simp only [Peer.onXfer, hframe]
  split
  next hpos => exact ⟨_, rfl, by rw [hpos], by simp [Frame.wf]⟩
  next hpos =>
    unfold Peer.onData
    split
    · exact ⟨_, rfl, rfl, by simp only [Frame.wf]; omega⟩
    · exact ⟨_, rfl, rfl, by simp only [Frame.wf, List.length_append, List.length_singleton]; omega⟩
    · exact ⟨_, rfl, rfl, by simp only [Frame.wf]; omega⟩

/-- How many bytes the frame in progress has room for, if one is. -/
def Peer.room (r : Peer) : Option Nat := r.frame.map fun f => 33 - f.pos

/-- Every TX entry has at most 32 bytes, and a frame in progress is within the formats and open on the CSN line too. -/
def Peer.framed (csn : Level) (r : Peer) : Prop :=
  (∀ e ∈ r.txFifo, e.length ≤ 32) ∧ ∀ f, r.frame = some f → f.wf ∧ csn = .low

theorem Peer.framed_onCsnHigh {p : Params} {csn : Level} {r : Peer} (h : r.framed csn) :
    (r.onCsnHigh p).framed .high := by
  obtain ⟨hqueue, hframe⟩ := h
  refine ⟨fun e he => ?_, fun f hf => absurd hf (by simp [Peer.onCsnHigh_frame])⟩
  rcases Peer.mem_txFifo_onCsnHigh he with hmem | ⟨f, hf, rfl⟩
  · exact hqueue e hmem
  · obtain ⟨hpos, hbuild⟩ := (hframe f hf).1
    omega

/-! ### Room for what is left -/

theorem fitsFrames_csnLow (room : Option Nat) (ms : List Micro) :
    fitsFrames room (.csnLow :: ms) = fitsFrames (some 33) ms := by
  cases room <;> rfl

theorem fitsFrames_csnHigh (room : Option Nat) (act : ModeAct) (ms : List Micro) :
    fitsFrames room (.csnHigh act :: ms) = fitsFrames none ms := by
  cases room <;> rfl

theorem fitsFrames_ce (room : Option Nat) (l : Level) (act : ModeAct) (ms : List Micro) :
    fitsFrames room (.ce l act :: ms) = fitsFrames room ms := by
  cases room <;> rfl

theorem fitsFrames_dwell (room : Option Nat) (ms : List Micro) : fitsFrames room (.dwell :: ms) = fitsFrames room ms := by
  cases room <;> rfl

/-- A transfer takes one byte of the room. -/
theorem fitsFrames_transfer {room : Option Nat} {m : Micro} {ms : List Micro} (hm : m.isTransfer = true) :
    fitsFrames room (m :: ms) = true ↔ ∃ n, room = some (n + 1) ∧ fitsFrames (some n) ms = true := by
  cases m with
  | out b | recv =>
    match room with
    | none => simp [fitsFrames]
    | some 0 => simp [fitsFrames]
    | some (n + 1) => simp [fitsFrames]
  | csnLow | csnHigh _ | ce _ _ | dwell => cases hm

theorem fitsFrames_transfers {ts next : List Micro} {n : Nat} (ht : ∀ m ∈ ts, m.isTransfer = true) :
    fitsFrames (some (ts.length + n)) (ts ++ next) = true ↔ fitsFrames (some n) next = true := by
  induction ts with
  | nil => rw [List.length_nil, Nat.zero_add, List.nil_append]
  | cons m ts ih =>
    obtain ⟨hm, hts⟩ := List.forall_mem_cons.1 ht
    rw [List.cons_append, fitsFrames_transfer hm, ← ih hts, List.length_cons, Nat.add_right_comm]
    simp

/-- A transaction of at most 33 bytes fits its frame. -/
theorem fitsFrames_txn {cmd : Byte} {outs : List Byte} {n : Nat} {act : ModeAct} {next : List Micro} (room : Option Nat)
    (hlen : outs.length + n ≤ 32) (h : fitsFrames none next = true) :
    fitsFrames room (txn cmd outs n act ++ next) = true := by
  have hsplit : txn cmd outs n act ++ next =
      .csnLow :: ((.out cmd :: (outs.map Micro.out ++ List.replicate n Micro.recv)) ++ (.csnHigh act :: next)) := by
    simp [txn]
  have htransfers : ∀ m ∈ Micro.out cmd :: (outs.map Micro.out ++ List.replicate n Micro.recv), m.isTransfer = true := by
    simp only [List.mem_cons, List.mem_append, List.mem_map, List.mem_replicate]
    rintro m (rfl | ⟨b, _, rfl⟩ | ⟨_, rfl⟩) <;> rfl
  have hroom : 33 = (Micro.out cmd :: (outs.map Micro.out ++ List.replicate n Micro.recv)).length +
      (32 - (outs.length + n)) := by
    simp only [List.length_cons, List.length_append, List.length_map, List.length_replicate]
    omega
  rw [hsplit, fitsFrames_csnLow, hroom, fitsFrames_transfers htransfers, fitsFrames_csnHigh]
  exact h

theorem fitsFrames_txn_last {cmd : Byte} {outs : List Byte} {n : Nat} {act : ModeAct} (room : Option Nat)
    (hlen : outs.length + n ≤ 32) : fitsFrames room (txn cmd outs n act) = true := by
  rw [← List.append_nil (txn cmd outs n act)]
  exact fitsFrames_txn room hlen rfl

/-- Every operation that passes its checks fits its frames. -/
theorem fitsFrames_microSeq (p : Params) {i : Instr} {m : Mode} (hcheck : acceptCheck i m = none) :
    fitsFrames none (microSeq p i) = true := by
  cases i with
  | readRxPayload len =>
    exact fitsFrames_txn_last none (by simpa using (checkLen_eq_none _).1 hcheck)
  | writeTxPayload bytes => exact fitsFrames_txn_last none ((checkLen_eq_none _).1 hcheck)
  | transmitOne bytes => exact fitsFrames_txn none ((checkTransmit_eq_none _ _).1 hcheck).1 rfl
  | init | configureReceiveMode | configureTransmitMode | writeRegister _ _ | readRegister _ | flushRx | flushTx
  | writeRegisterVerified _ _ | cmdRRegister _ | cmdWRegister _ _ | cmdRRxPayload _ | cmdWTxPayload _
  | cmdFlushTx | cmdFlushRx | cmdReuseTxPl | cmdNop => rfl

/-- A micro-op that fits keeps the bounds, and what is left fits the frame as it is then. -/
theorem Peer.framed_reactPeer {r : Peer} {l : Lines} {m : Micro} {ms : List Micro} (p : Params) (ce : Level)
    (h : r.framed l.csn) (hfits : fitsFrames r.room (m :: ms) = true) :
    (m.reactPeer p ce r).framed (m.lines l).csn ∧ fitsFrames (m.reactPeer p ce r).room ms = true := by
  have htransfer : ∀ b, m.isTransfer = true → (r.onXfer p b).framed l.csn ∧
      fitsFrames (r.onXfer p b).room ms = true := by
    intro b hm
    obtain ⟨hqueue, hframe⟩ := h
    obtain ⟨n, hroom, hleft⟩ := (fitsFrames_transfer hm).1 hfits
    obtain ⟨f, hf, hpos⟩ := Option.map_eq_some_iff.1 hroom
    obtain ⟨hwf, hcsn⟩ := hframe f hf
    obtain ⟨f', hf', hpos', hwf'⟩ := Peer.onXfer_frame p b hf hwf (by omega)
    refine ⟨⟨fun e he => hqueue e (Peer.mem_txFifo_onXfer he), fun g hg => ?_⟩, ?_⟩
    · cases hf'.symm.trans hg
      exact ⟨hwf', hcsn⟩
    · rw [Peer.room, hf', Option.map_some, hpos', show 33 - (f.pos + 1) = n by omega]
      exact hleft
  cases m with
  | csnLow =>
    refine ⟨⟨h.1, fun f hf => ?_⟩, fitsFrames_csnLow r.room ms ▸ hfits⟩
    cases hf
    exact ⟨by simp [Frame.wf], rfl⟩
  | csnHigh act =>
    refine ⟨Peer.framed_onCsnHigh h, ?_⟩
    show fitsFrames ((r.onCsnHigh p).frame.map _) ms = true
    rw [Peer.onCsnHigh_frame]
    exact fitsFrames_csnHigh r.room act ms ▸ hfits
  | ce v act =>
    rw [fitsFrames_ce] at hfits
    show (if _ then _ else _ : Peer).framed l.csn ∧ fitsFrames (if _ then _ else _ : Peer).room ms = true
    split
    · rw [Peer.onCeRise_eq]
      exact ⟨h, hfits⟩
    · exact ⟨h, hfits⟩
  | out b => exact htransfer b rfl
  | recv => exact htransfer p.fillByte rfl
  | dwell => exact ⟨h, fitsFrames_dwell r.room ms ▸ hfits⟩

/-! ### A step -/

/-- The place of a micro-op in its sequence: `upc` goes up to the next one without a wrap. -/
theorem State.upc_add_one {s : State} {m : Micro} (hlen : (microSeq s.params s.cur).length ≤ 38)
    (hm : (microSeq s.params s.cur)[s.upc.toNat]? = some m) : (s.upc + 1).toNat = s.upc.toNat + 1 := by
  obtain ⟨hlt, -⟩ := List.getElem?_eq_some_iff.1 hm
  rw [BitVec.toNat_add, show (1 : BitVec 6).toNat = 1 from rfl]
  omega

theorem State.microsLeft_of_rest {s : State} (hb : s.busy = false) : s.microsLeft = [] := by
  simp [State.microsLeft, hb]

theorem State.microsLeft_of_busy {s : State} (hb : s.busy = true) :
    s.microsLeft = (microSeq s.params s.cur).drop s.upc.toNat := by
  simp [State.microsLeft, hb]

theorem State.microsLeft_cons {s : State} {m : Micro} (hb : s.busy = true)
    (hm : (microSeq s.params s.cur)[s.upc.toNat]? = some m) :
    s.microsLeft = m :: (microSeq s.params s.cur).drop (s.upc.toNat + 1) := by
  obtain ⟨hlt, rfl⟩ := List.getElem?_eq_some_iff.1 hm
  rw [State.microsLeft_of_busy hb, ← List.drop_eq_getElem_cons hlt]

/-- The invariant of the peer, by its parts. -/
theorem State.peerInv_iff {s : State} : s.peerInv ↔ Peer.wf s.params s.peer ∧ s.peer.framed s.csn ∧
    (s.busy = true → ∃ m, acceptCheck s.cur m = none) ∧ fitsFrames s.peer.room s.microsLeft = true := by
  simp only [State.peerInv, Peer.framed, Peer.room, and_assoc]

/-- At rest no frame is in progress. -/
theorem State.frame_of_peerInv {s : State} (h : s.peerInv) (hleft : s.microsLeft = []) : s.peer.frame = none := by
  obtain ⟨-, -, -, hfits⟩ := State.peerInv_iff.1 h
  rw [hleft, Peer.room] at hfits
  cases hframe : s.peer.frame with
  | none => rfl
  | some f => rw [hframe] at hfits; cases hfits

/-- At rest the invariant is what the peer keeps by itself, the bound of the TX entries, and that no frame is open. -/
theorem State.peerInv_of_rest {s : State} (hb : s.busy = false) (hwf : Peer.wf s.params s.peer)
    (hqueue : ∀ e ∈ s.peer.txFifo, e.length ≤ 32) (hframe : s.peer.frame = none) : s.peerInv := by
  refine State.peerInv_iff.2 ⟨hwf, ⟨hqueue, by simp [hframe]⟩, by simp [hb], ?_⟩
  rw [State.microsLeft_of_rest hb, Peer.room, hframe]
  rfl

/-- The end of an operation keeps the invariant where no micro-op is left. -/
theorem State.peerInv_finish {s : State} (h : s.peerInv) (hleft : s.microsLeft = []) : s.finish.peerInv := by
  obtain ⟨hwf, ⟨hqueue, -⟩, -⟩ := State.peerInv_iff.1 h
  obtain ⟨r, d, hfinish⟩ := State.finish_eq s
  have hframe := State.frame_of_peerInv h hleft
  rw [hfinish]
  exact State.peerInv_of_rest rfl hwf hqueue hframe

/-- A completed micro-op of the operation in progress keeps the invariant. -/
theorem State.peerInv_done {s t : State} {m : Micro} (h : s.peerInv) (hb : s.busy = true)
    (hm : (microSeq s.params s.cur)[s.upc.toNat]? = some m) (hdone : s.micro m = .done t) : t.peerInv := by
  obtain ⟨hwf, hframed, hchecked, hfits⟩ := State.peerInv_iff.1 h
  obtain ⟨mode, hcheck⟩ := hchecked hb
  obtain ⟨e, hd⟩ := State.micro_done hdone
  have hupc : t.upc.toNat = s.upc.toNat + 1 :=
    hd.upc ▸ State.upc_add_one (microSeq_length_le s.params hcheck) hm
  have hcsn : t.csn = (m.lines { csn := s.csn, ce := s.ce, mode := s.mode }).csn := congrArg Lines.csn hd.lines
  rw [State.microsLeft_cons hb hm] at hfits
  obtain ⟨hframed', hfits'⟩ :=
    Peer.framed_reactPeer (l := { csn := s.csn, ce := s.ce, mode := s.mode }) s.params s.ce hframed hfits
  refine State.peerInv_iff.2 ⟨State.peerWf_done hdone hwf, ?_, fun _ => ⟨mode, hd.cur ▸ hcheck⟩, ?_⟩
  · rwa [(State.micro_reactPeer hdone).1, hcsn]
  · rwa [State.microsLeft_of_busy (hd.busy.trans hb), (State.micro_reactPeer hdone).1, hd.params, hd.cur, hupc]

/-- A failed transfer closes the frame, if one is open, and keeps the invariant. -/
theorem State.peerInv_abort {s : State} (b : Byte) (hwf : Peer.wf s.params s.peer) (h : s.peer.framed s.csn) :
    (s.abort b).peerInv := by
  refine State.peerInv_of_rest (s.abort_busy b) (State.peerWf_abort b hwf) ?_ ?_ <;> rw [s.abort_peer] <;> split
  · exact (Peer.framed_onCsnHigh h).1
  · exact h.1
  · exact Peer.onCsnHigh_frame s.params s.peer
  next hcsn =>
    cases hframe : s.peer.frame with
    | none => rfl
    | some f => exact absurd (h.2 f hframe).2 hcsn

/-- A micro-op of the operation in progress keeps the invariant, and so does the operation's end. -/
theorem State.peerInv_microStep {s : State} (h : s.peerInv) (hb : s.busy = true) : s.microStep.peerInv := by
  cases hm : (microSeq s.params s.cur)[s.upc.toNat]? with
  | none =>
    have hleft : s.microsLeft = [] := by
      rw [State.microsLeft_of_busy hb, List.drop_eq_nil_of_le (List.getElem?_eq_none_iff.1 hm)]
    simp only [State.microStep, hm]
    exact State.peerInv_finish h hleft
  | some m =>
    rcases State.microStep_cases hm with ⟨t, hdone, -, heq⟩ | ⟨t, hdone, hle, heq⟩ | ⟨t, habort, heq⟩ | ⟨-, heq⟩ <;>
      rw [heq]
    · exact State.peerInv_done h hb hm hdone
    · obtain ⟨e, hd⟩ := State.micro_done hdone
      refine State.peerInv_finish (State.peerInv_done h hb hm hdone) ?_
      rw [State.microsLeft_of_busy (hd.busy.trans hb), hd.params, hd.cur, List.drop_eq_nil_of_le hle]
    · obtain ⟨hwf, hframed, -⟩ := State.peerInv_iff.1 h
      obtain ⟨b, rest, -, -, rfl⟩ := State.micro_aborted habort
      exact State.peerInv_abort b hwf hframed
    · exact h

/-- A wire row queues no more than 32 bytes, and its transaction closes its frame. -/
theorem Peer.framed_wireBytes {r : Peer} {i : Instr} (p : Params) (hi : i.isHost = false) (hwf : i.wellFormed = true)
    (hqueue : ∀ e ∈ r.txFifo, e.length ≤ 32) :
    (∀ e ∈ (r.transaction p (wireBytes p i)).txFifo, e.length ≤ 32) ∧ (r.transaction p (wireBytes p i)).frame = none := by
  refine ⟨?_, Peer.onCsnHigh_frame p _⟩
  cases i with
  | cmdWTxPayload bytes =>
    have hlen : bytes.length ≤ 32 := of_decide_eq_true hwf
    rw [wireBytes, Peer.transaction_wTxPayload]
    intro e he
    have he' : e ∈ (if _ then _ else _ : List (List Byte)) := he
    split at he'
    · rcases List.mem_append.1 he' with hmem | hmem
      · exact hqueue e hmem
      · rwa [List.mem_singleton.1 hmem]
    · exact hqueue e he'
  | cmdRRegister a => rw [wireBytes, Peer.transaction_rRegister]; exact hqueue
  | cmdWRegister a value => rw [wireBytes, Peer.transaction_wRegister]; exact hqueue
  | cmdRRxPayload n => rw [wireBytes, Peer.transaction_rRxPayload]; exact hqueue
  | cmdFlushTx => rw [wireBytes, Peer.transaction_flushTx]; exact nofun
  | cmdFlushRx => rw [wireBytes, Peer.transaction_flushRx]; exact hqueue
  | cmdReuseTxPl => rw [wireBytes, Peer.transaction_reuseTxPl]; exact hqueue
  | cmdNop => rw [wireBytes, Peer.transaction_nop]; exact hqueue
  | _ => cases hi

/-- Settles O18: a micro-op has room in its frame, an operation accepted fits its frames, and a transaction of the bench
closes its own. -/
theorem stepKeepsPeerInvariant : Obligations.StepKeepsPeerInvariant := by
  refine ⟨fun s t h hstep => ?_, fun s t => peerWf_step⟩
  obtain ⟨hwf, ⟨hqueue, hopen⟩, -, -⟩ := State.peerInv_iff.1 h
  cases stepsTo_of_step hstep with
  | micro hb => exact State.peerInv_microStep h hb
  | idle => exact h
  | accepted hb hbench ho hi hcheck =>
    have hframe := State.frame_of_peerInv h (State.microsLeft_of_rest hb)
    refine State.peerInv_iff.2 ⟨hwf, ⟨hqueue, hopen⟩, fun _ => ⟨_, hcheck⟩, ?_⟩
    show fitsFrames (s.peer.frame.map _) _ = true
    rw [hframe]
    exact fitsFrames_microSeq s.params hcheck
  | refused st hb hbench ho =>
    have hframe := State.frame_of_peerInv h (State.microsLeft_of_rest hb)
    exact State.peerInv_of_rest rfl hwf hqueue hframe
  | wire hb hbench hi hrow =>
    obtain ⟨io, d, hframe, -⟩ := State.wireFrame_eq (wireBytes s.params _) ({ s with bench := _ } : State)
    obtain ⟨hqueue', hclosed⟩ := Peer.framed_wireBytes s.params hi hrow hqueue
    rw [hframe]
    exact State.peerInv_of_rest hb (Peer.wf_transaction _ hwf) hqueue' hclosed

/-- Settles O13: nothing is in the trace, the FIFOs, the register space or a frame. -/
theorem resetMeetsInvariants : Obligations.ResetMeetsInvariants := by
  have hwf : Peer.wf State.reset.params State.reset.peer := ⟨Memory.wf_nil _, Nat.zero_le _, Nat.zero_le _, nofun⟩
  exact ⟨⟨.inl State.reset_atRest, rfl⟩, State.peerInv_of_rest rfl hwf nofun rfl⟩

end Sys2Proof.Machine

/-! SUPPORT. An operation in progress (spec/10_state.md R27, spec/70_reset_and_hazards.md R214): its place in its
micro-sequence, that steps of one micro-op each are its run, and that it ends or hangs. -/

namespace Sys2Proof.Machine

/-! ### The place in the micro-sequence -/

/-- An operation is in progress, `ms` are the micro-ops it has yet to run, and `upc` cannot wrap. -/
def State.runsAt (ms : List Micro) (s : State) : Prop :=
  s.busy = true ∧ (microSeq s.params s.cur).drop s.upc.toNat = ms ∧ (microSeq s.params s.cur).length ≤ 38

theorem State.runsAt_accept {i : Instr} {s : State} {m : Mode} (hcheck : acceptCheck i m = none) :
    (s.accept i).runsAt (microSeq s.params i) :=
  ⟨rfl, rfl, microSeq_length_le s.params hcheck⟩

theorem State.runsAt.getElem? {m : Micro} {ms : List Micro} {s : State} (h : s.runsAt (m :: ms)) :
    (microSeq s.params s.cur)[s.upc.toNat]? = some m := by
  rw [← List.head?_drop, h.2.1, List.head?_cons]

theorem State.runsAt.done {m : Micro} {ms : List Micro} {s t : State} (h : s.runsAt (m :: ms))
    (hdone : s.micro m = .done t) : t.runsAt ms := by
  have hm := h.getElem?
  obtain ⟨hbusy, hdrop, hlen⟩ := h
  obtain ⟨e, hd⟩ := State.micro_done hdone
  refine ⟨hd.busy.trans hbusy, ?_, by rwa [hd.params, hd.cur]⟩
  rw [hd.params, hd.cur, hd.upc, State.upc_add_one hlen hm, ← List.drop_drop, hdrop, List.drop_one, List.tail_cons]

/-- A transfer of the operation that never returns is a hang. -/
theorem State.runsAt.hung {m : Micro} {ms : List Micro} {s : State} (h : s.runsAt (m :: ms)) (hstuck : s.micro m = .stuck) :
    s.hung := by
  obtain ⟨hm, hnever⟩ := State.micro_stuck hstuck
  refine ⟨h.1, ?_, hnever⟩
  rcases hm with ⟨b, rfl⟩ | rfl
  · exact ⟨b, .inl h.getElem?⟩
  · exact ⟨0, .inr h.getElem?⟩

/-- A run leaves what stands outside the operation. -/
theorem State.sameOutside_runMicros (ms : List Micro) (s : State) : s.SameOutside (State.runMicros ms s) :=
  State.runMicros_induction (P := fun _ t => s.SameOutside t) (fun _ _ _ _ h hdone => h.trans (State.sameOutside_done hdone))
    (fun _ _ _ _ h habort => h.trans (State.sameOutside_aborted habort)) (fun _ _ _ h _ => h)
    (fun t h => h.trans t.sameOutside_finish) ms s (.refl s)

/-! ### How a run ends -/

/-- The run of an operation ends it with a response, or hangs without one. -/
theorem State.runMicros_ends {ms : List Micro} {s : State} (h : s.runsAt ms) (hresp : s.resp = none) :
    ((State.runMicros ms s).busy = false ∧ (State.runMicros ms s).resp.isSome = true) ∨
      ((State.runMicros ms s).hung ∧ (State.runMicros ms s).resp = none) := by
  refine State.runMicros_induction (P := fun ms t => t.runsAt ms ∧ t.resp = none)
    (Q := fun t => (t.busy = false ∧ t.resp.isSome = true) ∨ (t.hung ∧ t.resp = none))
    (fun m ms u t hu hdone => ?_) (fun m ms u t _ habort => .inl ?_) (fun m ms u hu hstuck => .inr ⟨hu.1.hung hstuck, hu.2⟩)
    (fun u _ => .inl ?_) ms s ⟨h, hresp⟩
  · obtain ⟨e, hd⟩ := State.micro_done hdone
    exact ⟨hu.1.done hdone, hd.resp.trans hu.2⟩
  · obtain ⟨b, rest, -, -, rfl⟩ := State.micro_aborted habort
    exact ⟨State.abort_busy _ b, State.abort_resp_isSome _ b⟩
  · obtain ⟨r, d, hfinish⟩ := State.finish_eq u
    rw [hfinish]
    exact ⟨rfl, rfl⟩

/-- Settles O20: an instruction waits, is refused, runs its micro-sequence, or is a transaction; each is a next state, and a
run ends or hangs. -/
theorem everyInstructionAnswersNext : Obligations.EveryInstructionAnswersNext := by
  intro i s
  rcases exec_cases i s with ⟨hbusy, heq⟩ | ⟨-, -, st, -, heq⟩ | ⟨-, -, hcheck, heq⟩ | ⟨-, hi, heq⟩
  · exact ⟨_, heq, fun hrest => by simp [hrest.1] at hbusy⟩
  · exact ⟨_, heq, fun _ _ => .inl ⟨rfl, rfl⟩⟩
  · exact ⟨_, heq, fun _ _ => State.runMicros_ends (State.runsAt_accept hcheck) rfl⟩
  · exact ⟨_, heq, fun _ hhost => by simp [hi] at hhost⟩

/-- A transfer that fails where the discipline allows it leaves the block at rest. -/
theorem State.atRest_of_aborted {s t : State} {m : Micro} (h : s.micro m = .aborted t)
    (ha : m.allowed { csn := s.csn, ce := s.ce, mode := s.mode }) : t.atRest := by
  obtain ⟨b, rest, hm, -, rfl⟩ := State.micro_aborted h
  have hce : ceDerived s.ce s.mode := by
    rcases hm with rfl | ⟨rfl, -⟩ <;> exact ha.2
  exact State.abort_atRest b hce

/-- A disciplined run ends at rest or hangs. -/
theorem State.runMicros_atRest_or_hung {ms : List Micro} {s : State} (h : s.runsAt ms)
    (hd : disciplined { csn := s.csn, ce := s.ce, mode := s.mode } ms) :
    (State.runMicros ms s).atRest ∨ (State.runMicros ms s).hung := by
  refine State.runMicros_induction
    (P := fun ms t => t.runsAt ms ∧ disciplined { csn := t.csn, ce := t.ce, mode := t.mode } ms)
    (Q := fun t => t.atRest ∨ t.hung) (fun m ms u t hu hdone => ?_)
    (fun m ms u t hu habort => .inl (State.atRest_of_aborted habort hu.2.1))
    (fun m ms u hu hstuck => .inr (hu.1.hung hstuck)) (fun u hu => .inl (State.finish_atRest hu.2.1 hu.2.2)) ms s ⟨h, hd⟩
  obtain ⟨e, hdone'⟩ := State.micro_done hdone
  exact ⟨hu.1.done hdone, hdone'.lines ▸ hu.2.2⟩

/-- From rest every instruction ends at rest or hangs. -/
theorem exec_atRest_or_hung {i : Instr} {s t : State} (hr : s.atRest) (h : exec i s = .next t) : t.atRest ∨ t.hung := by
  obtain ⟨hb, hcsn, hupc, hrxbuf, hce⟩ := hr
  rcases exec_cases i s with ⟨hbusy, -⟩ | ⟨-, -, st, -, heq⟩ | ⟨-, hi, hcheck, heq⟩ | ⟨-, -, heq⟩
  · simp [hb] at hbusy
  · cases heq.symm.trans h
    exact .inl ⟨rfl, hcsn, rfl, hrxbuf, hce⟩
  · cases heq.symm.trans h
    have hdisciplined := disciplined_microSeq s.params hi hce hcheck
    rw [← hcsn] at hdisciplined
    exact State.runMicros_atRest_or_hung (State.runsAt_accept hcheck) hdisciplined
  · cases heq.symm.trans h
    obtain ⟨io, d, hframe, -⟩ := State.wireFrame_eq (wireBytes s.params i) s
    rw [hframe]
    exact .inl ⟨hb, hcsn, hupc, hrxbuf, hce⟩

/-- Settles O17: the discipline of the micro-sequences ends every run at rest. -/
theorem instructionsEndAtRestOrHang : Obligations.InstructionsEndAtRestOrHang :=
  ⟨State.reset_atRest, fun _ _ _ => exec_atRest_or_hung⟩

/-! ### The steps of a run -/

theorem core_run_succ {s t : State} (h : step s = .next t) (n : Nat) :
    Sys2Proof.core.run (n + 1) s = Sys2Proof.core.run n t := by
  have hstep : Sys2Proof.core.step s = .next t := h
  simp only [Host.Core.run, hstep]

/-- A run that reaches a next state begins with a step that does. -/
theorem core_run_succ_next {s u : State} {n : Nat} (h : Sys2Proof.core.run (n + 1) s = .next u) :
    ∃ t, step s = .next t ∧ Sys2Proof.core.run n t = .next u := by
  cases hstep : Sys2Proof.core.step s with
  | next t => exact ⟨t, hstep, (core_run_succ hstep n).symm.trans h⟩
  | fault r => simp only [Host.Core.run, hstep, reduceCtorEq] at h
  | refused r => simp only [Host.Core.run, hstep, reduceCtorEq] at h

theorem core_run_add {s t : State} {n : Nat} (h : Sys2Proof.core.run n s = .next t) (k : Nat) :
    Sys2Proof.core.run (n + k) s = Sys2Proof.core.run k t := by
  induction n generalizing s with
  | zero => cases h; rw [Nat.zero_add]
  | succ n ih =>
    obtain ⟨u, hstep, hrun⟩ := core_run_succ_next h
    rw [Nat.add_right_comm, core_run_succ hstep, ih hrun]

/-- What every step keeps holds of every state that a run reaches. -/
theorem core_run_induction {P : State → Prop} (hkeeps : ∀ s t, P s → step s = .next t → P t) {n : Nat} {s t : State}
    (h : P s) (hrun : Sys2Proof.core.run n s = .next t) : P t := by
  induction n generalizing s with
  | zero => cases hrun; exact h
  | succ n ih =>
    obtain ⟨u, hstep, hrun'⟩ := core_run_succ_next hrun
    exact ih (hkeeps s u h hstep) hrun'

/-- The step of a micro-op that completes: on to the next one, or the end of the operation after the last. -/
theorem State.runsAt.step_done {m : Micro} {ms : List Micro} {s t : State} (h : s.runsAt (m :: ms))
    (hdone : s.micro m = .done t) : step s = .next (if ms = [] then t.finish else t) := by
  obtain ⟨-, hdrop, -⟩ := h.done hdone
  obtain ⟨e, hd⟩ := State.micro_done hdone
  rw [hd.params, hd.cur] at hdrop
  rw [step_of_busy h.1]
  rcases State.microStep_cases h.getElem? with ⟨u, hu, hlt, heq⟩ | ⟨u, hu, hle, heq⟩ | ⟨u, hu, -⟩ | ⟨hu, -⟩
  · cases hdone.symm.trans hu
    have hms : ms ≠ [] := hdrop ▸ mt List.drop_eq_nil_iff.1 (Nat.not_le.2 hlt)
    rw [heq, if_neg hms]
  · cases hdone.symm.trans hu
    have hms : ms = [] := hdrop ▸ List.drop_eq_nil_of_le hle
    rw [heq, if_pos hms]
  · cases hdone.symm.trans hu
  · cases hdone.symm.trans hu

theorem State.runsAt.step_aborted {m : Micro} {ms : List Micro} {s t : State} (h : s.runsAt (m :: ms))
    (habort : s.micro m = .aborted t) : step s = .next t := by
  simp only [step_of_busy h.1, State.microStep, h.getElem?, habort]

/-- As many steps as there are micro-ops left, or fewer, are the run of the operation. -/
theorem State.runsAt.core_run {ms : List Micro} {s : State} (h : s.runsAt ms) (hms : ms ≠ []) :
    ∃ n, n ≤ ms.length ∧ Sys2Proof.core.run n s = .next (State.runMicros ms s) := by
  induction ms generalizing s with
  | nil => exact absurd rfl hms
  | cons m ms ih =>
    cases hmicro : s.micro m with
    | done t =>
      have hstep := h.step_done hmicro
      rw [State.runMicros_cons_done hmicro]
      by_cases hlast : ms = []
      · subst hlast
        exact ⟨1, by simp, core_run_succ hstep 0⟩
      · rw [if_neg hlast] at hstep
        obtain ⟨n, hn, hrun⟩ := ih (h.done hmicro) hlast
        exact ⟨n + 1, Nat.succ_le_succ hn, (core_run_succ hstep n).trans hrun⟩
    | aborted t =>
      rw [State.runMicros, hmicro]
      exact ⟨1, by simp, core_run_succ (h.step_aborted hmicro) 0⟩
    | stuck =>
      rw [State.runMicros, hmicro]
      exact ⟨0, by simp, rfl⟩

/-- An offer that decodes is executed by one step that takes it and at most 38 micro-ops. -/
theorem exec_by_steps {i : Instr} {s : State} {r : Request} {rest : List Request} (hb : s.busy = false)
    (hbench : s.bench = []) (ho : s.offers = r :: rest) (hd : decode (.host r) = .ok i) :
    ∃ n t, n ≤ 38 ∧ exec i { s with offers := rest } = .next t ∧ Sys2Proof.core.run (n + 1) s = .next t ∧
      (t.busy = false ∨ t.hung) := by
  have hi : i.isHost = true := decode_isHost hd
  cases hcheck : acceptCheck i s.mode with
  | some st =>
    have hexec := exec_refused (s := { s with offers := rest }) hi hb hcheck
    have hstep := step_of_checked hb hbench ho hd (by simp [hcheck])
    exact ⟨0, _, Nat.zero_le _, hexec, core_run_succ (hstep.trans hexec) 0, .inl hb⟩
  | none =>
    have hexec := exec_runs (s := { s with offers := rest }) hi hb hcheck
    have hstart := State.runsAt_accept (s := { s with offers := rest }) hcheck
    have hpos : microSeq s.params i ≠ [] := List.ne_nil_of_length_pos (microSeq_length_pos s.params hi)
    obtain ⟨n, hn, hrun⟩ := hstart.core_run hpos
    refine ⟨n, _, hn.trans (microSeq_length_le s.params hcheck), hexec,
      (core_run_succ (step_of_accepted hb hbench ho hd hcheck) n).trans hrun, ?_⟩
    rcases State.runMicros_ends hstart rfl with ⟨hbusy, -⟩ | ⟨hhung, -⟩
    · exact .inl hbusy
    · exact .inr hhung

/-- Settles O10: `exec_by_steps`. -/
theorem execIsItsMicroSteps : Obligations.ExecIsItsMicroSteps := fun _ _ _ _ => exec_by_steps

/-- A step inside an operation: on to the next micro-op, the end, or a hang. -/
theorem step_of_inOperation {s : State} (h : s.inOperation) :
    ∃ t, step s = .next t ∧
      ((t.busy = true ∧ t.cur = s.cur ∧ t.upc.toNat = s.upc.toNat + 1 ∧
          t.upc.toNat < (microSeq s.params s.cur).length) ∨
        (t.busy = false ∧ t.upc = 0 ∧ t.rxbuf = [] ∧ t.resp.isSome = true) ∨ (t = s ∧ s.hung)) := by
  obtain ⟨m, hm, hsucc, -⟩ := State.inOperation_next h
  obtain ⟨hb, -⟩ := h
  refine ⟨s.microStep, step_of_busy hb, ?_⟩
  rcases State.microStep_cases hm with ⟨t, hdone, hlt, heq⟩ | ⟨t, hdone, -, heq⟩ | ⟨t, habort, heq⟩ | ⟨hstuck, heq⟩ <;>
    rw [heq]
  · obtain ⟨e, hd⟩ := State.micro_done hdone
    exact .inl ⟨hd.busy.trans hb, hd.cur, hd.upc ▸ hsucc, hlt⟩
  · obtain ⟨r, d, hfinish⟩ := State.finish_eq t
    rw [hfinish]
    exact .inr (.inl ⟨rfl, rfl, rfl, rfl⟩)
  · obtain ⟨b, rest, -, -, rfl⟩ := State.micro_aborted habort
    exact .inr (.inl ⟨State.abort_busy _ b, State.abort_upc _ b, State.abort_rxbuf _ b, State.abort_resp_isSome _ b⟩)
  · obtain ⟨hmicro, hnever⟩ := State.micro_stuck hstuck
    refine .inr (.inr ⟨rfl, hb, ?_, hnever⟩)
    rcases hmicro with ⟨b, rfl⟩ | rfl
    · exact ⟨b, .inl hm⟩
    · exact ⟨0, .inr hm⟩

/-- Settles O11: the acceptance clears `upc`, and a step inside an operation is one of its micro-op's outcomes. -/
theorem upcOnlyAdvances : Obligations.UpcOnlyAdvances :=
  ⟨fun _ _ _ _ hb hbench ho hd hcheck =>
    ⟨_, step_of_accepted hb hbench ho hd hcheck, rfl, rfl, rfl, rfl, rfl, rfl⟩, fun _ => step_of_inOperation⟩

/-! ### A hang -/

/-- A micro-op that is a transfer is stuck where the bus side declines to answer. -/
theorem State.micro_never {m : Micro} {s : State} (hm : (∃ b, m = .out b) ∨ m = .recv)
    (h : s.answers.head? = some .never) : s.micro m = .stuck := by
  rcases hm with ⟨b, rfl⟩ | rfl
  · simp only [State.micro, State.outByte, State.spiXfer_never.2 h]
  · simp only [State.micro, State.inByte, State.spiXfer_never.2 h]

/-- Settles O33: the step is the micro-op, which is stuck. -/
theorem hungBlockStaysHung : Obligations.HungBlockStaysHung := by
  rintro s ⟨hb, ⟨b, hm⟩, hnever⟩
  rw [step_of_busy hb]
  rcases hm with hm | hm
  · simp only [State.microStep, hm, State.micro_never (.inl ⟨b, rfl⟩) hnever]
  · simp only [State.microStep, hm, State.micro_never (.inr rfl) hnever]

/-- The command byte of a register read is its address (spec/40_register_access.md R111). -/
theorem readCmd_of_legal {addr : Byte} (h : addr ≤ 0x1F) : readCmd addr = 0x00 ||| addr := by
  revert addr; decide

theorem State.runMicros_cons_stuck {m : Micro} {ms : List Micro} {s : State} (h : s.micro m = .stuck) :
    State.runMicros (m :: ms) s = s := by
  simp only [State.runMicros, h]

/-- Settles O34: the first transfer completes, and the second is stuck. -/
theorem readRegisterCanHang : Obligations.ReadRegisterCanHang := by
  intro s addr m0 rest hb ha hanswers
  have hout := State.micro_out_byte (b := readCmd addr) (s := (s.accept (.readRegister addr)).csnFall.completed .keep)
    hanswers
  have hstuck := State.micro_never (m := .recv) (s := (State.shifted (readCmd addr) m0
    { (s.accept (.readRegister addr)).csnFall.completed .keep with answers := .never :: rest }).completed .keep)
    (.inr rfl) rfl
  have hcmd : readCmd addr = addr := (readCmd_of_legal ha).trans BitVec.zero_or
  refine ⟨_, exec_runs rfl hb ((checkAddr_eq_none addr).2 ha), ?_⟩
  rw [show microSeq s.params (.readRegister addr) = [.csnLow, .out (readCmd addr), .recv, .csnHigh .keep] from rfl,
    State.runMicros_cons_done rfl, State.runMicros_cons_done hout, State.runMicros_cons_stuck hstuck]
  exact ⟨⟨rfl, ⟨0, .inr rfl⟩, rfl⟩, rfl, rfl, rfl, by simp [hcmd]⟩

end Sys2Proof.Machine

/-! SUPPORT. Finite runs (spec/00_scope.md R16): each offer takes the block from rest to rest, and where nothing is in
progress and nothing is offered any more, the last response stands. -/

namespace Sys2Proof.Machine

/-! ### One offer -/

/-- On a bus that neither fails nor hangs an operation taken at rest ends at rest with a response, no fault is recorded, and
what stands outside the block stays. -/
theorem exec_good {i : Instr} {s t : State} (hr : s.atRest) (hg : s.busGood) (hi : i.isHost = true)
    (h : exec i s = .next t) :
    t.atRest ∧ t.busGood ∧ t.resp.isSome = true ∧ t.busFault = s.busFault ∧ s.SameOutside t := by
  obtain ⟨hb, hcsn, hupc, hrxbuf, hce⟩ := hr
  cases hcheck : acceptCheck i s.mode with
  | some st =>
    cases (exec_refused hi hb hcheck).symm.trans h
    exact ⟨⟨hb, hcsn, rfl, hrxbuf, hce⟩, hg, rfl, rfl, ⟨rfl, rfl, rfl, rfl, rfl⟩⟩
  | none =>
    have hstart : (s.accept i).busGood := hg
    obtain ⟨u, hrun, -, -, -, -, hfault, hgood⟩ := State.runMicros_good (microSeq s.params i) _ hstart
    obtain ⟨r, d, hfinish⟩ := State.finish_eq u
    have hsame := State.sameOutside_runMicros (microSeq s.params i) (s.accept i)
    have hend : t = u.finish := by
      cases (exec_runs hi hb hcheck).symm.trans h
      exact hrun
    rw [hrun, ← hend] at hsame
    have hrest : t.atRest := by
      rcases exec_atRest_or_hung ⟨hb, hcsn, hupc, hrxbuf, hce⟩ h with hrest | ⟨hbusy, -⟩
      · exact hrest
      · rw [hend, hfinish] at hbusy; cases hbusy
    refine ⟨hrest, ?_, ?_, ?_, ⟨hsame.params, hsame.irq, hsame.offers, hsame.bench, hsame.exchanged⟩⟩ <;>
      rw [hend, hfinish]
    · exact hgood
    · rfl
    · exact hfault

/-- The host port turns away an operation code, or a length that is not the payload's, and nothing else. -/
theorem decode_host_error {r : Request} {e : Reject} (h : decode (.host r) = .error e) :
    e = .illegalOp r.op ∨ ∃ len given, e = .lengthMismatch len given := by
  simp only [decode, decodeRequest] at h
  split at h
  case h_5 | h_6 =>
    simp only [decodePayload] at h
    split at h
    · cases h
    · cases h; exact .inr ⟨_, _, rfl⟩
  case h_12 => cases h; exact .inl rfl
  all_goals cases h

/-- The first offer takes at most 39 steps from rest to rest (acceptance and 38 micro-ops). -/
theorem core_run_offer {s : State} {r : Request} {rest : List Request} (hr : s.atRest) (hbench : s.bench = [])
    (hg : s.busGood) (ho : s.offers = r :: rest)
    (hlen : ∀ len given, decode (.host r) ≠ .error (.lengthMismatch len given)) :
    ∃ n t, n ≤ 39 ∧ Sys2Proof.core.run n s = .next t ∧ t.atRest ∧ t.bench = [] ∧ t.busGood ∧ t.offers = rest ∧
      t.resp.isSome = true ∧ t.busFault = s.busFault := by
  cases hd : decode (.host r) with
  | ok i =>
    obtain ⟨n, t, hn, hexec, hrun, -⟩ := exec_by_steps hr.1 hbench ho hd
    obtain ⟨hrest, hgood, hresp, hfault, hsame⟩ :=
      exec_good (s := { s with offers := rest }) hr hg (decode_isHost hd) hexec
    exact ⟨n + 1, t, Nat.succ_le_succ hn, hrun, hrest, hsame.bench.trans hbench, hgood, hsame.offers, hresp, hfault⟩
  | error e =>
    rcases decode_host_error hd with rfl | ⟨len, given, rfl⟩
    · have hstep : step s = .next (({ s with offers := rest } : State).refuseWith .invalidArgument) :=
        step_of_rejected hr.1 (State.nextOffer_host hbench ho) hd
      obtain ⟨-, hcsn, -, hrxbuf, hce⟩ := hr
      exact ⟨1, _, by omega, core_run_succ hstep 0, ⟨rfl, hcsn, rfl, hrxbuf, hce⟩, hbench, hg, rfl, rfl, rfl⟩
    · exact absurd hd (hlen len given)

/-! ### All offers -/

/-- The offers take at most 39 steps each, from rest to rest with nothing offered, and the last response stands. -/
theorem core_run_offers {offers : List Request} {s : State} (hr : s.atRest) (hbench : s.bench = []) (hg : s.busGood)
    (ho : s.offers = offers) (hlen : ∀ r ∈ offers, ∀ len given, decode (.host r) ≠ .error (.lengthMismatch len given)) :
    ∃ n t, n ≤ 39 * offers.length ∧ Sys2Proof.core.run n s = .next t ∧ t.atRest ∧ t.offers = [] ∧
      t.busFault = s.busFault ∧ (offers ≠ [] ∨ s.resp.isSome = true → t.resp.isSome = true) := by
  induction offers generalizing s with
  | nil => exact ⟨0, s, Nat.zero_le _, rfl, hr, ho, rfl, fun h => h.resolve_left (absurd rfl)⟩
  | cons r rest ih =>
    obtain ⟨hlenr, hlenrest⟩ := List.forall_mem_cons.1 hlen
    obtain ⟨n, u, hn, hrun, hru, hbenchu, hgu, hou, hrespu, hfaultu⟩ := core_run_offer hr hbench hg ho hlenr
    obtain ⟨k, t, hk, hrun', hrt, hot, hfaultt, hrespt⟩ := ih hru hbenchu hgu hou hlenrest
    refine ⟨n + k, t, ?_, (core_run_add hrun k).trans hrun', hrt, hot, hfaultt.trans hfaultu, fun _ => hrespt (.inr hrespu)⟩
    rw [List.length_cons]
    omega

theorem State.resetBlock_atRest (s : State) : s.resetBlock.atRest :=
  ⟨rfl, rfl, rfl, rfl, (ceDerived_low _).2 nofun⟩

theorem State.resetBlock_lineInv (s : State) : s.resetBlock.lineInv := ⟨.inl s.resetBlock_atRest, rfl⟩

/-- What holds along a run that begins with an offer: the bench is empty, the lines keep their invariant, and where nothing
is offered any more the last operation is in progress or its response stands. -/
def State.inRun (s : State) : Prop :=
  s.bench = [] ∧ s.lineInv ∧ (s.offers = [] → s.busy = true ∨ s.resp.isSome = true)

/-- A micro-op ends an operation in progress with a response, or does not end it. -/
theorem State.busy_or_resp_microStep {s : State} (hb : s.busy = true) :
    s.microStep.busy = true ∨ s.microStep.resp.isSome = true := by
  refine State.microStep_induction (Q := fun t => t.busy = true ∨ t.resp.isSome = true) (fun m t _ hdone => .inl ?_)
    (fun m t habort => .inr ?_) (.inl hb) (fun t _ => .inr ?_)
  · obtain ⟨e, hd⟩ := State.micro_done hdone
    exact hd.busy.trans hb
  · obtain ⟨b, rest, -, -, rfl⟩ := State.micro_aborted habort
    exact State.abort_resp_isSome _ b
  · obtain ⟨r, d, hfinish⟩ := State.finish_eq t
    rw [hfinish]; rfl

theorem State.inRun_step {s t : State} (h : s.inRun) (hstep : step s = .next t) : t.inRun := by
  obtain ⟨hbench, hline, hlast⟩ := h
  have hline' := stepKeepsLineInvariant s t hline hstep
  cases stepsTo_of_step hstep with
  | micro hb =>
    exact ⟨s.sameOutside_microStep.bench.trans hbench, hline', fun _ => State.busy_or_resp_microStep hb⟩
  | idle => exact ⟨hbench, hline, hlast⟩
  | accepted => exact ⟨hbench, hline', fun _ => .inl rfl⟩
  | refused => exact ⟨hbench, hline', fun _ => .inr rfl⟩
  | wire hb hfull => simp [hbench] at hfull

/-- Settles O15: `core_run_offers` from the reset, and `State.inRun` along the run. -/
theorem finiteRunsEnd : Obligations.FiniteRunsEnd := by
  refine ⟨fun s hbench ho hg hlen => ?_, fun s t n hbench ho hrun => ?_⟩
  · have hgood : s.resetBlock.busGood := hg
    obtain ⟨n, t, hn, hrun, hrest, hoffers, hfault, hresp⟩ :=
      core_run_offers s.resetBlock_atRest hbench hgood rfl hlen
    exact ⟨n, t, hn, hrun, ⟨hrest, hoffers, hresp (.inl ho)⟩, hfault⟩
  · have hstart : s.resetBlock.inRun := ⟨hbench, s.resetBlock_lineInv, fun h => absurd h ho⟩
    obtain ⟨-, ⟨hplace, -⟩, hlast⟩ := core_run_induction (fun _ _ => State.inRun_step) hstart hrun
    refine ⟨fun ⟨hrest, hoffers, _⟩ => ⟨hrest.1, hoffers⟩, fun ⟨hb, hoffers⟩ => ?_⟩
    have hresp : t.resp.isSome = true := (hlast hoffers).resolve_left (by simp [hb])
    rcases hplace with hrest | ⟨hbusy, -⟩
    · exact ⟨hrest, hoffers, hresp⟩
    · simp [hb] at hbusy

end Sys2Proof.Machine

/-! SUPPORT. What an operation does not read (spec/42_mode_configuration.md R160, spec/60_exceptions.md R180): the past
trace, `bus_fault`, the interrupt line, and what waits outside. A run commutes with changing them. -/

namespace Sys2Proof.Machine

/-- The parts of the state that no operation reads. -/
structure Background where
  past      : List Event
  fault     : Bool
  irq       : Level
  offers    : List Request
  bench     : List (List Byte)
  exchanged : List (Byte × Byte)

/-- The state in front of a background: its trace continues the past, its bus fault adds to one already recorded. -/
def State.against (g : Background) (s : State) : State :=
  { s with
    trace := g.past ++ s.trace
    busFault := g.fault || s.busFault
    irq := g.irq
    offers := g.offers
    bench := g.bench
    exchanged := g.exchanged }

/-- The background of a state. -/
def State.background (s : State) : Background :=
  { past := s.trace, fault := s.busFault, irq := s.irq, offers := s.offers, bench := s.bench, exchanged := s.exchanged }

/-- The state with no past of its own. -/
def State.foreground (s : State) : State := { s with trace := [], busFault := false }

theorem State.foreground_against_background (s : State) : s.foreground.against s.background = s := by
  simp [State.against, State.foreground, State.background]

/-! ### A micro-op -/

def XferResult.map (f : State → State) : XferResult → XferResult
  | .ok m s => .ok m (f s)
  | .fail s => .fail (f s)
  | .never => .never

def MicroResult.map (f : State → State) : MicroResult → MicroResult
  | .done s => .done (f s)
  | .aborted s => .aborted (f s)
  | .stuck => .stuck

theorem State.shifted_against (g : Background) (b m : Byte) (s : State) :
    (s.against g).shifted b m = (s.shifted b m).against g := by
  simp [State.shifted, State.against]

theorem State.peerXfer_against (g : Background) (b : Byte) (s : State) :
    (s.against g).peerXfer b = (s.peerXfer b).map (State.against g) := by
  have hmiso : (s.against g).peer.miso (s.against g).params = s.peer.miso s.params := rfl
  simp only [State.peerXfer, hmiso]
  cases s.peer.miso s.params with
  | some m => exact congrArg (XferResult.ok m) (State.shifted_against g b m s)
  | none => exact congrArg (XferResult.ok s.freeByte) (State.shifted_against g b s.freeByte s.drawn)

theorem State.spiXfer_against (g : Background) (b : Byte) (s : State) :
    (s.against g).spiXfer b = (s.spiXfer b).map (State.against g) := by
  have hanswers : (s.against g).answers = s.answers := rfl
  unfold State.spiXfer
  rw [hanswers]
  split
  next => exact State.peerXfer_against g b s
  next rest _ => exact State.peerXfer_against g b { s with answers := rest }
  next m rest _ => exact congrArg _ (State.shifted_against g b m { s with answers := rest })
  next => rfl
  next => rfl

theorem State.abort_against (g : Background) (b : Byte) (s : State) :
    (s.against g).abort b = (s.abort b).against g := by
  cases h : s.csn <;> simp [State.abort, State.against, State.emit, State.csnRise, State.rest, State.respond,
    State.freeByte, h]

theorem State.finish_against (g : Background) (s : State) : (s.against g).finish = s.finish.against g := by
  unfold State.finish
  show (if definesRbyte s.cur = true then _ else _) = _
  split <;> rfl

theorem State.micro_against (g : Background) (m : Micro) (s : State) :
    (s.against g).micro m = (s.micro m).map (State.against g) := by
  cases m with
  | csnLow | csnHigh _ | dwell =>
    simp [State.micro, MicroResult.map, State.against, State.completed, State.csnFall, State.csnRise, State.dwell]
  | ce l act =>
    simp only [State.micro, MicroResult.map, State.against, State.completed, State.driveCe, List.append_assoc]
    rfl
  | out b =>
    simp only [State.micro, State.outByte, State.spiXfer_against]
    cases s.spiXfer b with
    | ok m t => rfl
    | fail t => exact congrArg _ (State.abort_against g b t)
    | never => rfl
  | recv =>
    have hfill : (s.against g).params.fillByte = s.params.fillByte := rfl
    simp only [State.micro, State.inByte, hfill, State.spiXfer_against]
    cases s.spiXfer s.params.fillByte with
    | ok m t => rfl
    | fail t => exact congrArg _ (State.abort_against g _ t)
    | never => rfl

/-! ### A run -/

theorem State.runMicros_against (g : Background) (ms : List Micro) (s : State) :
    State.runMicros ms (s.against g) = (State.runMicros ms s).against g := by
  induction ms generalizing s with
  | nil => exact State.finish_against g s
  | cons m ms ih =>
    simp only [State.runMicros, State.micro_against]
    cases s.micro m with
    | done t => exact ih t
    | aborted t => rfl
    | stuck => rfl

theorem State.microStep_against (g : Background) (s : State) :
    (s.against g).microStep = s.microStep.against g := by
  have hops : microSeq (s.against g).params (s.against g).cur = microSeq s.params s.cur := rfl
  have hupc : (s.against g).upc = s.upc := rfl
  simp only [State.microStep, hops, hupc]
  cases (microSeq s.params s.cur)[s.upc.toNat]? with
  | none => exact State.finish_against g s
  | some m =>
    simp only [State.micro_against]
    cases s.micro m with
    | done t =>
      show (if t.upc.toNat < _ then t.against g else (t.against g).finish) = _
      rw [State.finish_against, ← apply_ite]
    | aborted t => rfl
    | stuck => rfl

/-! ### The next operation -/

theorem eq_of_ceDerived {ce ce' : Level} {m : Mode} (h : ceDerived ce m) (h' : ceDerived ce' m) : ce' = ce := by
  cases ce <;> cases ce' <;> simp_all

/-- Two states at rest that agree on the mode, the bus side, the peer, the parameters and the free values give, when an
operation is accepted, the same state but for the background. -/
theorem State.accept_against {i : Instr} {s s' : State} (hr : s.atRest) (hr' : s'.atRest) (hmode : s'.mode = s.mode)
    (hanswers : s'.answers = s.answers) (hpeer : s'.peer = s.peer) (hparams : s'.params = s.params)
    (hdraws : s'.draws = s.draws) : s'.accept i = (s.accept i).foreground.against s'.background := by
  obtain ⟨-, hcsn, -, -, hce⟩ := hr
  obtain ⟨-, hcsn', -, -, hce'⟩ := hr'
  have hce'' : s'.ce = s.ce := eq_of_ceDerived hce (hmode ▸ hce')
  simp [State.accept, State.foreground, State.against, State.background, hcsn, hcsn', hce'', hmode, hanswers, hpeer,
    hparams, hdraws]

/-- Settles O24: after the acceptance the two states differ in their background only, which the run carries along. -/
theorem nothingElseReachesNextOperation : Obligations.NothingElseReachesNextOperation := by
  intro i s s' t hr hr' hi hmode hanswers hpeer hparams hdraws h
  cases hcheck : acceptCheck i s.mode with
  | some st =>
    cases (exec_refused hi hr.1 hcheck).symm.trans h
    refine ⟨_, [], exec_refused hi hr'.1 (hmode ▸ hcheck), ?_, by simp, by simp, hmode, hr'.2.1.trans hr.2.1.symm, ?_, hpeer⟩
    · simp only [State.freeByte, hdraws]
    · exact eq_of_ceDerived hr.2.2.2.2 (hmode ▸ hr'.2.2.2.2)
  | none =>
    cases (exec_runs hi hr.1 hcheck).symm.trans h
    have hexec' := exec_runs hi hr'.1 (hmode ▸ hcheck)
    have hself := (s.accept i).foreground_against_background
    rw [hparams, State.accept_against hr hr' hmode hanswers hpeer hparams hdraws, State.runMicros_against] at hexec'
    rw [← hself, State.runMicros_against]
    exact ⟨_, _, hexec', rfl, rfl, rfl, rfl, rfl, rfl, rfl⟩

/-! ### The interrupt line -/

/-- The state with the interrupt line at a level. -/
def State.withIrq (l : Level) (s : State) : State := { s with irq := l }

theorem State.microStep_withIrq (l : Level) (s : State) : (s.withIrq l).microStep = s.microStep.withIrq l := by
  obtain ⟨-, -, hoffers, hbench, hexchanged⟩ := s.sameOutside_microStep
  have hstate : s.withIrq l = s.against ⟨[], false, l, s.offers, s.bench, s.exchanged⟩ := rfl
  rw [hstate, State.microStep_against, ← hoffers, ← hbench, ← hexchanged]
  rfl

theorem State.slots_withIrq (l : Level) (bytes : List Byte) (s : State) :
    State.slots bytes (s.withIrq l) = (State.slots bytes s).withIrq l := by
  induction bytes generalizing s with
  | nil => rfl
  | cons b bs ih =>
    have hmiso : (s.withIrq l).peer.miso (s.withIrq l).params = s.peer.miso s.params := rfl
    have hslot : (s.withIrq l).slot b = (s.slot b).withIrq l := by
      simp only [State.slot, hmiso]
      cases s.peer.miso s.params <;> rfl
    rw [State.slots, hslot, ih]
    rfl

theorem State.wireFrame_withIrq (l : Level) (bytes : List Byte) (s : State) :
    (s.withIrq l).wireFrame bytes = (s.wireFrame bytes).withIrq l := by
  have hslots := State.slots_withIrq l bytes { s with peer := s.peer.onCsnLow, exchanged := [] }
  exact congrArg (fun t : State => { t with peer := t.peer.onCsnHigh t.params }) hslots

theorem State.nextOffer_withIrq {l : Level} {s u : State} {o : Offer} (h : s.nextOffer = some (o, u)) :
    (s.withIrq l).nextOffer = some (o, u.withIrq l) := by
  rcases s.nextOffer_cases with ⟨-, -, heq⟩ | ⟨frame, rest, hbench, heq⟩ | ⟨r, rest, hbench, ho, heq⟩
  · cases heq.symm.trans h
  · cases heq.symm.trans h
    exact State.nextOffer_bench (s := s.withIrq l) hbench
  · cases heq.symm.trans h
    exact State.nextOffer_host (s := s.withIrq l) hbench ho

/-- An instruction that does not start as an operation is refused or is a transaction, whatever the line's level. -/
theorem exec_withIrq {i : Instr} {s t : State} (l : Level) (hb : s.busy = false) (hs : s.starts i = false)
    (h : exec i s = .next t) : exec i (s.withIrq l) = .next (t.withIrq l) := by
  rcases exec_cases i s with ⟨hbusy, -⟩ | ⟨-, hi, st, hcheck, heq⟩ | ⟨-, hi, hcheck, -⟩ | ⟨-, hi, heq⟩
  · simp [hb] at hbusy
  · cases (exec_refused hi hb hcheck).symm.trans h
    exact exec_refused (s := s.withIrq l) hi hb hcheck
  · simp [State.starts_iff.2 ⟨hi, hcheck⟩] at hs
  · cases heq.symm.trans h
    rw [← State.wireFrame_withIrq]
    exact (exec_wire hi _).trans (if_neg (ne_true_of_eq_false hb))

/-- Settles O21: every part of a step commutes with moving the line. -/
theorem interruptLineHasNoEffect : Obligations.InterruptLineHasNoEffect := by
  intro s t l h
  show step (s.withIrq l) = .next (t.withIrq l)
  rcases step_cases s with ⟨hb, heq⟩ | ⟨hb, hbench, ho, heq⟩ | ⟨o, u, i, hb, hn, hd, hi, hcheck, heq⟩ |
    ⟨o, u, i, hb, hn, hd, hs, heq⟩ | ⟨o, u, r, hb, hn, hd, heq⟩
  · cases heq.symm.trans h
    rw [step_of_busy (s := s.withIrq l) hb, State.microStep_withIrq]
  · cases heq.symm.trans h
    exact step_of_idle (s := s.withIrq l) hb hbench ho
  · cases heq.symm.trans h
    exact (step_of_taken (s := s.withIrq l) hb (State.nextOffer_withIrq hn) hd).trans
      (if_pos (State.starts_iff.2 ⟨hi, hcheck⟩))
  · obtain ⟨offers, bench, rfl, -⟩ := State.nextOffer_eq hn
    rw [step_of_taken (s := s.withIrq l) hb (State.nextOffer_withIrq hn) hd]
    exact (if_neg (ne_true_of_eq_false hs)).trans (exec_withIrq l hb hs (heq.symm.trans h))
  · rw [step_of_rejected (s := s.withIrq l) hb (State.nextOffer_withIrq hn) hd]
    cases r with
    | illegalOp op => cases heq.symm.trans h; rfl
    | emptyFrame | reservedCommand _ | wrongSlots _ _ | lengthMismatch _ _ => cases heq.symm.trans h

end Sys2Proof.Machine

/-! SUPPORT. What runs keep of the mode and CE (spec/10_state.md R25, spec/42_mode_configuration.md R157), and where the mode
stands after an operation that ended `Ok` (R151). -/

namespace Sys2Proof.Machine

/-! ### What a run keeps -/

/-- What every micro-op of a run keeps when it completes, and a failed transfer and the end keep, the run keeps. -/
theorem State.runMicros_keeps {α : Type} (f : State → α) {ms : List Micro}
    (hmicro : ∀ m ∈ ms, ∀ s t : State, s.micro m = .done t → f t = f s)
    (habort : ∀ (s : State) (rest : List Answer) (b : Byte), f (({ s with answers := rest } : State).abort b) = f s)
    (hfinish : ∀ s : State, f s.finish = f s) (s : State) : f (State.runMicros ms s) = f s := by
  refine State.runMicros_induction (P := fun ns t => (∀ m ∈ ns, m ∈ ms) ∧ f t = f s) (Q := fun t => f t = f s)
    (fun m ns u t h hdone => ?_) (fun m ns u t h hab => ?_) (fun _ _ _ h _ => h.2)
    (fun u h => (hfinish u).trans h.2) ms s ⟨fun _ => id, rfl⟩
  · obtain ⟨hm, hns⟩ := List.forall_mem_cons.1 h.1
    exact ⟨hns, (hmicro m hm u t hdone).trans h.2⟩
  · obtain ⟨b, rest, -, -, rfl⟩ := State.micro_aborted hab
    exact (habort u rest b).trans h.2

theorem State.finish_mode (s : State) : s.finish.mode = s.mode := by
  obtain ⟨r, d, h⟩ := s.finish_eq
  rw [h]

theorem State.finish_ce (s : State) : s.finish.ce = s.ce := by
  obtain ⟨r, d, h⟩ := s.finish_eq
  rw [h]

theorem State.runMicros_mode {ms : List Micro} (h : ∀ m ∈ ms, m.act = .keep) (s : State) :
    (State.runMicros ms s).mode = s.mode := by
  refine State.runMicros_keeps State.mode (fun m hm u t hdone => ?_) (fun _ _ => State.abort_mode _) State.finish_mode s
  obtain ⟨e, hd⟩ := State.micro_done hdone
  have hmode : t.mode = m.act.apply u.mode := (congrArg Lines.mode hd.lines).trans (m.lines_mode _)
  rw [hmode, h m hm, ModeAct.apply_keep]

theorem State.runMicros_ce {ms : List Micro} (h : ∀ m ∈ ms, m.plain = true) (s : State) :
    (State.runMicros ms s).ce = s.ce := by
  refine State.runMicros_keeps State.ce (fun m hm u t hdone => ?_) (fun _ _ => State.abort_ce _) State.finish_ce s
  have hplain := h m hm
  rw [(State.micro_reactPeer hdone).2]
  cases m with
  | ce l act => cases hplain
  | csnLow | csnHigh _ | out _ | recv | dwell => rfl

/-- Settles O25: outside the mode configuration family the micro-ops leave the mode, and those of all but `transmit_one`
drive no CE. -/
theorem onlyModeFamilyMovesModeAndCe : Obligations.OnlyModeFamilyMovesModeAndCe := by
  intro i s t h hinit hrx htx
  rcases exec_cases i s with ⟨-, heq⟩ | ⟨-, -, st, -, heq⟩ | ⟨-, -, -, heq⟩ | ⟨-, -, heq⟩
  · cases heq.symm.trans h
    exact ⟨rfl, fun _ => rfl⟩
  · cases heq.symm.trans h
    exact ⟨rfl, fun _ => rfl⟩
  · cases heq.symm.trans h
    exact ⟨State.runMicros_mode (act_microSeq s.params hinit hrx htx) (s.accept i),
      fun hone => State.runMicros_ce (plain_microSeq s.params hinit hrx htx hone) (s.accept i)⟩
  · cases heq.symm.trans h
    obtain ⟨io, d, hframe, -⟩ := State.wireFrame_eq (wireBytes s.params i) s
    rw [hframe]
    exact ⟨rfl, fun _ => rfl⟩

/-! ### An operation that ended `Ok` -/

/-- A run that ends `Ok` has completed every micro-op. -/
theorem State.runMicros_lines_of_ok {ms : List Micro} {s : State} (hresp : s.resp = none)
    (h : (State.runMicros ms s).status? = some .ok) :
    ({ csn := (State.runMicros ms s).csn, ce := (State.runMicros ms s).ce, mode := (State.runMicros ms s).mode } : Lines) =
      linesAfter ms { csn := s.csn, ce := s.ce, mode := s.mode } := by
  induction ms generalizing s with
  | nil =>
    rw [State.runMicros, State.finish_csn, State.finish_ce, State.finish_mode]
    rfl
  | cons m ms ih =>
    cases hmicro : s.micro m with
    | done t =>
      obtain ⟨e, hd⟩ := State.micro_done hmicro
      rw [State.runMicros_cons_done hmicro] at h ⊢
      rw [ih (hd.resp.trans hresp) h, hd.lines]
      rfl
    | aborted t =>
      obtain ⟨b, rest, -, -, rfl⟩ := State.micro_aborted hmicro
      simp [State.runMicros, hmicro, State.abort_status] at h
    | stuck => simp [State.runMicros_cons_stuck hmicro, State.status?, hresp] at h

/-- A host operation at rest that ends `Ok` passed its checks and left the lines where its micro-sequence does. -/
theorem exec_ok {i : Instr} {s t : State} (hi : i.isHost = true) (hb : s.busy = false) (h : exec i s = .next t)
    (hok : t.status? = some .ok) : acceptCheck i s.mode = none ∧
      ({ csn := t.csn, ce := t.ce, mode := t.mode } : Lines) =
        linesAfter (microSeq s.params i) { csn := s.csn, ce := s.ce, mode := s.mode } := by
  cases hcheck : acceptCheck i s.mode with
  | some st =>
    cases (exec_refused hi hb hcheck).symm.trans h
    obtain rfl : st = .ok := Option.some.inj hok
    rcases acceptCheck_status hcheck with hst | hst <;> cases hst
  | none =>
    cases (exec_runs hi hb hcheck).symm.trans h
    exact ⟨rfl, State.runMicros_lines_of_ok (s := s.accept i) rfl hok⟩

theorem linesAfter_configureReceiveMode (p : Params) (l : Lines) :
    linesAfter (microSeq p .configureReceiveMode) l = { csn := .high, ce := .high, mode := .receiveMode } := rfl

theorem linesAfter_configureTransmitMode (p : Params) (l : Lines) :
    linesAfter (microSeq p .configureTransmitMode) l = { csn := .high, ce := .low, mode := .transmitMode } := rfl

/-- Settles O26: the mode is where the completed micro-sequence leaves it. -/
theorem modeTransitionTable : Obligations.ModeTransitionTable := by
  intro i s t hi hb h hok
  obtain ⟨hcheck, hlines⟩ := exec_ok hi hb h hok
  have hmode := congrArg Lines.mode hlines
  refine ⟨?_, ?_, ?_, fun hinit hrx htx => (onlyModeFamilyMovesModeAndCe i s t h hinit hrx htx).1, ?_⟩
  · rintro rfl
    rw [show t.mode = ModeAct.activeToStandby.apply s.mode from hmode]
    cases s.mode <;> rfl
  · rintro rfl
    exact hmode
  · rintro rfl
    exact hmode
  · rintro bytes rfl
    exact ((checkTransmit_eq_none _ _).1 hcheck).2

/-! ### On a bus that neither fails nor hangs -/

/-- An operation that is accepted on a bus that neither fails nor hangs comes to its end, with the peer and the lines that
its micro-sequence gives. -/
theorem exec_completes {i : Instr} {s : State} (hi : i.isHost = true) (hb : s.busy = false)
    (hcheck : acceptCheck i s.mode = none) (hg : s.busGood) :
    ∃ t, exec i s = .next t ∧ t.busy = false ∧ t.busFault = s.busFault ∧ t.params = s.params ∧
      t.peer = peerAfter s.params (microSeq s.params i) s.ce s.peer ∧
      ({ csn := t.csn, ce := t.ce, mode := t.mode } : Lines) =
        linesAfter (microSeq s.params i) { csn := s.csn, ce := s.ce, mode := s.mode } ∧
      ∃ x, t.status? = some (endStatus i x) := by
  have hstart : (s.accept i).busGood := hg
  obtain ⟨u, hrun, hpeer, hlines, hcur, hparams, hfault, -⟩ := State.runMicros_good (microSeq s.params i) _ hstart
  obtain ⟨r, d, hfinish⟩ := State.finish_eq u
  have hcur' : u.cur = i := hcur
  refine ⟨_, exec_runs hi hb hcheck, ?_⟩
  rw [hrun, hfinish]
  exact ⟨rfl, hfault, hparams, hpeer, hlines, _, by rw [hcur']; rfl⟩

/-- Every operation but `init` ends with CSN high. -/
theorem linesAfter_microSeq_csn (p : Params) {i : Instr} (hi : i.isHost = true) (l : Lines) :
    (linesAfter (microSeq p i) l).csn = if i = .init then l.csn else .high := by
  cases i with
  | init => rfl
  | configureReceiveMode | configureTransmitMode | writeRegister _ _ | readRegister _ | writeRegisterVerified _ _ | flushRx
  | flushTx => rfl
  | readRxPayload len => exact congrArg Lines.csn (linesAfter_txn _ [] len.toNat .keep l)
  | writeTxPayload bytes => exact congrArg Lines.csn (linesAfter_txn _ bytes 0 .keep l)
  | transmitOne bytes =>
    rw [microSeq, seqTransmitOne, linesAfter_append, linesAfter_txn]
    rfl
  | cmdRRegister _ | cmdWRegister _ _ | cmdRRxPayload _ | cmdWTxPayload _ | cmdFlushTx | cmdFlushRx | cmdReuseTxPl
  | cmdNop => cases hi

/-- Only a verified write can end otherwise than `Ok` (spec/60_exceptions.md R173, R174). -/
theorem endStatus_cases (i : Instr) (x : Byte) :
    endStatus i x = .ok ∨
      (endStatus i x = .unconfirmedRadioState ∧ ∃ addr value, i = .writeRegisterVerified addr value) := by
  cases i with
  | writeRegisterVerified addr value =>
    by_cases hx : x = value
    · exact .inl (if_pos hx)
    · exact .inr ⟨if_neg hx, addr, value, rfl⟩
  | _ => exact .inl rfl

/-- Settles O32: the run completes, and its end gives the status. -/
theorem goodBusEndsOperations : Obligations.GoodBusEndsOperations := by
  intro i s hi hb hcheck hg
  obtain ⟨t, hexec, hbusy, hfault, -, -, hlines, x, hstatus⟩ := exec_completes hi hb hcheck hg
  have hcsn : t.csn = _ := congrArg Lines.csn hlines
  refine ⟨t, hexec, hbusy, hfault, hcsn.trans (linesAfter_microSeq_csn s.params hi _), ?_⟩
  rcases endStatus_cases i x with hok | ⟨hun, hverified⟩
  · exact .inl (hok ▸ hstatus)
  · exact .inr ⟨hun ▸ hstatus, hverified⟩

end Sys2Proof.Machine

/-! SUPPORT. The configuration sequences and `transmit_one` at the reference peer (spec/20_memory.md R57,
spec/42_mode_configuration.md R152 to R154, R159). -/

namespace Sys2Proof.Machine

/-! ### The registers of a configuration sequence -/

/-- The register space after the six writes of a configuration sequence. -/
def configuredRegs (p : Params) (config : Byte) (m : Memory) : Memory :=
  Memory.write p (Memory.write p (Memory.write p (Memory.write p (Memory.write p (Memory.write p m
    regCONFIG config) regEN_AA p.enAaVal) regEN_RXADDR p.enRxaddrVal) regSETUP_RETR p.setupRetrVal)
    regRF_SETUP p.rfSetupVal) regRF_CH p.rfChVal

theorem read_configuredRegs_CONFIG (p : Params) (config : Byte) (m : Memory) :
    Memory.read p (configuredRegs p config m) 0x00 = config := by
  simp [configuredRegs, Memory.read_write, regCONFIG, regEN_AA, regEN_RXADDR, regSETUP_RETR, regRF_SETUP, regRF_CH]

theorem peerAfter_writeTxn_append (p : Params) (a : RegAddr) (v : Byte) (act : ModeAct) (next : List Micro) (ce : Level)
    (r : Peer) : peerAfter p (writeTxn a v act ++ next) ce r =
      peerAfter p next ce { r with regs := Memory.write p r.regs a v, frame := none } := by
  rw [peerAfter_append, writeTxn, ceAfter_txn, peerAfter_txn, List.replicate_zero, List.append_nil,
    Peer.transaction_wRegister]

theorem peerAfter_configurationMicros (p : Params) (config : Byte) (act : ModeAct) (after : List Micro) (ce : Level)
    (r : Peer) : peerAfter p (configurationMicros p config act after) ce r =
      peerAfter p after .low { r with regs := configuredRegs p config r.regs, frame := none } := by
  have hlow : (Micro.ce .low .activeToStandby).reactPeer p ce r = r := if_neg (by simp)
  rw [configurationMicros, peerAfter, hlow]
  simp only [peerAfter_writeTxn_append]
  rfl

/-- With PRIM_RX set a rise of CE sends nothing. -/
theorem Peer.onCeRise_of_primRx {p : Params} {r : Peer} (h : primRx (Memory.read p r.regs 0) = true) :
    r.onCeRise p = r := by
  rw [Peer.onCeRise_eq, if_neg (fun hsends => Bool.false_ne_true (hsends.2.symm.trans h)), List.append_nil]

/-- A completed configuration sequence leaves the six registers and nothing else in the peer: the closing CE rise of
`configure_receive_mode` finds PRIM_RX set. -/
theorem peerAfter_configuration {i : Instr} {config : Byte} (p : Params) (ce : Level) (r : Peer)
    (h : (i = .configureReceiveMode ∧ config = 0x0B) ∨ (i = .configureTransmitMode ∧ config = 0x0A)) :
    peerAfter p (microSeq p i) ce r = { r with regs := configuredRegs p config r.regs, frame := none } := by
  rcases h with ⟨rfl, rfl⟩ | ⟨rfl, rfl⟩
  · refine (peerAfter_configurationMicros p 0x0B .keep [.ce .high (.become .receiveMode)] ce r).trans ?_
    refine Peer.onCeRise_of_primRx ?_
    rw [show (0 : RegAddr) = 0x00 from rfl, read_configuredRegs_CONFIG]
    decide
  · exact peerAfter_configurationMicros p 0x0A (.become .transmitMode) [] ce r

/-- A configuration operation is a host operation without a check. -/
theorem configuration_accepted {i : Instr} {config : Byte} (m : Mode)
    (h : (i = .configureReceiveMode ∧ config = 0x0B) ∨ (i = .configureTransmitMode ∧ config = 0x0A)) :
    i.isHost = true ∧ acceptCheck i m = none := by
  rcases h with ⟨rfl, -⟩ | ⟨rfl, -⟩ <;> exact ⟨rfl, rfl⟩

/-- Settles O38: the six writes at the peer. -/
theorem configuredRegisters : Obligations.ConfiguredRegisters := by
  intro i config s hi hb hg
  obtain ⟨hhost, hcheck⟩ := configuration_accepted s.mode hi
  obtain ⟨t, hexec, -, -, hparams, hpeer, hlines, -⟩ := exec_completes hhost hb hcheck hg
  have hspares : ∀ a, writesRegister a i = false →
      Memory.read t.params t.peer.regs a = Memory.read s.params s.peer.regs a := by
    intro a ha
    rw [hparams, hpeer]
    exact sparesRegister_microSeq hcheck ha s.ce s.peer
  have hce : t.ce = if i = .configureReceiveMode then .high else .low := by
    refine (congrArg Lines.ce hlines).trans ?_
    rcases hi with ⟨rfl, -⟩ | ⟨rfl, -⟩ <;> rfl
  rw [peerAfter_configuration s.params s.ce s.peer hi] at hpeer
  refine ⟨t, hexec, hce, ?_, ?_, ?_, ?_, ?_, ?_, hspares, by rw [hpeer], by rw [hpeer]⟩ <;>
    simp [hparams, hpeer, configuredRegs, Memory.read_write, regCONFIG, regEN_AA, regEN_RXADDR, regSETUP_RETR, regRF_SETUP,
      regRF_CH]

/-- Settles O14: the reset touches the block only, and a configuration sequence sets the mode and CONFIG together. -/
theorem resetOfBlockAlone : Obligations.ResetOfBlockAlone := by
  refine ⟨fun s => ⟨s.resetBlock_lineInv, rfl, rfl, rfl, rfl, rfl, rfl, rfl⟩, fun i config m s hi hg => ?_⟩
  have hgood : s.resetBlock.busGood := hg
  have hi' : (i = .configureReceiveMode ∧ config = 0x0B) ∨ (i = .configureTransmitMode ∧ config = 0x0A) := by
    rcases hi with ⟨hop, hconfig, -⟩ | ⟨hop, hconfig, -⟩
    · exact .inl ⟨hop, hconfig⟩
    · exact .inr ⟨hop, hconfig⟩
  obtain ⟨hhost, hcheck⟩ := configuration_accepted s.resetBlock.mode hi'
  obtain ⟨t, hexec, -, -, hparams, hpeer, hlines, -⟩ := exec_completes hhost rfl hcheck hgood
  rw [peerAfter_configuration _ _ _ hi'] at hpeer
  refine ⟨t, hexec, (congrArg Lines.mode hlines).trans ?_, ?_⟩
  · rcases hi with ⟨rfl, -, rfl⟩ | ⟨rfl, -, rfl⟩ <;> rfl
  · rw [hparams, hpeer]
    exact read_configuredRegs_CONFIG _ config _

/-! ### `transmit_one` -/

/-- With CE low before, a completed `transmit_one` is its transaction and then a rise of CE. -/
theorem peerAfter_transmitOne (p : Params) (bytes : List Byte) (r : Peer) :
    peerAfter p (microSeq p (.transmitOne bytes)) .low r =
      (r.transaction p (encodeCmd .wTxPayload :: bytes)).onCeRise p := by
  rw [microSeq, seqTransmitOne, peerAfter_append, ceAfter_txn, peerAfter_txn, List.replicate_zero, List.append_nil]
  rfl

theorem exec_transmitOne_good {s : State} {bytes : List Byte} (hb : s.busy = false) (hce : s.ce = .low)
    (hlen : bytes.length ≤ 32) (hmode : s.mode = .transmitMode) (hg : s.busGood) :
    ∃ t, exec (.transmitOne bytes) s = .next t ∧ t.status? = some .ok ∧
      t.peer = (s.peer.transaction s.params (encodeCmd .wTxPayload :: bytes)).onCeRise s.params := by
  obtain ⟨t, hexec, -, -, -, hpeer, -, x, hstatus⟩ :=
    exec_completes (i := .transmitOne bytes) rfl hb ((checkTransmit_eq_none _ _).2 ⟨hlen, hmode⟩) hg
  exact ⟨t, hexec, hstatus, by rw [hpeer, hce, peerAfter_transmitOne]⟩

/-- Settles O40: the transaction queues the payload, and the rise of CE sends the head of the queue. -/
theorem transmitOneReachesAir : Obligations.TransmitOneReachesAir := by
  refine ⟨fun s bytes queue config hb hce hlen hmode hg hqueue hconfig => ?_,
    fun s bytes hb hce hlen hmode hg hdepth hempty hconfig => ?_⟩
  · obtain ⟨t, hexec, hstatus, hpeer⟩ := exec_transmitOne_good hb hce hlen hmode hg
    refine ⟨t, hexec, hstatus, ?_⟩
    rw [hpeer, Peer.transaction_wTxPayload, Peer.onCeRise_eq, hqueue, hconfig]
    rfl
  · obtain ⟨t, hexec, -, hpeer⟩ := exec_transmitOne_good hb hce hlen hmode hg
    have hroom : s.peer.txFifo.length < s.params.fifoDepth := by rw [hempty]; exact hdepth
    have hread : Memory.read s.params s.peer.regs 0 = 0x0A := hconfig
    refine ⟨t, hexec, ?_, ?_⟩ <;>
      rw [hpeer, Peer.transaction_wTxPayload, Peer.onCeRise_eq, if_pos hroom, hread, hempty]
    · rfl
    · rfl

/-! ### What reaches the air -/

theorem Peer.onCsnHigh_air (p : Params) (r : Peer) : (r.onCsnHigh p).air = r.air := by
  unfold Peer.onCsnHigh
  split
  · rfl
  · split <;> rfl

theorem Peer.onXfer_air (p : Params) (b : Byte) (r : Peer) : (r.onXfer p b).air = r.air := by
  unfold Peer.onXfer Peer.onData
  split
  · rfl
  split
  · rfl
  split <;> rfl

theorem Peer.foldl_onXfer_air (p : Params) (bytes : List Byte) (r : Peer) :
    (bytes.foldl (fun r b => r.onXfer p b) r).air = r.air := by
  induction bytes generalizing r with
  | nil => rfl
  | cons b bs ih => exact (ih _).trans (Peer.onXfer_air p b r)

theorem Peer.transaction_air (p : Params) (bytes : List Byte) (r : Peer) : (r.transaction p bytes).air = r.air :=
  (Peer.onCsnHigh_air p _).trans (Peer.foldl_onXfer_air p bytes r.onCsnLow)

/-- A micro-op that does not drive CE high. -/
def Micro.quiet (m : Micro) : Prop := ∀ act, m ≠ .ce .high act

theorem Micro.quiet_of_plain {m : Micro} (h : m.plain = true) : m.quiet := by
  rintro act rfl
  cases h

theorem Micro.reactPeer_air {m : Micro} (h : m.quiet) (p : Params) (ce : Level) (r : Peer) :
    (m.reactPeer p ce r).air = r.air := by
  cases m with
  | csnLow | dwell => rfl
  | csnHigh act => exact Peer.onCsnHigh_air p r
  | out b => exact Peer.onXfer_air p b r
  | recv => exact Peer.onXfer_air p p.fillByte r
  | ce l act =>
    cases l with
    | low => exact congrArg Peer.air (if_neg (by simp))
    | high => exact absurd rfl (h act)

/-- A run that does not drive CE high puts nothing on the air, however it ends. -/
theorem State.runMicros_air {ms : List Micro} (h : ∀ m ∈ ms, m.quiet) (s : State) :
    (State.runMicros ms s).peer.air = s.peer.air := by
  refine State.runMicros_keeps (fun t => t.peer.air) (fun m hm u t hdone => ?_) (fun u rest b => ?_) (fun u => ?_) s
  · show t.peer.air = u.peer.air
    rw [(State.micro_reactPeer hdone).1]
    exact Micro.reactPeer_air (h m hm) _ _ _
  · show (State.abort b { u with answers := rest }).peer.air = u.peer.air
    rw [State.abort_peer]
    split
    · exact Peer.onCsnHigh_air _ _
    · rfl
  · obtain ⟨r, d, hfinish⟩ := State.finish_eq u
    show u.finish.peer.air = u.peer.air
    rw [hfinish]

/-- A run of micro-ops before others completes them, with the peer they give, or ends among them. -/
theorem State.runMicros_append_cases (as bs : List Micro) (s : State) :
    (∃ u, State.runMicros (as ++ bs) s = State.runMicros bs u ∧ u.params = s.params ∧
      u.peer = peerAfter s.params as s.ce s.peer ∧ u.ce = as.foldl (fun c m => m.ceAfter c) s.ce) ∨
    State.runMicros (as ++ bs) s = State.runMicros as s := by
  induction as generalizing s with
  | nil => exact .inl ⟨s, rfl, rfl, rfl, rfl⟩
  | cons m as ih =>
    cases hmicro : s.micro m with
    | done t =>
      obtain ⟨e, hd⟩ := State.micro_done hmicro
      obtain ⟨hpeer, hce⟩ := State.micro_reactPeer hmicro
      rw [List.cons_append, State.runMicros_cons_done hmicro, State.runMicros_cons_done hmicro]
      have h := ih t
      rwa [hd.params, hpeer, hce] at h
    | aborted t => exact .inr (by simp only [List.cons_append, State.runMicros, hmicro])
    | stuck => exact .inr (by simp only [List.cons_append, State.runMicros, hmicro])

theorem quiet_configurationMicros (p : Params) (config : Byte) (act : ModeAct) :
    ∀ m ∈ configurationMicros p config act [], m.quiet := by
  simp [configurationMicros, writeTxn, txn, Micro.quiet]

/-- `configure_receive_mode` drives CE high only after its register writes, and then PRIM_RX is set. -/
theorem State.runMicros_configureReceiveMode_air (s : State) :
    (State.runMicros (microSeq s.params .configureReceiveMode) s).peer.air = s.peer.air := by
  have hseq : microSeq s.params .configureReceiveMode =
      configurationMicros s.params 0x0B .keep [] ++ [.ce .high (.become .receiveMode)] := rfl
  rw [hseq]
  rcases State.runMicros_append_cases (configurationMicros s.params 0x0B .keep []) [.ce .high (.become .receiveMode)] s with
    ⟨u, hrun, hparams, hpeer, hce⟩ | hrun
  · have hend : (State.runMicros [.ce .high (.become .receiveMode)] u).peer =
        peerAfter u.params [.ce .high (.become .receiveMode)] u.ce u.peer := by
      obtain ⟨r, d, hfinish⟩ := State.finish_eq ((u.driveCe .high).completed (.become .receiveMode))
      exact congrArg State.peer hfinish
    rw [hrun, hend, hparams, hpeer, hce, ← peerAfter_append, ← hseq,
      peerAfter_configuration s.params s.ce s.peer (.inl ⟨rfl, rfl⟩)]
  · rw [hrun]
    exact State.runMicros_air (quiet_configurationMicros _ _ _) s

theorem quiet_microSeq (p : Params) {i : Instr} (hrx : i ≠ .configureReceiveMode)
    (hone : ∀ bytes, i ≠ .transmitOne bytes) : ∀ m ∈ microSeq p i, m.quiet := by
  by_cases hinit : i = .init
  · subst hinit
    simp [microSeq, seqInit, Micro.quiet]
  by_cases htx : i = .configureTransmitMode
  · subst htx
    exact quiet_configurationMicros p 0x0A (.become .transmitMode)
  · exact fun m hm => Micro.quiet_of_plain (plain_microSeq p hinit hrx htx hone m hm)

/-- Settles O27: besides `transmit_one` only `configure_receive_mode` drives CE high, where PRIM_RX is set. -/
theorem onlyTransmitOneReachesAir : Obligations.OnlyTransmitOneReachesAir := by
  intro i s t hr h hone
  rcases exec_cases i s with ⟨hbusy, -⟩ | ⟨-, -, st, -, heq⟩ | ⟨-, -, -, heq⟩ | ⟨-, -, heq⟩
  · simp [hr.1] at hbusy
  · cases heq.symm.trans h
    rfl
  · cases heq.symm.trans h
    by_cases hrx : i = .configureReceiveMode
    · subst hrx
      exact State.runMicros_configureReceiveMode_air (s.accept .configureReceiveMode)
    · exact State.runMicros_air (quiet_microSeq s.params hrx hone) (s.accept i)
  · cases heq.symm.trans h
    obtain ⟨io, d, hframe, -⟩ := State.wireFrame_eq (wireBytes s.params i) s
    rw [hframe]
    exact Peer.transaction_air s.params (wireBytes s.params i) s.peer

end Sys2Proof.Machine

/-! SUPPORT. The transfers of a micro-sequence (spec/30_encoding.md R98): how many there are, that each stands in an open
frame, and that no dwell comes before one; so a failed transfer aborts every operation alike (spec/60_exceptions.md R176). -/

namespace Sys2Proof.Machine

/-! ### The bytes shifted out -/

theorem transferBytes_append (fill : Byte) (as bs : List Micro) :
    transferBytes fill (as ++ bs) = transferBytes fill as ++ transferBytes fill bs := by
  induction as with
  | nil => rfl
  | cons m as ih =>
    cases m with
    | out b => exact congrArg (b :: ·) ih
    | recv => exact congrArg (fill :: ·) ih
    | csnLow | csnHigh _ | ce _ _ | dwell => exact ih

theorem transferBytes_outs (fill : Byte) (bs : List Byte) : transferBytes fill (bs.map Micro.out) = bs := by
  induction bs with
  | nil => rfl
  | cons b bs ih => exact congrArg (b :: ·) ih

theorem transferBytes_recvs (fill : Byte) (n : Nat) :
    transferBytes fill (List.replicate n Micro.recv) = List.replicate n fill := by
  induction n with
  | zero => rfl
  | succ n ih => exact congrArg (fill :: ·) ih

/-- A transaction shifts out its command byte, its data bytes, and fill bytes. -/
theorem transferBytes_txn (fill cmd : Byte) (outs : List Byte) (n : Nat) (act : ModeAct) :
    transferBytes fill (txn cmd outs n act) = cmd :: (outs ++ List.replicate n fill) := by
  show cmd :: transferBytes fill (outs.map Micro.out ++ (List.replicate n Micro.recv ++ [.csnHigh act])) = _
  rw [transferBytes_append, transferBytes_append, transferBytes_outs, transferBytes_recvs]
  simp [transferBytes]

theorem transferBytes_transmitOne (p : Params) (fill : Byte) (bytes : List Byte) :
    transferBytes fill (microSeq p (.transmitOne bytes)) = 0xA0 :: bytes := by
  rw [microSeq, seqTransmitOne, transferBytes_append, transferBytes_txn]
  simp [transferBytes, encodeCmd]

/-- A micro-sequence makes the transfers of its operation. -/
theorem length_transferBytes_microSeq (p : Params) (fill : Byte) (i : Instr) :
    (transferBytes fill (microSeq p i)).length = transferCount i := by
  cases i with
  | readRxPayload len =>
    rw [microSeq, seqReadRxPayload, transferBytes_txn]
    simp [transferCount, Nat.add_comm]
  | writeTxPayload bytes =>
    rw [microSeq, seqWriteTxPayload, transferBytes_txn]
    simp [transferCount, Nat.add_comm]
  | transmitOne bytes => rw [transferBytes_transmitOne, List.length_cons, transferCount, Nat.add_comm]
  | _ => rfl

/-- The events of completed micro-ops have one transfer for each. -/
theorem length_filter_isTransfer_eventsOf (fill : Byte) (ns : Nat) (x : Nat → Byte) (ms : List Micro) :
    ((eventsOf fill ns x ms).filter Event.isTransfer).length = (transferBytes fill ms).length := by
  induction ms generalizing x with
  | nil => rfl
  | cons m ms ih =>
    cases m with
    | out _ | recv => exact congrArg (· + 1) (ih _)
    | csnLow | csnHigh _ | ce _ _ | dwell => exact ih x

/-! ### What comes before a transfer -/

theorem beforeTransfer_outs {k : Nat} {bs : List Byte} (h : k < bs.length) (next : List Micro) :
    beforeTransfer k (bs.map Micro.out ++ next) = (bs.take k).map Micro.out := by
  induction bs generalizing k with
  | nil => cases h
  | cons b bs ih =>
    cases k with
    | zero => rfl
    | succ k => exact congrArg (.out b :: ·) (ih (Nat.lt_of_succ_lt_succ h))

/-- Before a transfer of its frame, `transmit_one` has run the transfers before it. -/
theorem beforeTransfer_transmitOne {k : Nat} {bytes : List Byte} (p : Params) (h : k < 1 + bytes.length) :
    beforeTransfer k (microSeq p (.transmitOne bytes)) = .csnLow :: ((0xA0 :: bytes).take k).map Micro.out := by
  have hseq : microSeq p (.transmitOne bytes) =
      .csnLow :: ((0xA0 :: bytes).map Micro.out ++ [.csnHigh .keep, .ce .high .keep, .dwell, .ce .low .keep]) := by
    simp [microSeq, seqTransmitOne, txn, encodeCmd]
  rw [hseq, ← beforeTransfer_outs (by rwa [List.length_cons, Nat.add_comm])]
  cases k <;> rfl

/-- Only `transmit_one` dwells. -/
theorem dwell_notMem_microSeq (p : Params) {i : Instr} (hone : ∀ bytes, i ≠ .transmitOne bytes) :
    Micro.dwell ∉ microSeq p i := by
  by_cases hfamily : i = .init ∨ i = .configureReceiveMode ∨ i = .configureTransmitMode
  · rcases hfamily with rfl | rfl | rfl
    · simp [microSeq, seqInit]
    · exact dwell_notMem_configurationMicros p 0x0B .keep (after := [.ce .high (.become .receiveMode)]) (by decide)
    · exact dwell_notMem_configurationMicros p 0x0A (.become .transmitMode) (after := []) nofun
  · obtain ⟨hinit, hrx, htx⟩ : i ≠ .init ∧ i ≠ .configureReceiveMode ∧ i ≠ .configureTransmitMode := by
      simpa only [not_or] using hfamily
    exact fun hmem => Bool.false_ne_true (plain_microSeq p hinit hrx htx hone _ hmem)

/-- No dwell comes before a transfer. -/
theorem dwell_notMem_beforeTransfer {i : Instr} {k : Nat} (p : Params) (hk : k < transferCount i) :
    Micro.dwell ∉ beforeTransfer k (microSeq p i) := by
  by_cases hone : ∀ bytes, i ≠ .transmitOne bytes
  · exact fun hmem => dwell_notMem_microSeq p hone (beforeTransfer_subset k _ hmem)
  · obtain ⟨bytes, rfl⟩ := not_forall_not.1 hone
    rw [beforeTransfer_transmitOne p hk]
    simp only [List.mem_cons, List.mem_map, reduceCtorEq, and_false, exists_false, or_false, not_false_eq_true]

/-- CSN after some micro-ops is the same whatever it was before, or they leave it. -/
theorem linesAfter_csn_cases (ms : List Micro) (l l' : Lines) :
    (linesAfter ms l).csn = (linesAfter ms l').csn ∨
      ((linesAfter ms l).csn = l.csn ∧ (linesAfter ms l').csn = l'.csn) := by
  induction ms generalizing l l' with
  | nil => exact .inr ⟨rfl, rfl⟩
  | cons m ms ih =>
    have h := ih (m.lines l) (m.lines l')
    cases m with
    | csnLow | csnHigh _ => exact .inl (h.elim id fun hboth => hboth.1.trans hboth.2.symm)
    | ce _ _ | out _ | recv | dwell => exact h

theorem exists_ceDerived (m : Mode) : ∃ ce, ceDerived ce m := by
  by_cases h : m = .receiveMode
  · exact ⟨.high, (ceDerived_high m).2 h⟩
  · exact ⟨.low, (ceDerived_low m).2 h⟩

/-- A transfer of an operation stands in a frame that the operation opened, at whatever lines it began: the discipline of
the micro-sequence says so from a rest state, and CSN does not depend on where it was. -/
theorem csn_beforeTransfer {i : Instr} {k : Nat} {m : Mode} (p : Params) (hi : i.isHost = true)
    (hcheck : acceptCheck i m = none) (hk : k < transferCount i) (csn ce : Level) :
    (linesAfter (beforeTransfer k (microSeq p i)) { csn := csn, ce := ce, mode := m }).csn = .low := by
  obtain ⟨ce0, hce0⟩ := exists_ceDerived m
  obtain ⟨b, micro, next, hsplit, hsends, -, -⟩ :=
    beforeTransfer_split (fill := p.fillByte) (k := k) (ms := microSeq p i)
      (by rwa [length_transferBytes_microSeq])
  have hdisciplined := disciplined_microSeq p hi hce0 hcheck
  rw [hsplit] at hdisciplined
  have hlow : (linesAfter (beforeTransfer k (microSeq p i)) { csn := .high, ce := ce0, mode := m }).csn = .low := by
    obtain ⟨hallowed, -⟩ := disciplined_append_right hdisciplined
    rcases hsends with rfl | ⟨rfl, -⟩ <;> exact hallowed.1
  rcases linesAfter_csn_cases (beforeTransfer k (microSeq p i)) { csn := csn, ce := ce, mode := m }
    { csn := .high, ce := ce0, mode := m } with h | ⟨-, h⟩
  · exact h.trans hlow
  · rw [hlow] at h
    cases h

/-! ### The abort -/

/-- A wire row makes no transfer of the block. -/
theorem isHost_of_lt_transferCount {i : Instr} {k : Nat} (h : k < transferCount i) : i.isHost = true := by
  cases i with
  | cmdRRegister _ | cmdWRegister _ _ | cmdRRxPayload _ | cmdWTxPayload _ | cmdFlushTx | cmdFlushRx | cmdReuseTxPl
  | cmdNop => cases h
  | _ => rfl

/-- Settles O29: `exec_failed`, for no dwell comes before the transfer and CSN is low there. -/
theorem failedTransferAborts : Obligations.FailedTransferAborts := by
  rintro i s k x rest done es l ns hb hcheck hk hanswers rfl rfl rfl
  have hi := isHost_of_lt_transferCount hk
  have hlen : k < (transferBytes s.params.fillByte (microSeq s.params i)).length := by
    rwa [length_transferBytes_microSeq]
  obtain ⟨-, -, -, -, -, -, hcount⟩ := beforeTransfer_split hlen
  obtain ⟨b, hbyte, r, d, hexec⟩ := exec_failed ns hi hb hcheck hlen (dwell_notMem_beforeTransfer s.params hk)
    (csn_beforeTransfer s.params hi hcheck hk s.csn s.ce) hanswers
  exact ⟨(length_filter_isTransfer_eventsOf _ ns x _).trans hcount, b, r, d, hbyte, hexec⟩

theorem eventsOf_outs (fill : Byte) (ns : Nat) (x : Nat → Byte) (bs : List Byte) :
    eventsOf fill ns x (bs.map Micro.out) = List.zipWith Event.xfer bs ((List.range bs.length).map x) := by
  induction bs generalizing x with
  | nil => rfl
  | cons b bs ih =>
    rw [List.map_cons, List.length_cons, List.range_succ_eq_map, List.map_cons, List.map_map, List.zipWith_cons_cons]
    exact congrArg (.xfer b (x 0) :: ·) (ih _)

theorem linesAfter_outs (bs : List Byte) (l : Lines) : linesAfter (bs.map Micro.out) l = l := by
  induction bs with
  | nil => rfl
  | cons b bs ih => exact ih

/-- The events of a frame up to a failed transfer put nothing on the air. -/
theorem Peer.follow_failed_air (p : Params) (ce : Level) (r : Peer) (b : Byte) {mosi miso : List Byte}
    (h : miso.length = mosi.length) :
    (Peer.follow p ce (.csn .low :: List.zipWith Event.xfer mosi miso ++ [.xferFail b, .csn .high]) r).air = r.air := by
  rw [Peer.follow_abort, Peer.onCsnHigh_air, Peer.follow, Peer.follow_xfers p _ mosi miso h, Peer.foldl_onXfer_air]
  rfl

/-- Settles O30: before the failed transfer there are the frame's transfers only, and the abort drives no CE. -/
theorem failedTransmitOneStaysOffAir : Obligations.FailedTransmitOneStaysOffAir := by
  intro s bytes k x rest hb hlen hmode hk hanswers
  have hbefore := beforeTransfer_transmitOne s.params hk
  have htake : ((0xA0 :: bytes).take k).length = k := by
    rw [List.length_take, List.length_cons]
    omega
  have hevents : eventsOf s.params.fillByte 0 x (beforeTransfer k (microSeq s.params (.transmitOne bytes))) =
      .csn .low :: List.zipWith Event.xfer ((0xA0 :: bytes).take k) ((List.range k).map x) := by
    rw [hbefore, eventsOf, eventsOf_outs, htake]
  have hlines : linesAfter (beforeTransfer k (microSeq s.params (.transmitOne bytes)))
      { csn := s.csn, ce := s.ce, mode := s.mode } = { csn := .low, ce := s.ce, mode := s.mode } := by
    rw [hbefore, linesAfter, linesAfter_outs]
    rfl
  obtain ⟨-, b, r, d, hbyte, hexec⟩ := failedTransferAborts (.transmitOne bytes) s k x rest _ _ _ 0 hb
    ((checkTransmit_eq_none _ _).2 ⟨hlen, hmode⟩) hk hanswers rfl rfl rfl
  rw [hevents, hlines] at hexec
  rw [transferBytes_transmitOne] at hbyte
  refine ⟨_, b, hexec, hbyte, rfl, rfl, hmode, rfl, rfl, Peer.follow_failed_air _ _ _ b ?_⟩
  rw [htake, List.length_map, List.length_range]

end Sys2Proof.Machine

/-! SUPPORT. The whole next state of an operation whose transfers are answered with bytes: those of one or two transactions
(spec/40_register_access.md, spec/41_payload_transfer.md), `transmit_one`, and the configuration sequences
(spec/42_mode_configuration.md). -/

namespace Sys2Proof.Machine

/-! ### A transaction -/

/-- The bytes answered in the command slot, the out slots and the in slots. -/
theorem map_range_slots (x : Nat → Byte) (a n : Nat) : (List.range (1 + a + n)).map x =
    x 0 :: ((List.range a).map (fun k => x (1 + k)) ++ (List.range n).map fun k => x (k + (1 + a))) := by
  rw [List.range_add, List.range_add]
  simp [Function.comp_def, Nat.add_comm]

/-- A transaction whose transfers are answered with bytes: what it changes. -/
theorem State.runMicros_txn_bytes {outs : List Byte} {n : Nat} {s : State} {x : Nat → Byte} {rest : List Answer} (cmd : Byte)
    (act : ModeAct) (next : List Micro) (ha : s.answers = bytesFrom (1 + outs.length + n) x ++ rest) :
    State.runMicros (txn cmd outs n act ++ next) s = State.runMicros next { s with
      mode := act.apply s.mode
      csn := .high
      upc := s.upc + BitVec.ofNat 6 (3 + outs.length + n)
      rxbuf := s.rxbuf ++ (List.range n).map fun k => x (k + (1 + outs.length))
      answers := rest
      trace := s.trace ++ frameTrace (cmd :: (outs ++ List.replicate n s.params.fillByte))
        ((List.range (1 + outs.length + n)).map x)
      peer := Peer.follow s.params s.ce (frameTrace (cmd :: (outs ++ List.replicate n s.params.fillByte))
        ((List.range (1 + outs.length + n)).map x)) s.peer } := by
  have hbytes : s.answers = (x 0 :: ((List.range outs.length).map (fun k => x (1 + k)) ++
      (List.range n).map fun k => x (k + (1 + outs.length)))).map Answer.byte ++ rest := by
    rw [← map_range_slots, List.map_map]
    exact ha
  have hslots : ((List.range (1 + outs.length + n)).map x).length =
      (cmd :: (outs ++ List.replicate n s.params.fillByte)).length := by
    simp only [List.length_map, List.length_range, List.length_cons, List.length_append, List.length_replicate]
    omega
  have hrun := State.runMicros_txn cmd (x 0) outs _ _ act next s rest (by simp) hbytes
  rw [List.length_map, List.length_range, ← map_range_slots, ← Peer.follow_frame s.params s.ce _ _ hslots] at hrun
  exact hrun

/-- An operation that ran its micro-sequence and ends `Ok`. -/
theorem exec_of_runMicros {i : Instr} {s u : State} (hi : i.isHost = true) (hok : ∀ r, endStatus i r = .ok)
    (hb : s.busy = false) (hcheck : acceptCheck i s.mode = none) (hcur : u.cur = i)
    (hrun : State.runMicros (microSeq s.params i) (s.accept i) = State.runMicros [] u) :
    ∃ r d, exec i s = .next { u with
      busy := false
      upc := 0
      rxbuf := []
      resp := some { status := .ok, rbyte := r, rdata := endRdata i u.rxbuf }
      draws := d } := by
  obtain ⟨r, d, hfinish⟩ := State.finish_eq u
  rw [hcur, hok] at hfinish
  exact ⟨r, d, by rw [exec_runs hi hb hcheck, hrun, State.runMicros, hfinish, ← hcur]⟩

/-- An operation of one transaction that ends `Ok`, answered with bytes: the whole next state. -/
theorem exec_txn {i : Instr} {cmd : Byte} {outs : List Byte} {n : Nat} {s : State} {x : Nat → Byte} {rest : List Answer}
    (hseq : microSeq s.params i = txn cmd outs n .keep) (hi : i.isHost = true) (hok : ∀ r, endStatus i r = .ok)
    (hb : s.busy = false) (hcheck : acceptCheck i s.mode = none)
    (ha : s.answers = bytesFrom (1 + outs.length + n) x ++ rest) :
    ∃ r d, exec i s = .next { s with
      csn := .high
      cur := i
      upc := 0
      rxbuf := []
      resp := some {
        status := .ok
        rbyte := r
        rdata := endRdata i ((List.range n).map fun k => x (k + (1 + outs.length))) }
      answers := rest
      trace := s.trace ++ frameTrace (cmd :: (outs ++ List.replicate n s.params.fillByte))
        ((List.range (1 + outs.length + n)).map x)
      peer := Peer.follow s.params s.ce (frameTrace (cmd :: (outs ++ List.replicate n s.params.fillByte))
        ((List.range (1 + outs.length + n)).map x)) s.peer
      draws := d } := by
  have hrun := State.runMicros_txn_bytes (s := s.accept i) cmd .keep [] ha
  rw [List.append_nil, ← hseq] at hrun
  obtain ⟨r, d, hexec⟩ := exec_of_runMicros hi hok hb hcheck rfl hrun
  exact ⟨r, d, hexec.trans (by simp [hb])⟩

/-- The command byte of a register write (spec/40_register_access.md R110). -/
theorem writeCmd_of_legal {addr : Byte} (h : addr ≤ 0x1F) : writeCmd addr = 0x20 ||| addr := by
  revert addr; decide

/-- Settles O41: one transaction of two transfers. -/
theorem writeRegisterResult : Obligations.WriteRegisterResult := by
  intro s addr value x rest hb ha hanswers
  rw [← writeCmd_of_legal ha]
  exact exec_txn (outs := [value]) (n := 0) rfl rfl (fun _ => rfl) hb ((checkAddr_eq_none addr).2 ha) hanswers

/-- Settles O44: one transaction, whose data slots are the payload. -/
theorem readRxPayloadResult : Obligations.ReadRxPayloadResult := by
  intro s len x rest hb hlen hanswers
  exact exec_txn (outs := []) (n := len.toNat) rfl rfl (fun _ => rfl) hb
    ((checkLen_eq_none _).2 (BitVec.le_def.1 hlen)) hanswers

/-- Settles O45: one transaction, which shifts the payload out. -/
theorem writeTxPayloadResult : Obligations.WriteTxPayloadResult := by
  intro s bytes x rest hb hlen hanswers
  have hexec := exec_txn (i := .writeTxPayload bytes) (outs := bytes) (n := 0) rfl rfl (fun _ => rfl) hb
    ((checkLen_eq_none _).2 hlen) hanswers
  rwa [List.replicate_zero, List.append_nil] at hexec

/-- A transaction of one byte is its command at the peer. -/
theorem Peer.follow_command (p : Params) (ce : Level) (r : Peer) (cmd m : Byte) :
    Peer.follow p ce (frameTrace [cmd] [m]) r = r.transaction p [cmd] :=
  Peer.follow_frameTrace p ce r rfl

/-- Settles O46: one transaction of one transfer, which empties its FIFO. -/
theorem flushResults : Obligations.FlushResults := by
  intro i cmd s m rest hi hb hanswers
  have hbytes : s.answers = bytesFrom 1 (fun _ => m) ++ rest := hanswers
  have hpeer := Peer.follow_command s.params s.ce s.peer
  rcases hi with ⟨rfl, rfl⟩ | ⟨rfl, rfl⟩
  · simp only [if_true, reduceCtorEq, if_false, ← Peer.transaction_flushRx s.params s.peer, ← hpeer _ m]
    exact exec_txn (outs := []) (n := 0) rfl rfl (fun _ => rfl) hb rfl hbytes
  · simp only [if_true, reduceCtorEq, if_false, ← Peer.transaction_flushTx s.params s.peer, ← hpeer _ m]
    exact exec_txn (outs := []) (n := 0) rfl rfl (fun _ => rfl) hb rfl hbytes

/-! ### A byte received -/

/-- The end of an operation that ran its micro-sequence and received the byte it delivers. -/
theorem exec_of_runMicros_rbyte {i : Instr} {s u : State} {b : Byte} (hi : i.isHost = true)
    (hdef : definesRbyte i = true) (hb : s.busy = false) (hcheck : acceptCheck i s.mode = none) (hcur : u.cur = i)
    (hrx : u.rxbuf = [b])
    (hrun : State.runMicros (microSeq s.params i) (s.accept i) = State.runMicros [] u) :
    exec i s = .next { u with
      busy := false
      upc := 0
      rxbuf := []
      resp := some { status := endStatus i b, rbyte := b, rdata := endRdata i [b] } } := by
  have hfinish := State.finish_rbyte (s := u) (hcur.symm ▸ hdef)
  rw [hrx, List.head?_cons, Option.getD_some, hcur] at hfinish
  rw [exec_runs hi hb hcheck, hrun, State.runMicros, hfinish, ← hcur]

/-- Settles O42: one transaction, whose data slot is the byte delivered. -/
theorem readRegisterResult : Obligations.ReadRegisterResult := by
  intro s addr x rest hb ha hanswers
  have hrun := State.runMicros_txn_bytes (outs := []) (n := 1) (s := s.accept (.readRegister addr)) (readCmd addr) .keep []
    hanswers
  rw [List.append_nil] at hrun
  rw [← readCmd_of_legal ha]
  exact (exec_of_runMicros_rbyte (i := .readRegister addr) rfl rfl hb ((checkAddr_eq_none addr).2 ha) rfl rfl hrun).trans
    (by rw [hb]; rfl)

/-- Settles O43: two transactions, the second of which reads back what is compared with the value. -/
theorem writeRegisterVerifiedResult : Obligations.WriteRegisterVerifiedResult := by
  intro s addr value x rest hb ha hanswers
  have hwrite := State.runMicros_txn_bytes (outs := [value]) (n := 0) (s := s.accept (.writeRegisterVerified addr value))
    (rest := bytesFrom 2 (fun k => x (k + 2)) ++ rest) (writeCmd addr) .keep (txn (readCmd addr) [] 1 .keep ++ []) hanswers
  have hrun := hwrite.trans
    (State.runMicros_txn_bytes (outs := []) (n := 1) (x := fun k => x (k + 2)) (readCmd addr) .keep [] rfl)
  rw [← readCmd_of_legal ha, ← writeCmd_of_legal ha, Peer.follow_append, ceAfter_frame, ← List.append_assoc]
  exact (exec_of_runMicros_rbyte (i := .writeRegisterVerified addr value) rfl rfl hb ((checkAddr_eq_none addr).2 ha) rfl rfl
    hrun).trans (by rw [hb]; rfl)

/-! ### `transmit_one` -/

/-- The pulse on CE: up, a dwell of at least `CE_PULSE_MIN`, down. -/
theorem State.runMicros_pulse (s : State) : ∃ u ns, cePulseMinNs ≤ ns ∧
    State.runMicros [.ce .high .keep, .dwell, .ce .low .keep] s = State.runMicros [] { s with
      ce := .low
      upc := u
      trace := s.trace ++ [.ce .high, .dwell ns, .ce .low]
      peer := Peer.follow s.params s.ce [.ce .high, .dwell ns, .ce .low] s.peer
      draws := s.draws + 1 } := by
  refine ⟨s.upc + 1 + 1 + 1, cePulseMinNs + Config.dwellBeyond s.draws, Nat.le_add_right _ _, ?_⟩
  rw [State.runMicros_cons_done rfl, State.runMicros_cons_done rfl, State.runMicros_cons_done rfl]
  have htrace (a b c : Event) : s.trace ++ [a, b, c] = s.trace ++ [a] ++ [b] ++ [c] := by simp
  rw [htrace]
  rfl

/-- Settles O39: the transaction, then the pulse on CE. -/
theorem transmitOneResult : Obligations.TransmitOneResult := by
  intro s bytes x rest hb hlen hmode hanswers
  have hframe := State.runMicros_txn_bytes (outs := bytes) (n := 0) (s := s.accept (.transmitOne bytes))
    (encodeCmd .wTxPayload) .keep [.ce .high .keep, .dwell, .ce .low .keep] hanswers
  rw [List.replicate_zero, List.append_nil] at hframe
  obtain ⟨u, ns, hns, hpulse⟩ := State.runMicros_pulse _
  obtain ⟨r, d, hexec⟩ := exec_of_runMicros (i := .transmitOne bytes) rfl (fun _ => rfl) hb
    ((checkTransmit_eq_none _ _).2 ⟨hlen, hmode⟩) rfl (hframe.trans hpulse)
  refine ⟨r, d, ns, hns, hexec.trans ?_⟩
  rw [hb, Peer.follow_append, ceAfter_frame, ← List.append_assoc]
  rfl

/-! ### The configuration sequences -/

theorem eventsOf_configureReceiveMode (p : Params) (ns : Nat) (x : Nat → Byte) :
    eventsOf p.fillByte ns x (microSeq p .configureReceiveMode) =
      .ce .low :: configurationTrace p 0x0B x ++ [.ce .high] := rfl

theorem eventsOf_configureTransmitMode (p : Params) (ns : Nat) (x : Nat → Byte) :
    eventsOf p.fillByte ns x (microSeq p .configureTransmitMode) = .ce .low :: configurationTrace p 0x0A x := rfl

/-- An operation without a dwell that ends `Ok`, answered with bytes: the lines and the peer are what its micro-ops and its
events make of them. -/
theorem exec_bytes {i : Instr} {s : State} {x : Nat → Byte} {rest : List Answer} (ns : Nat) (hi : i.isHost = true)
    (hok : ∀ r, endStatus i r = .ok) (hb : s.busy = false) (hcheck : acceptCheck i s.mode = none)
    (hone : ∀ bytes, i ≠ .transmitOne bytes) (ha : s.answers = bytesFrom (transferCount i) x ++ rest) :
    ∃ r rx d, exec i s = .next { s with
      mode := (linesAfter (microSeq s.params i) { csn := s.csn, ce := s.ce, mode := s.mode }).mode
      csn := (linesAfter (microSeq s.params i) { csn := s.csn, ce := s.ce, mode := s.mode }).csn
      ce := (linesAfter (microSeq s.params i) { csn := s.csn, ce := s.ce, mode := s.mode }).ce
      cur := i
      upc := 0
      rxbuf := []
      resp := some { status := .ok, rbyte := r, rdata := endRdata i rx }
      answers := rest
      trace := s.trace ++ eventsOf s.params.fillByte ns x (microSeq s.params i)
      peer := Peer.follow s.params s.ce (eventsOf s.params.fillByte ns x (microSeq s.params i)) s.peer
      draws := d } := by
  rw [← length_transferBytes_microSeq s.params s.params.fillByte] at ha
  obtain ⟨u, rx, hrun⟩ :=
    State.runMicros_bytes (s := s.accept i) ns [] (dwell_notMem_microSeq s.params hone) ha
  rw [List.append_nil] at hrun
  obtain ⟨r, d, hexec⟩ := exec_of_runMicros hi hok hb hcheck rfl hrun
  exact ⟨r, rx, d, hexec.trans (by rw [hb]; rfl)⟩

/-- Settles O36: the micro-ops in order, with the lines and the events of the sequence. -/
theorem configureReceiveModeResult : Obligations.ConfigureReceiveModeResult := by
  intro s x rest hb hanswers
  obtain ⟨r, rx, d, hexec⟩ := exec_bytes (i := .configureReceiveMode) 0 rfl (fun _ => rfl) hb rfl nofun hanswers
  rw [linesAfter_configureReceiveMode, eventsOf_configureReceiveMode] at hexec
  exact ⟨r, d, hexec⟩

/-- Settles O37: the micro-ops in order, with the lines and the events of the sequence. -/
theorem configureTransmitModeResult : Obligations.ConfigureTransmitModeResult := by
  intro s x rest hb hanswers
  obtain ⟨r, rx, d, hexec⟩ := exec_bytes (i := .configureTransmitMode) 0 rfl (fun _ => rfl) hb rfl nofun hanswers
  rw [linesAfter_configureTransmitMode, eventsOf_configureTransmitMode] at hexec
  exact ⟨r, d, hexec⟩

end Sys2Proof.Machine

/-! SUPPORT. A wire row run on its own (spec/40_register_access.md R113, R114, spec/41_payload_transfer.md R131 to R139): its
transaction at the peer, and the bytes exchanged, among them those that the peer is bound to. -/

namespace Sys2Proof.Machine

/-! ### The bytes exchanged -/

/-- The bytes exchanged in slots: those shifted out, and in each slot the byte the peer is bound to there, if it is bound to
one. -/
def exchangedWith (p : Params) (bytes : List Byte) (r : Peer) (io : List (Byte × Byte)) : Prop :=
  io.map Prod.fst = bytes ∧ ∀ (k : Nat) (b y : Byte), bytes[k]? = some b →
    ((bytes.take k).foldl (fun r b => r.onXfer p b) r).miso p = some y → io[k]? = some (b, y)

theorem exchangedWith_cons {p : Params} {b x : Byte} {bs : List Byte} {r : Peer} {io : List (Byte × Byte)}
    (hx : ∀ y, r.miso p = some y → x = y) (h : exchangedWith p bs (r.onXfer p b) io) :
    exchangedWith p (b :: bs) r ((b, x) :: io) := by
  obtain ⟨hout, hbound⟩ := h
  refine ⟨congrArg (b :: ·) hout, fun k c y hc hy => ?_⟩
  cases k with
  | zero =>
    obtain rfl : b = c := Option.some.inj hc
    exact congrArg (fun z => some (b, z)) (hx y hy)
  | succ k => exact hbound k c y hc hy

/-- What a slot changes. -/
theorem State.slot_eq (b : Byte) (s : State) : ∃ x d, s.slot b = { s with
    peer := s.peer.onXfer s.params b
    exchanged := s.exchanged ++ [(b, x)]
    draws := d } ∧ ∀ y, s.peer.miso s.params = some y → x = y := by
  cases hmiso : s.peer.miso s.params with
  | some m => exact ⟨m, s.draws, by simp only [State.slot, hmiso], fun y hy => Option.some.inj hy⟩
  | none => exact ⟨s.freeByte, s.draws + 1, by simp only [State.slot, hmiso], nofun⟩

theorem State.slots_exchange (bytes : List Byte) (s : State) :
    ∃ io d, State.slots bytes s = { s with
      peer := bytes.foldl (fun r b => r.onXfer s.params b) s.peer
      exchanged := s.exchanged ++ io
      draws := d } ∧ exchangedWith s.params bytes s.peer io := by
  induction bytes generalizing s with
  | nil => exact ⟨[], s.draws, by simp [State.slots], rfl, nofun⟩
  | cons b bs ih =>
    obtain ⟨x, d, hslot, hx⟩ := s.slot_eq b
    obtain ⟨io, d', hslots, hio⟩ := ih (s.slot b)
    rw [hslot] at hio hslots
    refine ⟨(b, x) :: io, d', ?_, exchangedWith_cons hx hio⟩
    rw [State.slots, hslot, hslots]
    simp

/-- A wire row at rest is its transaction at the peer; nothing of the block changes. -/
theorem exec_wire_exchange {i : Instr} {s : State} (hi : i.isHost = false) (hb : s.busy = false) :
    ∃ io d, exec i s = .next { s with
      peer := s.peer.transaction s.params (wireBytes s.params i)
      exchanged := io
      draws := d } ∧ exchangedWith s.params (wireBytes s.params i) s.peer.onCsnLow io := by
  obtain ⟨io, d, hslots, hio⟩ :=
    State.slots_exchange (wireBytes s.params i) { s with peer := s.peer.onCsnLow, exchanged := [] }
  refine ⟨io, d, ?_, hio⟩
  rw [exec_wire hi, State.wireRow, if_neg (ne_true_of_eq_false hb), State.wireFrame, hslots]
  rfl

theorem eq_of_map_fst_singleton {b : Byte} {io : List (Byte × Byte)} (h : io.map Prod.fst = [b]) : ∃ m, io = [(b, m)] := by
  obtain ⟨⟨_, m⟩, rfl, rfl⟩ := List.map_eq_singleton_iff.1 h
  exact ⟨m, rfl⟩

theorem eq_of_map_fst_pair {b c : Byte} {io : List (Byte × Byte)} (h : io.map Prod.fst = [b, c]) :
    ∃ m n, io = [(b, m), (c, n)] := by
  obtain ⟨⟨_, m⟩, rest, rfl, rfl, hrest⟩ := List.map_eq_cons_iff.1 h
  obtain ⟨n, rfl⟩ := eq_of_map_fst_singleton hrest
  exact ⟨m, n, rfl⟩

/-! ### The wire rows -/

/-- Settles O50: the transaction puts the byte into the register. -/
theorem wireWRegisterResult : Obligations.WireWRegisterResult := by
  intro s a value hb
  obtain ⟨io, d, hexec, hout, -⟩ := exec_wire_exchange (i := .cmdWRegister a value) rfl hb
  obtain ⟨m0, m1, rfl⟩ := eq_of_map_fst_pair hout
  rw [wireBytes, Peer.transaction_wRegister] at hexec
  exact ⟨m0, m1, d, _, hexec, fun b => Memory.read_write s.params s.peer.regs a b value⟩

/-- Settles O51: in data slot 1 the peer is bound to the register. -/
theorem wireRRegisterResult : Obligations.WireRRegisterResult := by
  intro s a hb
  obtain ⟨io, d, hexec, hout, hbound⟩ := exec_wire_exchange (i := .cmdRRegister a) rfl hb
  obtain ⟨m0, m1, rfl⟩ := eq_of_map_fst_pair hout
  have hm1 : m1 = Memory.read s.params s.peer.regs a := by
    simpa using hbound 1 s.params.fillByte _ rfl (Peer.miso_rRegister s.params s.peer a)
  rw [wireBytes, Peer.transaction_rRegister, hm1] at hexec
  exact ⟨m0, d, hexec⟩

/-- Settles O52: in data slot `k + 1` the peer is bound to byte `k` of the top entry. -/
theorem wireRRxPayloadResult : Obligations.WireRRxPayloadResult := by
  intro s n hb
  obtain ⟨io, d, hexec, hout, hbound⟩ := exec_wire_exchange (i := .cmdRRxPayload n) rfl hb
  rw [wireBytes, Peer.transaction_rRxPayload, List.length_replicate] at hexec
  refine ⟨io, d, hexec, hout, fun k entry b hk hentry hbyte => hbound (k + 1) _ b ?_ ?_⟩
  · rw [wireBytes, List.getElem?_cons_succ, List.getElem?_replicate, if_pos hk]
  · rw [wireBytes, List.take_succ_cons, List.take_replicate, Nat.min_eq_left hk.le, Peer.miso_rRxPayload, hentry,
      List.length_replicate]
    exact hbyte

/-- Settles O53: the transaction queues its data bytes where there is room. -/
theorem wireWTxPayloadResult : Obligations.WireWTxPayloadResult := by
  intro s bytes hb
  obtain ⟨io, d, hexec, hout, -⟩ := exec_wire_exchange (i := .cmdWTxPayload bytes) rfl hb
  rw [wireBytes, Peer.transaction_wTxPayload] at hexec
  exact ⟨io, d, hexec, hout⟩

/-- Settles O54: each is a transaction of its command byte alone. -/
theorem wireOneByteResults : Obligations.WireOneByteResults := by
  intro i cmd s hb hi
  have hhost : i.isHost = false := by rcases hi with ⟨rfl, -⟩ | ⟨rfl, -⟩ | ⟨rfl, -⟩ | ⟨rfl, -⟩ <;> rfl
  have hcmd : wireBytes s.params i = [cmd] := by
    rcases hi with ⟨rfl, rfl⟩ | ⟨rfl, rfl⟩ | ⟨rfl, rfl⟩ | ⟨rfl, rfl⟩ <;> rfl
  obtain ⟨io, d, hexec, hout, -⟩ := exec_wire_exchange hhost hb
  obtain ⟨m, rfl⟩ := eq_of_map_fst_singleton (hout.trans hcmd)
  have hpeer : s.peer.transaction s.params (wireBytes s.params i) = { s.peer with
      rxFifo := if i = .cmdFlushRx then [] else s.peer.rxFifo
      txFifo := if i = .cmdFlushTx then [] else s.peer.txFifo
      frame := none } := by
    rcases hi with ⟨rfl, -⟩ | ⟨rfl, -⟩ | ⟨rfl, -⟩ | ⟨rfl, -⟩
    · exact Peer.transaction_flushRx s.params s.peer
    · exact Peer.transaction_flushTx s.params s.peer
    · exact Peer.transaction_reuseTxPl s.params s.peer
    · exact Peer.transaction_nop s.params s.peer
  exact ⟨m, d, hpeer ▸ hexec⟩

/-! ### The two levels -/

/-- A legal address is its register's. -/
theorem encodeCmd_rRegister_regOf {addr : Byte} (h : addr ≤ 0x1F) : encodeCmd (.rRegister (regOf addr)) = addr :=
  (readCmd_of_legal h).trans BitVec.zero_or

theorem runMicros_writeRegister_peer {s : State} (addr value : Byte) (h : s.busGood) :
    (State.runMicros (microSeq s.params (.writeRegister addr value)) (s.accept (.writeRegister addr value))).peer =
      s.peer.transaction s.params [encodeCmd (.wRegister (regOf addr)), value] := by
  rw [runMicros_accept_peer _ h, microSeq, seqWriteRegister, peerAfter_txn]
  rfl

theorem runMicros_readRegister_peer {s : State} (addr : Byte) (h : s.busGood) :
    (State.runMicros (microSeq s.params (.readRegister addr)) (s.accept (.readRegister addr))).peer =
      s.peer.transaction s.params [encodeCmd (.rRegister (regOf addr)), s.params.fillByte] := by
  rw [runMicros_accept_peer _ h, microSeq, seqReadRegister, peerAfter_txn]
  rfl

/-- Settles O55: at the peer an operation and its wire row are the same transaction, and both read the register. -/
theorem hostOperationIsItsWireRow : Obligations.HostOperationIsItsWireRow := by
  intro s addr value hb h ha
  have hcheck : checkAddr addr = none := (checkAddr_eq_none addr).2 ha
  constructor
  · obtain ⟨io, d, hwire, -⟩ := exec_wire_exchange (i := .cmdWRegister (regOf addr) value) rfl hb
    exact ⟨_, _, exec_runs (i := .writeRegister addr value) rfl hb hcheck, hwire,
      runMicros_writeRegister_peer addr value h.busGood⟩
  · obtain ⟨m0, d, hwire⟩ := wireRRegisterResult s (regOf addr) hb
    obtain ⟨t, hread, hresp⟩ := exec_readRegister_peer hb h ha
    have hpeer : t.peer = { s.peer with frame := none } := by
      cases (exec_runs (i := .readRegister addr) rfl hb hcheck).symm.trans hread
      rw [runMicros_readRegister_peer addr h.busGood, Peer.transaction_rRegister]
    have hcmd : (0x00 : Byte) ||| (regOf addr).setWidth 8 = addr := encodeCmd_rRegister_regOf ha
    rw [hcmd] at hwire
    exact ⟨t, _, m0, _, hread, hwire, hpeer, rfl, hresp⟩

end Sys2Proof.Machine
